-- ==== Sys2Proof/Word.lean ====
section
/-! DEFINITION. The widths the spec fixes (00_scope.md R7, R8, R10) and the four-word value both the chaining
state and the working words are. -/

namespace Sys2Proof

/-- A byte of the bus, of a buffer or of a command (R8, R10). -/
abbrev Byte := BitVec 8

/-- A 32-bit state or message word; `+` wraps modulo 2^32 (R7, R10). -/
abbrev Word := BitVec 32

/-- The 64-bit length register and length field (R7, R26). -/
abbrev Length := BitVec 64

/-- A 9-bit byte address of the host bus: exactly the 512-byte window (R50, R51). -/
abbrev Addr := BitVec 9

/-- A STATUS.ERR code (R8, R35). -/
abbrev Code := BitVec 4

/-- Four 32-bit words in the order A, B, C, D (R20): the chaining state, and the working words (R38). -/
structure Quad where
  a : Word
  b : Word
  c : Word
  d : Word
deriving DecidableEq, Repr

/-- The sixteen message words `W[0..15]` of a block (R38, R127). -/
abbrev Words := Vector Word 16

end Sys2Proof
end

