-- ==== Sys2Proof/Syntax.lean ====
section
/-! DEFINITION. The six commands (30_encoding.md R81), the host's bus transactions (20_memory.md R50), the
statements of its program (R85, R86) and the turns of an interleaving (R60). -/

namespace Sys2Proof

/-- The commands of spec/opcode_table.json. None has an operand field or an immediate (R82). -/
inductive Instr where
  | nop
  | init
  | ldhex
  | compress
  | pad
  | final
deriving DecidableEq, Repr

/-- A bus transaction: "either `Read(addr) -> byte` or `Write(addr, byte)`" (R50). -/
inductive BusTxn where
  | read (addr : Addr)
  | write (addr : Addr) (byte : Byte)
deriving DecidableEq, Repr

/-- What the host does next, one transaction a turn: the two bus operations (R85) and the three pseudo-operations
whose transactions depend on what it reads (R86). -/
inductive HostOp where
  /-- `WR addr, byte` -/
  | wr (addr : Addr) (byte : Byte)
  /-- `RD addr`, its result kept -/
  | rd (addr : Addr)
  /-- `WAIT`: repeat `RD STATUS` until bit 0 of the result is 0 -/
  | wait
  /-- `WAITOK`: `WAIT`, then stop unless bits 7:4 of the final STATUS byte are 0 -/
  | waitOk
  /-- `RDPAD`: `RD PADBLKS` giving `q`, then the `64q` bytes of PADBUF -/
  | rdPad
deriving DecidableEq, Repr

/-- A line of a host program: a bus operation, a command mnemonic, a pseudo-operation (R85, R86), or one of the two
multi-byte primitives of the pseudocode (R11). -/
inductive HostStmt where
  | wr (addr : Addr) (byte : Byte)
  | rd (addr : Addr)
  | cmd (i : Instr)
  | wait
  | waitOk
  | wrBlk (s : List Byte)
  | wrTail (s : List Byte)
  | wrLen (n : Nat)
  | wrHex (t : List Byte)
  | rdState
  | rdHex
  | rdPad
  /-- `MemRead(addr, n)` -/
  | memRead (addr : Addr) (n : Nat)
  /-- `MemWrite(addr, n, v)` -/
  | memWrite (addr : Addr) (n v : Nat)
deriving DecidableEq, Repr

/-- One turn of an execution: "a single interleaving of host transactions, command completions and reset" (R60). -/
inductive Turn where
  | host
  | core
  | reset
deriving DecidableEq, Repr

end Sys2Proof
end

