-- ==== Sys2Proof/WellFormed.lean ====
section
/-! DEFINITION. Which syntax is well formed. A command has no operand, so every command is; the conditions are those
of the host program's pseudo-operations (30_encoding.md R86) and of the pseudocode's primitives (00_scope.md R11). -/

namespace Sys2Proof

/-- "No command has an operand field or an immediate" (R82), so there is nothing a command could have wrong. -/
def Instr.wf : Instr → Bool
  | .nop => true
  | .init => true
  | .ldhex => true
  | .compress => true
  | .pad => true
  | .final => true

/-- The conditions R86 puts on the pseudo-operations' arguments; R11's primitives name consecutive addresses inside the
window (R51, log 17), and R11 puts no bound on the `v` of MemWrite, whose bits `v[8k+7:8k]` are written. DESIGN CHOICE
(log 17): WRHEX takes any bytes. R86 calls `t` an ASCII string and gives a line with a byte above 0x7F no meaning; its
expansion copies the bytes all the same. -/
def HostStmt.wf : HostStmt → Bool
  | .wr _ _ => true
  | .rd _ => true
  | .cmd i => i.wf
  | .wait => true
  | .waitOk => true
  | .wrBlk s => s.length == 64
  | .wrTail s => decide (s.length ≤ 63)
  | .wrLen n => decide (n < 2 ^ 64)
  | .wrHex t => decide (t.length ≤ 255)
  | .rdState => true
  | .rdHex => true
  | .rdPad => true
  | .memRead addr n => decide (addr.toNat + n ≤ 512)
  | .memWrite addr n _ => decide (addr.toNat + n ≤ 512)

/-- A program is well formed when each of its lines is. -/
def hostProgramWf (p : List HostStmt) : Bool := p.all HostStmt.wf

end Sys2Proof
end

