-- ==== Sys2Proof/Decode.lean ====
section
/-! DEFINITION. The command decoder and, after it, the encoder (30_encoding.md R80, R81, R83; the rows are those of
spec/opcode_table.json). Total on any bytes; what is no command is rejected by name. -/

namespace Sys2Proof

/-- Why bytes are no command. -/
inductive DecodeReject where
  /-- an opcode 0x06 to 0xFF (R83); the core completes it with IllegalCommand, so this is no refusal of a step -/
  | illegalOpcode (op : Byte)
  /-- no byte at all: a command is exactly one byte (R80) -/
  | noByte
deriving DecidableEq, Repr

/-- A row of the opcode table. -/
structure OpcodeRow where
  instr : Instr
  mask : Byte
  pattern : Byte
deriving DecidableEq, Repr

/-- The opcode table (R81): the whole byte is the opcode (R80, R104). -/
def opcodeTable : List OpcodeRow :=
  [⟨.nop, 0xFF, 0x00⟩,
   ⟨.init, 0xFF, 0x01⟩,
   ⟨.ldhex, 0xFF, 0x02⟩,
   ⟨.compress, 0xFF, 0x03⟩,
   ⟨.pad, 0xFF, 0x04⟩,
   ⟨.final, 0xFF, 0x05⟩]

/-- A byte matches a row when its bits under the mask are the pattern. -/
def OpcodeRow.fits (r : OpcodeRow) (op : Byte) : Bool := op &&& r.mask == r.pattern

/-- The command a byte is, or that it is an illegal opcode (R83, R104). -/
def decodeByte (op : Byte) : Except DecodeReject Instr :=
  match opcodeTable.find? (fun r => r.fits op) with
  | some r => .ok r.instr
  | none => .error (.illegalOpcode op)

/-- Decode the first command of a byte sequence and give the rest: "a decoder reads exactly the one byte" (R80). -/
def decode : List Byte → Except DecodeReject (Instr × List Byte)
  | [] => .error .noByte
  | op :: rest => (decodeByte op).map (fun i => (i, rest))

/-- The command byte of the number `w` of `nbits` bits: bit 0 is the least significant bit of the byte, and bits above
`nbits` are 0. -/
def commandByte (nbits w : Nat) : Byte := BitVec.ofNat 8 (w % 2 ^ nbits)

/-- The command the decoder reads from the number `w` of `nbits` bits, laid out as its one byte. -/
def decodeTableWord (nbits w : Nat) : Option Instr :=
  match decode [commandByte nbits w] with
  | .ok (i, _) => some i
  | .error _ => none

/-- The opcode of a command (R81). -/
def encodeByte : Instr → Byte
  | .nop => 0x00
  | .init => 0x01
  | .ldhex => 0x02
  | .compress => 0x03
  | .pad => 0x04
  | .final => 0x05

/-- The words of a command: its one byte (R80). -/
def encode (i : Instr) : List Byte := [encodeByte i]

end Sys2Proof
end

