-- ==== Sys2Proof/Machine/State.lean ====
section
/-! DEFINITION. Everything the spec gives the machine (10_state.md), the host agent's own state (R15, R85, R86), and the
data that says which agent moves next (R60). Plain data throughout. -/

namespace Sys2Proof.Machine

/-- The byte buffers of the window, HEXIN, BLK and PADBUF (R24, R27, R29), as cells at their bus addresses (R52):
addresses strictly rising, no cell equal to what an unlisted address reads as. -/
abbrev Memory := List Host.Cell

/-- What an unlisted buffer byte reads as: the reset content "every byte `0x00`" (R24, R27, R29). -/
def unlistedByte : Byte := 0x00

/-- STATUS's fields (R31). Bit 3 is reserved and reads 0, so it is no field; `Status.toByte` is the register. -/
structure Status where
  busy : Bool
  done : Bool
  bv : Bool
  err : Code
deriving DecidableEq, Repr

/-- The phases of the reference sequencer (R108). -/
inductive Phase where
  | idle
  | decode
  | check
  | load
  | round
  | ffwd
  | padgen
  | done
deriving DecidableEq, Repr

/-- The hidden working state of a running command (R38): the words `a b c d`, the 6-bit step counter, the block index
(0 or 1) and the decoded message words. No host access reads any of it. -/
structure Work where
  v : Quad
  i : BitVec 6
  j : BitVec 1
  w : Words
deriving DecidableEq, Repr

/-- The host agent (R15): what it still has to do, the bytes its named reads returned (R85), the last STATUS byte a
WAIT read, and the code a WAITOK stopped with (R86). Log 2, log 14. -/
structure HostAgent where
  prog : List HostOp
  got : List Byte
  polled : Byte
  stopped : Option Code
deriving DecidableEq, Repr

/-- The whole state. `h` is the chaining state (R20), `pend` the pending command byte or none (R38), `phase` and `work`
the rest of the hidden state (R38); `sched` says who moves next (R60, log 1) and `draws` counts the free bytes read
while BUSY (R59, log 3). -/
structure State where
  h : Quad
  tailLen : Byte
  hexLen : Byte
  padBlks : Byte
  length : Length
  mem : Memory
  status : Status
  pend : Option Byte
  phase : Phase
  work : Work
  host : HostAgent
  sched : List Turn
  draws : Nat
deriving DecidableEq, Repr

/-- Why a host procedure stops. No step raises one: "The core has no trap mechanism" (60_exceptions.md R250, log 18). -/
inductive Fault where
  /-- Raised by `runProgram` when a WAITOK of the program read the error `code` (R86), and by `procExtend` when its check after
  LDHEX did (R231); safe, it is the stop the spec describes. -/
  | programStopped (code : Code)
deriving DecidableEq, Repr

/-- What the model makes no claim about. -/
inductive Refusal where
  /-- Raised by exec for a command without a meaning; safe. There is none. -/
  | notModelled (mnemonic : String)
  /-- Raised by the host procedures for a message longer than MAX_MSG_BYTES, or a payload whose bit length has no 64-bit
  value: "a longer message is refused (the procedure does not run)" (R221, D18; log 11); safe. -/
  | messageTooLong
  /-- Raised by the host procedures for a program with an ill-formed line (R86's conditions, log 17); safe. -/
  | illFormedProgram
deriving DecidableEq, Repr

/-- The machine right after reset (70_reset_and_hazards.md R281): `H = IV` (R22), every buffer and register 0, STATUS 0,
nothing pending, phase IDLE. The hidden working words are unspecified there; the zeros are the model's (log 4), as are
the empty host agent and schedule (log 1, log 14) and the draw counter (log 3). -/
def State.reset : State where
  h := ⟨0x67452301, 0xefcdab89, 0x98badcfe, 0x10325476⟩
  tailLen := 0x00
  hexLen := 0x00
  padBlks := 0x00
  length := 0
  mem := []
  status := ⟨false, false, false, 0⟩
  pend := none
  phase := .idle
  work := ⟨⟨0, 0, 0, 0⟩, 0, 0, Vector.replicate 16 0⟩
  host := ⟨[], [], 0x00, none⟩
  sched := []
  draws := 0

end Sys2Proof.Machine
end

