-- ==== Sys2Proof/Machine/Flags.lean ====
section
/-! DEFINITION. STATUS: its one-byte view and every way it changes (10_state.md R31 to R35, R39; 40_control.md R100,
R102). No arithmetic result sets a flag (R39, R188). -/

namespace Sys2Proof.Machine

/-- The STATUS byte: ERR in bits 7:4, bit 3 zero, BV, DONE, BUSY (R31). -/
def Status.toByte (s : Status) : Byte :=
  s.err ++ 0#1 ++ BitVec.ofBool s.bv ++ BitVec.ofBool s.done ++ BitVec.ofBool s.busy

/-- An accepted CMD write: BUSY set, DONE and ERR cleared (R100). -/
def Status.issue (s : Status) : Status := { s with busy := true, done := false, err := 0 }

/-- A completion with outcome `code`: ERR written, DONE set, BUSY cleared (R102). -/
def Status.complete (s : Status) (code : Code) : Status := { s with busy := false, done := true, err := code }

/-- A host write, other than to STATUS, made while BUSY is 1 (R34, R58). -/
def Status.violate (s : Status) : Status := { s with bv := true }

/-- A host write of `v` to STATUS "clears BV when `v[2] = 1` and changes nothing else" (R31). -/
def Status.hostWrite (s : Status) (v : Byte) : Status := { s with bv := s.bv && !v.getLsbD 2 }

/-- ERR's codes (R35, R251). -/
def codeOk : Code := 0
/-- LDHEX's error (R251). -/
def codeInvalidDigestFormat : Code := 1
/-- The error of PAD and FINAL (R251). -/
def codeInvalidBlockSize : Code := 2
/-- The error of an opcode 0x06 to 0xFF (R251). -/
def codeIllegalCommand : Code := 3

end Sys2Proof.Machine
end

