-- ==== Sys2Proof/Machine/Operands.lean ====
section
/-! DEFINITION. Every operand form: bytes of words, the little-endian and hexadecimal codecs (00_scope.md R12, R13), the
digest forms of the chaining state (41_codec.md R120 to R126) and the word view of a block (R127). -/

namespace Sys2Proof.Machine

/-- Byte `k` of a little-endian value: bits `8k+7 : 8k` (R12, R26, R120). -/
def byteAt {n : Nat} (x : BitVec n) (k : Nat) : Byte := x.extractLsb' (8 * k) 8

/-- Byte `k` replaced: `(x & ~(0xFF << 8k)) | (zext(v) << 8k)` (R122; the same for LENGTH, R26, R52). -/
def setByteAt {n : Nat} (x : BitVec n) (k : Nat) (v : Byte) : BitVec n :=
  (x &&& ~~~((0xFF : Byte).setWidth n <<< (8 * k))) ||| (v.setWidth n <<< (8 * k))

/-- `LE32` (R12). -/
def le32 (b0 b1 b2 b3 : Byte) : Word :=
  b0.setWidth 32 ||| (b1.setWidth 32 <<< 8) ||| (b2.setWidth 32 <<< 16) ||| (b3.setWidth 32 <<< 24)

/-- `bytes32`, least significant byte first (R12). -/
def bytes32 (w : Word) : List Byte := [byteAt w 0, byteAt w 1, byteAt w 2, byteAt w 3]

/-- `LE64`: "an unsigned 64-bit little-endian integer" (R12, R128). -/
def le64 (n : Length) : List Byte := (List.range 8).map (byteAt n)

/-- `hexchar`: the ASCII character of a nibble, lowercase (R13). -/
def hexChar (v : BitVec 4) : Byte :=
  if v ≤ 9 then 0x30 + v.setWidth 8 else 0x61 + (v.setWidth 8 - 10)

/-- `ishex`: an ASCII hexadecimal digit of either case (R13, D14). -/
def isHex (c : Byte) : Bool :=
  decide (0x30 ≤ c ∧ c ≤ 0x39) || decide (0x41 ≤ c ∧ c ≤ 0x46) || decide (0x61 ≤ c ∧ c ≤ 0x66)

/-- `hexval` (R13); of a byte that is no hex digit nothing is ever asked. -/
def hexVal (c : Byte) : Byte :=
  if c ≤ 0x39 then c - 0x30 else if c ≤ 0x46 then c - 0x41 + 10 else c - 0x61 + 10

/-- A byte as two characters, "high nibble first" (R13). -/
def hexOfByte (b : Byte) : List Byte := [hexChar (b.extractLsb' 4 4), hexChar (b.extractLsb' 0 4)]

/-- A byte sequence as lowercase hex (R13, R235). -/
def hexOfBytes (s : List Byte) : List Byte := s.flatMap hexOfByte

/-- Word `w` of a quadruple: 0 = A, 1 = B, 2 = C, 3 = D (R11). -/
def quadGet (q : Quad) : Nat → Word
  | 0 => q.a
  | 1 => q.b
  | 2 => q.c
  | _ => q.d

/-- Word `w` replaced (R11). -/
def quadSet (q : Quad) (w : Nat) (x : Word) : Quad :=
  match w with
  | 0 => { q with a := x }
  | 1 => { q with b := x }
  | 2 => { q with c := x }
  | _ => { q with d := x }

/-- Wordwise addition modulo 2^32: the feed-forward's sum (R186, R188). -/
def quadAdd (p q : Quad) : Quad := ⟨p.a + q.a, p.b + q.b, p.c + q.c, p.d + q.d⟩

/-- `dbytes(H)`, the 16 digest bytes (R120). -/
def digestBytes (h : Quad) : List Byte := bytes32 h.a ++ bytes32 h.b ++ bytes32 h.c ++ bytes32 h.d

/-- Digest byte `j`: `H[j div 4][8(j mod 4)+7 : 8(j mod 4)]` (R120). -/
def digestByte (h : Quad) (j : Nat) : Byte := byteAt (quadGet h (j / 4)) (j % 4)

/-- Digest byte `j` set to `v`, the others unchanged (R122). -/
def setDigestByte (h : Quad) (j : Nat) (v : Byte) : Quad :=
  quadSet h (j / 4) (setByteAt (quadGet h (j / 4)) (j % 4) v)

/-- HEXOUT character `k`: the high nibble of digest byte `k div 2` when `k` is even, else the low nibble (R123). -/
def hexOutChar (h : Quad) (k : Nat) : Byte :=
  if k % 2 = 0 then hexChar ((digestByte h (k / 2)).extractLsb' 4 4)
  else hexChar ((digestByte h (k / 2)).extractLsb' 0 4)

/-- The 32 characters of HEXOUT (R123). -/
def hexOut (h : Quad) : List Byte := (List.range 32).map (hexOutChar h)

/-- The state whose digest bytes are `e 0 .. e 15`: `H'[w] = LE32(e[4w], e[4w+1], e[4w+2], e[4w+3])` (R125). -/
def quadOfBytes (e : Nat → Byte) : Quad :=
  ⟨le32 (e 0) (e 1) (e 2) (e 3), le32 (e 4) (e 5) (e 6) (e 7),
   le32 (e 8) (e 9) (e 10) (e 11), le32 (e 12) (e 13) (e 14) (e 15)⟩

/-- Byte `j` of a hex string: `(hexval(c[2j]) << 4) | hexval(c[2j+1])`, 8 bits (R125). -/
def byteOfHex (c : Nat → Byte) (j : Nat) : Byte := (hexVal (c (2 * j)) <<< 4) ||| hexVal (c (2 * j + 1))

/-- All of the 32 characters are hex digits (R125). -/
def allHex (c : Nat → Byte) : Bool := (List.range 32).all (fun t => isHex (c t))

/-- `stateFromDigest`: the state of a digest string of `len` characters, or none where it is not "exactly 32 hexadecimal
characters" (R125). -/
def stateFromDigest (len : Nat) (c : Nat → Byte) : Option Quad :=
  if len = 32 ∧ allHex c = true then some (quadOfBytes (byteOfHex c)) else none

/-- The sixteen little-endian words of a 64-byte block (R66, R127). -/
def blockWords (x : Nat → Byte) : Words :=
  Vector.ofFn (fun k => le32 (x (4 * k)) (x (4 * k + 1)) (x (4 * k + 2)) (x (4 * k + 3)))

end Sys2Proof.Machine
end

