-- ==== Sys2Proof/Machine/Ops.lean ====
section
/-! DEFINITION. The named operations over the buffers and registers: reading and writing a buffer byte, issue (R100),
completion (R102), and raising an error (R253). -/

namespace Sys2Proof.Machine

/-- The buffer byte at bus address `a`. -/
def Memory.read : Memory → Nat → Byte
  | [], _ => unlistedByte
  | (b, w) :: m, a => if a = b then w else Memory.read m a

/-- The cell for `v` at `a`, or no cell where an unlisted byte reads the same. -/
def Memory.cell (a : Nat) (v : Byte) (m : Memory) : Memory := if v = unlistedByte then m else (a, v) :: m

/-- The buffer byte at bus address `a` set to `v`, in canonical form. -/
def Memory.write : Memory → Nat → Byte → Memory
  | [], a, v => Memory.cell a v []
  | (b, w) :: m, a, v =>
    if a < b then Memory.cell a v ((b, w) :: m)
    else if a = b then Memory.cell a v m
    else (b, w) :: Memory.write m a v

/-- The bytes of `s` at consecutive addresses from `a` on. Irreducible for the elaborator alone, as `rounds` is; see
`Memory.writeRun_nil` and `Memory.writeRun_cons`. -/
@[irreducible] def Memory.writeRun (m : Memory) (a : Nat) : List Byte → Memory
  | [] => m
  | v :: s => Memory.writeRun (Memory.write m a v) (a + 1) s

/-- Addresses strictly rise from above `low`, and no cell holds what an unlisted address reads as. -/
def Memory.wfAbove (low : Nat) : Memory → Bool
  | [] => true
  | (b, w) :: m => decide (low ≤ b) && decide (w ≠ unlistedByte) && Memory.wfAbove (b + 1) m

/-- The canonical form: equal memories are equal lists. -/
def Memory.wf (m : Memory) : Bool := Memory.wfAbove 0 m

/-- Where HEXIN lies in the window (R52). -/
def hexInBase : Nat := 0x040
/-- Where BLK lies in the window (R52). -/
def blkBase : Nat := 0x080
/-- Where PADBUF lies in the window (R52). -/
def padBufBase : Nat := 0x100

/-- `HEXIN[k]` (R27). -/
def State.hexIn (s : State) (k : Nat) : Byte := s.mem.read (hexInBase + k)
/-- `BLK[k]` (R24). -/
def State.blk (s : State) (k : Nat) : Byte := s.mem.read (blkBase + k)
/-- `PADBUF[k]` (R29). -/
def State.padBuf (s : State) (k : Nat) : Byte := s.mem.read (padBufBase + k)

/-- The chaining state replaced (R20, R21). -/
def State.withH (s : State) (g : Quad) : State := { s with h := g }

/-- The hidden working state replaced (R38). -/
def State.withWork (s : State) (k : Work) : State := { s with work := k }

/-- An accepted CMD write of `op` (R100): it becomes the pending command and STATUS is updated. The sequencer leaves IDLE
for DECODE (R108, log 6). -/
def State.issue (s : State) (op : Byte) : State :=
  { s with pend := some op, status := s.status.issue, phase := .decode }

/-- A command's completion with outcome `code` (R102): STATUS is updated, nothing is pending, the sequencer is IDLE. -/
def State.complete (s : State) (code : Code) : State :=
  { s with pend := none, status := s.status.complete code, phase := .idle }

/-- `raise E(code)` (R253): the one way a command fails. "It writes its error code to `STATUS.ERR`, sets `STATUS.DONE`,
clears `STATUS.BUSY`, and makes no other change" (R250); there is no trap entry, saved state, vector, handler or return
(R256). -/
def State.raiseError (s : State) (code : Code) : Host.Outcome State Fault Refusal := .next (s.complete code)

/-- A command's normal end: its writes are in `s`, its code is 0 (R102). -/
def State.finish (s : State) : Host.Outcome State Fault Refusal := .next (s.complete codeOk)

/-- PADBLKS and PADBUF as the padding generator leaves them (R156, R158). -/
def State.withPad (s : State) (q : Nat) (p : List Byte) : State :=
  { s with padBlks := BitVec.ofNat 8 q, mem := s.mem.writeRun padBufBase p }

end Sys2Proof.Machine
end

