-- ==== Sys2Proof/Machine/Codec.lean ====
section
/-! DEFINITION. LDHEX (41_codec.md R125). -/

namespace Sys2Proof.Machine

/-- What LDHEX decodes from HEXLEN and HEXIN, or none where it raises (R125). -/
def State.hexDigest (s : State) : Option Quad := stateFromDigest s.hexLen.toNat s.hexIn

/-- LDHEX: `H` takes the decoded digest; `InvalidDigestFormat(1)` unless HEXLEN is 32 and all 32 characters are hex digits
(R125). -/
def execLdhex (s : State) : Host.Outcome State Fault Refusal :=
  match s.hexDigest with
  | some q => (s.withH q).finish
  | none => s.raiseError codeInvalidDigestFormat

end Sys2Proof.Machine
end

