-- ==== Sys2Proof/Machine/Compression.lean ====
section
/-! DEFINITION. The 64-step compression datapath and COMPRESS (43_compression.md). -/

namespace Sys2Proof.Machine

/-- Row `g = 0` of the additive constants (R180). -/
def additive0 : List Word :=
  [0xd76aa478, 0xe8c7b756, 0x242070db, 0xc1bdceee, 0xf57c0faf, 0x4787c62a, 0xa8304613, 0xfd469501,
   0x698098d8, 0x8b44f7af, 0xffff5bb1, 0x895cd7be, 0x6b901122, 0xfd987193, 0xa679438e, 0x49b40821]
/-- Row `g = 1` (R180). -/
def additive1 : List Word :=
  [0xf61e2562, 0xc040b340, 0x265e5a51, 0xe9b6c7aa, 0xd62f105d, 0x02441453, 0xd8a1e681, 0xe7d3fbc8,
   0x21e1cde6, 0xc33707d6, 0xf4d50d87, 0x455a14ed, 0xa9e3e905, 0xfcefa3f8, 0x676f02d9, 0x8d2a4c8a]
/-- Row `g = 2` (R180). -/
def additive2 : List Word :=
  [0xfffa3942, 0x8771f681, 0x6d9d6122, 0xfde5380c, 0xa4beea44, 0x4bdecfa9, 0xf6bb4b60, 0xbebfbc70,
   0x289b7ec6, 0xeaa127fa, 0xd4ef3085, 0x04881d05, 0xd9d4d039, 0xe6db99e5, 0x1fa27cf8, 0xc4ac5665]
/-- Row `g = 3` (R180). -/
def additive3 : List Word :=
  [0xf4292244, 0x432aff97, 0xab9423a7, 0xfc93a039, 0x655b59c3, 0x8f0ccc92, 0xffeff47d, 0x85845dd1,
   0x6fa87e4f, 0xfe2ce6e0, 0xa3014314, 0x4e0811a1, 0xf7537e82, 0xbd3af235, 0x2ad7d2bb, 0xeb86d391]

/-- The additive constants `K[0..63]` in step order (R180; from general knowledge in the spec, log 13). -/
def additiveTable : List Word := additive0 ++ additive1 ++ additive2 ++ additive3

/-- `K[i]` (R180). -/
def additive (i : Nat) : Word := additiveTable.getD i 0

/-- The four rotation amounts of each group (R181; log 13). -/
def rotRow : Nat → List Nat
  | 0 => [7, 12, 17, 22]
  | 1 => [5, 9, 14, 20]
  | 2 => [4, 11, 16, 23]
  | _ => [6, 10, 15, 21]

/-- `S[i] = R[i div 16][i mod 4]` (R181). -/
def rotAmount (i : Nat) : Nat := (rotRow (i / 16)).getD (i % 4) 0

/-- The mixing function of group `g` (R182). -/
def mix (g : Nat) (b c d : Word) : Word :=
  match g with
  | 0 => (b &&& c) ||| (~~~b &&& d)
  | 1 => (d &&& b) ||| (~~~d &&& c)
  | 2 => b ^^^ c ^^^ d
  | _ => c ^^^ (b ||| ~~~d)

/-- The message-word index `k(i)` of step `i` (R183). -/
def msgIndex (i : Nat) : Fin 16 :=
  match i / 16 with
  | 0 => Fin.ofNat 16 i
  | 1 => Fin.ofNat 16 (5 * i + 1)
  | 2 => Fin.ofNat 16 (3 * i + 5)
  | _ => Fin.ofNat 16 (7 * i)

/-- `rotl32` (R11, R184). -/
def rotl32 (x : Word) (n : Nat) : Word := (x <<< n) ||| (x >>> (32 - n))

/-- The sum `tmp` of step `i` (R185). -/
def stepSum (i : Nat) (v : Quad) (w : Words) : Word :=
  mix (i / 16) v.b v.c v.d + v.a + additive i + w.get (msgIndex i)

/-- Step `i`: `(a, b, c, d) <- (d, b + rotl32(tmp, S[i]), b, c)`, all from the words before the step (R185; C1). -/
def roundStep (i : Nat) (v : Quad) (w : Words) : Quad :=
  ⟨v.d, v.b + rotl32 (stepSum i v w) (rotAmount i), v.b, v.c⟩

/-- The first `n` steps on the working words. Irreducible for the elaborator alone: no proof should unroll 64 steps by
accident; `rounds_zero` and `rounds_succ` say what it is. -/
@[irreducible] def rounds (w : Words) (v : Quad) : Nat → Quad
  | 0 => v
  | n + 1 => roundStep n (rounds w v n) w

/-- `Compress(H, X)`: the 64 steps from `H` on the words of `X`, then the feed-forward (R186). -/
def compress (h : Quad) (x : Nat → Byte) : Quad := quadAdd h (rounds (blockWords x) h 64)

/-- What a compression leaves in the hidden working state: the words after step 63, the step counter counted round its 6
bits to 0, and the message words (R38, R108; log 5, log 7). -/
def Work.afterBlock (k : Work) (h : Quad) (x : Nat → Byte) : Work :=
  { k with v := rounds (blockWords x) h 64, i := 0, w := blockWords x }

/-- COMPRESS: `H <- Compress(H, BLK)`, code 0, never an error (R187). -/
def execCompress (s : State) : Host.Outcome State Fault Refusal :=
  ((s.withH (compress s.h s.blk)).withWork (s.work.afterBlock s.h s.blk)).finish

end Sys2Proof.Machine
end

