-- ==== Sys2Proof/Machine/Control.lean ====
section
/-! DEFINITION. The commands that touch nothing but the chaining state: NOP (R105) and INIT (R106). -/

namespace Sys2Proof.Machine

/-- `initialState()`: "the standard MD5 initialization vector" (R22, R106). -/
def initialState : Quad := ⟨0x67452301, 0xefcdab89, 0x98badcfe, 0x10325476⟩

/-- NOP: no writes, code 0 (R105). -/
def execNop (s : State) : Host.Outcome State Fault Refusal := s.finish

/-- INIT: `H` takes the initial value, code 0 (R106). -/
def execInit (s : State) : Host.Outcome State Fault Refusal := (s.withH initialState).finish

end Sys2Proof.Machine
end

