-- ==== Sys2Proof/Machine/Padding.lean ====
section
/-! DEFINITION. The padding functions (42_padding.md R150, R151), the padding generator (R157, R158), PAD (R156) and
FINAL (R159). -/

namespace Sys2Proof.Machine

/-- The exemption: a non-zero bit length that is a multiple of 512 gets no padding (R150, R153). -/
def exempt (n : Length) : Bool := decide (0 < n.toNat ∧ n.toNat % 512 = 0)

/-- `(55 - q) mod 64`, the minimum zero fill after a tail of `q < 64` bytes (R150). -/
def zeroFill (q : Nat) : Nat := (119 - q) % 64

/-- What is appended to a tail of `q` bytes past the last boundary when `n` is not exempt (R150, R158). -/
def paddingBytes (q : Nat) (n : Length) : List Byte :=
  [(0x80 : Byte)] ++ List.replicate (zeroFill q) 0x00 ++ le64 n

/-- `forgePadding(x, n)` (R150). -/
def forgePadding (x : List Byte) (n : Length) : List Byte :=
  if exempt n then x else x ++ paddingBytes (n.toNat / 8 % 64) n

/-- `pad(m) = forgePadding(m, 8 * len(m))` (R151). DESIGN CHOICE (log 11): the bit length is taken modulo 2^64; the spec gives
no wrap rule for a message of 2^61 bytes or more (D18), and the procedures refuse it (R221). -/
def pad (m : List Byte) : List Byte := forgePadding m (BitVec.ofNat 64 (8 * m.length))

/-- None of PadGen's three checks holds: `TAILLEN <= 63`, `LENGTH mod 8 = 0`, `(LENGTH div 8) mod 64 = TAILLEN` (R157). -/
def State.padChecksPass (s : State) : Bool :=
  decide (s.tailLen.toNat ≤ 63 ∧ s.length.toNat % 8 = 0 ∧ s.length.toNat / 8 % 64 = s.tailLen.toNat)

/-- `BLK[0 .. TAILLEN)` (R24, R156). -/
def State.tail (s : State) : List Byte := (List.range s.tailLen.toNat).map s.blk

/-- The padded tail `T` (R158). -/
def State.paddedTail (s : State) : List Byte :=
  if exempt s.length then [] else s.tail ++ paddingBytes s.tailLen.toNat s.length

/-- The 128 bytes `P`: `T`, then zeros (R158). -/
def padImage (t : List Byte) : List Byte := t ++ List.replicate (128 - t.length) 0x00

/-- PADBLKS and PADBUF as PadGen's `(q, P)`, `q = len(T) div 64` (R158). -/
def State.padGen (s : State) : State := s.withPad (s.paddedTail.length / 64) (padImage s.paddedTail)

/-- PAD: PADGEN's writes and `j <- 0` (R108); `InvalidBlockSize(2)` when a check holds (R156, R157). -/
def execPad (s : State) : Host.Outcome State Fault Refusal :=
  if s.padChecksPass then (s.padGen.withWork { s.work with j := 0 }).finish
  else s.raiseError codeInvalidBlockSize

/-- Block `j` of PADBUF (R66). -/
def State.padBlock (s : State) (j : Nat) (k : Nat) : Byte := s.padBuf (64 * j + k)

/-- `PADBUF` block `j` compressed into `H` (R159), the working state as R108 leaves it. -/
def State.compressPadBlock (s : State) (j : Nat) : State :=
  (s.withH (compress s.h (s.padBlock j))).withWork
    { s.work.afterBlock s.h (s.padBlock j) with j := BitVec.ofNat 1 j }

/-- The first `q` blocks of PADBUF compressed in order (R159). -/
def State.compressPadBlocks (s : State) : Nat → State
  | 0 => s
  | q + 1 => (s.compressPadBlocks q).compressPadBlock q

/-- FINAL: PadGen, then every block of it compressed into `H`; `InvalidBlockSize(2)` when a check holds, and then nothing
is written (R159). -/
def execFinal (s : State) : Host.Outcome State Fault Refusal :=
  if s.padChecksPass then
    ((s.padGen.withWork { s.work with j := 0 }).compressPadBlocks (s.paddedTail.length / 64)).finish
  else s.raiseError codeInvalidBlockSize

end Sys2Proof.Machine
end

