-- ==== Sys2Proof/Machine/Dispatch.lean ====
section
/-! DEFINITION. `Execute(op)` with its completion, one arm per command (40_control.md R102, R104). -/

namespace Sys2Proof.Machine

def exec (i : Instr) (s : State) : Host.Outcome State Fault Refusal :=
  match i with
  | .nop => Sys2Proof.Machine.execNop s
  | .init => Sys2Proof.Machine.execInit s
  | .ldhex => Sys2Proof.Machine.execLdhex s
  | .compress => Sys2Proof.Machine.execCompress s
  | .pad => Sys2Proof.Machine.execPad s
  | .final => Sys2Proof.Machine.execFinal s

end Sys2Proof.Machine
end

