-- ==== Sys2Proof/Config.lean ====
section
/-! DEFINITION. What the spec leaves open: the byte of a read while BUSY (R59), which nothing here gives a value,
and the parameter of the host procedures (R9, R221). -/

namespace Sys2Proof.Config

/-- The byte the `n`-th read of an address other than STATUS made while BUSY is 1 returns: "an unspecified byte,
which a model takes as a free draw (any of the 256 values, independently per read)" (20_memory.md R59, log 3). It
has no body, so no proof can see a value of it. -/
opaque busyRead : Nat → Byte

/-- The open parameter of the host procedures (00_scope.md R9); the procedures take it as an argument (log 11). The
other open parameters, LAT_*, are times, and the model has no time (70_reset_and_hazards.md R295, log 10). -/
structure Params where
  /-- the longest message, in bytes, that the procedures accept (44_procedures.md R221) -/
  maxMsgBytes : Nat
deriving DecidableEq, Repr

/-- `MAX_MSG_BYTES < 2^61`, "so that `8L` fits the 64-bit length field exactly" (R221). -/
abbrev Params.wf (p : Params) : Prop := p.maxMsgBytes < 2 ^ 61

end Sys2Proof.Config
end

