-- ==== Sys2Proof/Machine/Bus.lean ====
section
/-! DEFINITION. The address map (20_memory.md R52), host reads and writes (R53 to R59, R100, R121 to R123), and reset
(70_reset_and_hazards.md R280 to R282). -/

namespace Sys2Proof.Machine

/-- What lies at a bus address, with the offset inside a multi-byte entry (R52). -/
inductive Region where
  | cmd
  | status
  | tailLen
  | hexLen
  | padBlks
  | length (k : Nat)
  | state (j : Nat)
  | hexOut (k : Nat)
  | hexIn (k : Nat)
  | blk (k : Nat)
  | padBuf (k : Nat)
  | reserved
deriving DecidableEq, Repr

/-- The address map (R52). -/
def regionAt (n : Nat) : Region :=
  if n = 0x000 then .cmd
  else if n = 0x001 then .status
  else if n = 0x002 then .tailLen
  else if n = 0x003 then .hexLen
  else if n = 0x004 then .padBlks
  else if n < 0x008 then .reserved
  else if n < 0x010 then .length (n - 0x008)
  else if n < 0x020 then .state (n - 0x010)
  else if n < 0x040 then .hexOut (n - 0x020)
  else if n < 0x060 then .hexIn (n - 0x040)
  else if n < 0x080 then .reserved
  else if n < 0x0C0 then .blk (n - 0x080)
  else if n < 0x100 then .reserved
  else if n < 0x180 then .padBuf (n - 0x100)
  else .reserved

/-- The region of a bus address. -/
def regionOf (a : Addr) : Region := regionAt a.toNat

/-- The byte an idle core returns for a region (R52): CMD and reserved addresses read `0x00` (R36, R53, R54), STATE and
HEXOUT are views of `H` (R37, R121, R123). -/
def State.regionByte (s : State) : Region → Byte
  | .cmd => 0x00
  | .status => s.status.toByte
  | .tailLen => s.tailLen
  | .hexLen => s.hexLen
  | .padBlks => s.padBlks
  | .length k => byteAt s.length k
  | .state j => digestByte s.h j
  | .hexOut k => hexOutChar s.h k
  | .hexIn k => s.hexIn k
  | .blk k => s.blk k
  | .padBuf k => s.padBuf k
  | .reserved => 0x00

/-- The byte at an address of an idle core. -/
def State.windowByte (s : State) (a : Addr) : Byte := s.regionByte (regionOf a)

/-- A read while BUSY of an address other than STATUS returns a free byte (R59); every other read returns what the window
holds. -/
def State.readsFree (s : State) (a : Addr) : Bool := s.status.busy && decide (regionOf a ≠ .status)

/-- The byte `Read(a)` returns (R52, R59). -/
def State.readByte (s : State) (a : Addr) : Byte :=
  if s.readsFree a then Config.busyRead s.draws else s.windowByte a

/-- What `Read(a)` leaves: "no read has a side effect" (R57). Only the model's own draw counter moves, with a free read
(log 3). -/
def State.afterRead (s : State) (a : Addr) : State :=
  if s.readsFree a then { s with draws := s.draws + 1 } else s

/-- What a write of `v` does to a region of an idle core: CMD issues it (R100), STATUS may clear BV (R31), a read-only or
reserved location ignores it (R53, R54), and a writable register or buffer takes it (R24 to R28, R122). -/
def State.writeRegion (s : State) (r : Region) (v : Byte) : State :=
  match r with
  | .cmd => s.issue v
  | .status => { s with status := s.status.hostWrite v }
  | .tailLen => { s with tailLen := v }
  | .hexLen => { s with hexLen := v }
  | .padBlks => s
  | .length k => { s with length := setByteAt s.length k v }
  | .state j => s.withH (setDigestByte s.h j v)
  | .hexOut _ => s
  | .hexIn k => { s with mem := s.mem.write (hexInBase + k) v }
  | .blk k => { s with mem := s.mem.write (blkBase + k) v }
  | .padBuf _ => s
  | .reserved => s

/-- `Write(a, v)`: while BUSY is 1 a write to any address but STATUS "is dropped: it changes no register and issues no
command, and it sets `STATUS.BV <- 1`" (R58). -/
def State.busWrite (s : State) (a : Addr) (v : Byte) : State :=
  if s.status.busy && decide (regionOf a ≠ .status) then { s with status := s.status.violate }
  else s.writeRegion (regionOf a) v

/-- Reset: every register of the core takes its reset value and what was running is abandoned (R280, R281, R282). The
host, the schedule and the draw counter are outside the core (log 9). -/
def State.hardReset (s : State) : State :=
  { State.reset with host := s.host, sched := s.sched, draws := s.draws }

/-- The bus addresses of the map's entries (R52), as a host program names them (R85). -/
def addrCmd : Addr := 0x000
def addrStatus : Addr := 0x001
def addrTailLen : Addr := 0x002
def addrHexLen : Addr := 0x003
def addrPadBlks : Addr := 0x004
/-- `NAME+k` for the multi-byte entries: the address `base + k` (R85). DESIGN CHOICE (log 22): an address has 9 bits, so a
`base + k` past 0x1FF, which the spec does not give, wraps modulo 512. -/
def addrAt (base k : Nat) : Addr := BitVec.ofNat 9 (base + k)
def lengthBase : Nat := 0x008
def stateBase : Nat := 0x010
def hexOutBase : Nat := 0x020

end Sys2Proof.Machine
end

