-- ==== Sys2Proof/Machine/Host.lean ====
section
/-! DEFINITION. The host agent: one bus transaction a turn (20_memory.md R50, R60), its polls and RDPAD (30_encoding.md
R86). -/

namespace Sys2Proof.Machine

/-- The host has one operation less to do. -/
def State.withProg (s : State) (p : List HostOp) : State := { s with host := { s.host with prog := p } }

/-- `Read(a)` with its result kept, then the operations `p` (R85). -/
def State.hostRead (s : State) (a : Addr) (p : List HostOp) : State :=
  let t := s.afterRead a
  { t with host := { t.host with prog := p, got := t.host.got ++ [s.readByte a] } }

/-- One poll of STATUS: its byte is remembered (R86); a poll has no other effect, STATUS being readable at any time (R59). -/
def State.hostPoll (s : State) : State :=
  { s with host := { s.host with polled := s.status.toByte } }

/-- One poll of a WAIT: go on once BUSY is 0 (R86). -/
def State.hostWait (s : State) (p : List HostOp) : State :=
  if s.status.toByte.getLsbD 0 then s.hostPoll else s.hostPoll.withProg p

/-- ERR as a STATUS byte shows it, bits 7:4 (R31). -/
def errField (status : Byte) : Code := status.extractLsb' 4 4

/-- One poll of a WAITOK: once BUSY is 0, go on if ERR is 0, else "the program stops with the error named by that code"
(R86). -/
def State.hostWaitOk (s : State) (p : List HostOp) : State :=
  if s.status.toByte.getLsbD 0 then s.hostPoll
  else if errField s.status.toByte = 0 then s.hostPoll.withProg p
  else { s with host := { s.host with prog := [], polled := s.status.toByte,
                                      stopped := some (errField s.status.toByte) } }

/-- `RD base+k` for `k = 0 .. n-1` (R11, R86). DESIGN CHOICE (log 22): an RDPAD done while BUSY is 1, or of a PADBLKS above 2,
runs past PADBUF's 128 bytes: its reads go on through the window, and past 0x1FF they wrap (`addrAt`). -/
def readRun (base n : Nat) : List HostOp := (List.range n).map (fun k => .rd (addrAt base k))

/-- `WR base+k, s[k]` in increasing `k` (R11, R86). -/
def writeRunOps (base : Nat) : List Byte → List HostOp
  | [] => []
  | v :: s => .wr (addrAt base 0) v :: writeRunOps (base + 1) s

/-- The host's turn: its next transaction; a host with nothing left to do does nothing. RDPAD reads PADBLKS, giving `q`,
and then has `64q` bytes from PADBUF on to read (R86; a `q` read while BUSY is free, R59, log 22). -/
def State.hostTurn (s : State) : State :=
  match s.host.prog with
  | [] => s
  | .wr a v :: p => (s.busWrite a v).withProg p
  | .rd a :: p => s.hostRead a p
  | .wait :: p => s.hostWait p
  | .waitOk :: p => s.hostWaitOk p
  | .rdPad :: p =>
    s.hostRead addrPadBlks (readRun padBufBase (64 * (s.readByte addrPadBlks).toNat) ++ p)

/-- The bus transaction the host's turn makes, if it has one to make (R50, R85, R86). -/
def State.hostTxn (s : State) : Option BusTxn :=
  match s.host.prog with
  | [] => none
  | .wr a v :: _ => some (.write a v)
  | .rd a :: _ => some (.read a)
  | .wait :: _ => some (.read addrStatus)
  | .waitOk :: _ => some (.read addrStatus)
  | .rdPad :: _ => some (.read addrPadBlks)

end Sys2Proof.Machine
end

