-- ==== Sys2Proof/Machine/Turns.lean ====
section
/-! DEFINITION. The turns of an execution (20_memory.md R60): the host's transaction, the core's completion (40_control.md
R102, R104) and reset, and which comes next. Step.lean only calls these. -/

namespace Sys2Proof.Machine

/-- Completion of the command byte `op` (R102, R104): a command has its meaning, any other byte raises
`IllegalCommand(3)` (R83). -/
def State.completion (s : State) (op : Byte) : Host.Outcome State Fault Refusal :=
  match decodeByte op with
  | .ok i => exec i s
  | .error _ => s.raiseError codeIllegalCommand

/-- The core's turn: its completion step "is enabled exactly when `pend` is not none" (R102); else it waits (R283). -/
def State.coreTurn (s : State) : Host.Outcome State Fault Refusal :=
  match s.pend with
  | none => .next s
  | some op => s.completion op

/-- One turn. -/
def State.takeTurn (s : State) : Turn → Host.Outcome State Fault Refusal
  | .host => .next s.hostTurn
  | .core => s.coreTurn
  | .reset => .next s.hardReset

/-- Whose turn it is once the schedule is used up: a pending command completes, as weak fairness of the core asks (R103),
else the host goes on (log 1). -/
def State.defaultTurn (s : State) : Turn := if s.pend.isSome then .core else .host

/-- The next turn, and the state with it taken off the schedule. -/
def State.nextTurn (s : State) : Turn × State :=
  match s.sched with
  | [] => (s.defaultTurn, s)
  | t :: ts => (t, { s with sched := ts })

/-- A command byte put where the core takes its next command from, as an accepted CMD write puts it (R64, R100), with the
core to move next. -/
def State.withCommand (s : State) (op : Byte) : State := { s.issue op with sched := .core :: s.sched }

end Sys2Proof.Machine
end

