-- ==== Sys2Proof/Machine/Step.lean ====
section
/-! DEFINITION. The step: one turn of the interleaving (20_memory.md R60). -/

namespace Sys2Proof.Machine

/-- One step: the next turn is taken. -/
def step (s : State) : Host.Outcome State Fault Refusal := s.nextTurn.2.takeTurn s.nextTurn.1

/-- `s` with the command of `nbits` bits in the number `w` issued and the core to move next (R64: "A command is the data
byte of a CMD write and is consumed at issue"; log 2). -/
def State.withFetchWord (s : State) (nbits w : Nat) : State := s.withCommand (commandByte nbits w)

end Sys2Proof.Machine
end

