-- ==== Sys2Proof/Machine/HostProgram.lean ====
section
/-! DEFINITION. The host's program syntax made into bus operations (30_encoding.md R85, R86), and the text encoding of a
program's transactions (R87). -/

namespace Sys2Proof.Machine

/-- Byte `k` of a number, `v[8k+7:8k]` (R11). -/
def natByte (v k : Nat) : Byte := BitVec.ofNat 8 (v / 2 ^ (8 * k))

/-- `MemWrite(base, n, v)`: `v[8k+7:8k]` to `base+k` in increasing `k` (R11). -/
def memWriteOps (base n v : Nat) : List HostOp := writeRunOps base ((List.range n).map (natByte v))

/-- The value of `MemRead`'s bytes, "composed little-endian into an `8n`-bit value" (R11). -/
def memReadValue : List Byte → Nat
  | [] => 0
  | b :: s => b.toNat + 256 * memReadValue s

/-- The expansion of a line (R85, R86). It is a line's meaning where the line is well formed: `assemble` checks (log 17). -/
def expand : HostStmt → List HostOp
  | .wr a v => [.wr a v]
  | .rd a => [.rd a]
  | .cmd i => [.wr addrCmd (encodeByte i)]
  | .wait => [.wait]
  | .waitOk => [.waitOk]
  | .wrBlk s => writeRunOps blkBase s
  | .wrTail s => writeRunOps blkBase s ++ [.wr addrTailLen (BitVec.ofNat 8 s.length)]
  | .wrLen n => memWriteOps lengthBase 8 n
  | .wrHex t => writeRunOps hexInBase (t.take 32) ++ [.wr addrHexLen (BitVec.ofNat 8 t.length)]
  | .rdState => readRun stateBase 16
  | .rdHex => readRun hexOutBase 32
  | .rdPad => [.rdPad]
  | .memRead a n => readRun a.toNat n
  | .memWrite a n v => memWriteOps a.toNat n v

/-- A program's operations, or none where a line is ill formed (DESIGN CHOICE, log 17: R86 gives such a line no expansion). -/
def assemble (p : List HostStmt) : Option (List HostOp) :=
  if hostProgramWf p then some (p.flatMap expand) else none

/-- A hex digit of the text encoding (R87). -/
def hexDigitChar (n : Nat) : Char := Char.ofNat (if n < 10 then 48 + n else 87 + n)

/-- A transaction's text: `W aaa dd` or `R aaa`, lowercase hex (R87). -/
def txnText : BusTxn → List Char
  | .read a => ['R', ' ', hexDigitChar (a.toNat / 256), hexDigitChar (a.toNat / 16 % 16), hexDigitChar (a.toNat % 16)]
  | .write a v =>
    ['W', ' ', hexDigitChar (a.toNat / 256), hexDigitChar (a.toNat / 16 % 16), hexDigitChar (a.toNat % 16), ' ',
     hexDigitChar (v.toNat / 16), hexDigitChar (v.toNat % 16)]

/-- The value of a lowercase hex digit, if the character is one. -/
def hexDigitValue (c : Char) : Option Nat :=
  if 48 ≤ c.toNat ∧ c.toNat ≤ 57 then some (c.toNat - 48)
  else if 97 ≤ c.toNat ∧ c.toNat ≤ 102 then some (c.toNat - 87)
  else none

/-- An address of three hex digits inside the 9-bit window. -/
def addrOfDigits (x y z : Char) : Option Addr :=
  match hexDigitValue x, hexDigitValue y, hexDigitValue z with
  | some p, some q, some r => if p < 2 then some (BitVec.ofNat 9 (256 * p + 16 * q + r)) else none
  | _, _, _ => none

/-- The transaction a text is, if it is one (R87 read backwards). -/
def txnOfText : List Char → Option BusTxn
  | ['R', ' ', x, y, z] => (addrOfDigits x y z).map .read
  | ['W', ' ', x, y, z, ' ', u, v] =>
    match addrOfDigits x y z, hexDigitValue u, hexDigitValue v with
    | some a, some p, some q => some (.write a (BitVec.ofNat 8 (16 * p + q)))
    | _, _, _ => none
  | _ => none

/-- The transactions of an operation (R86), `q` being the byte that RDPAD's read of PADBLKS returns; a poll is written
once, however often it is repeated, as the notation of 95_test_vectors.md does. -/
def opTxns (q : Byte) : HostOp → List BusTxn
  | .wr a v => [.write a v]
  | .rd a => [.read a]
  | .wait => [.read addrStatus]
  | .waitOk => [.read addrStatus]
  | .rdPad => .read addrPadBlks :: (List.range (64 * q.toNat)).map (fun k => .read (addrAt padBufBase k))

/-- The transactions of operations in order, `qs` the bytes of PADBLKS that its RDPADs read (0 for one it does not give). -/
def programTxns : List HostOp → List Byte → List BusTxn
  | [], _ => []
  | .rdPad :: p, qs => opTxns (qs.headD 0) .rdPad ++ programTxns p qs.tail
  | .wr a v :: p, qs => opTxns 0 (.wr a v) ++ programTxns p qs
  | .rd a :: p, qs => opTxns 0 (.rd a) ++ programTxns p qs
  | .wait :: p, qs => opTxns 0 .wait ++ programTxns p qs
  | .waitOk :: p, qs => opTxns 0 .waitOk ++ programTxns p qs

/-- A program's encoding: its transactions' texts in order (R87). DESIGN CHOICE (log 17): none where a line is ill formed, since
R87's transactions are those of R86's expansions and R86 gives such a line none. `runText` is the encoding of a run, every poll
of it written. -/
def programText (p : List HostStmt) (qs : List Byte) : Option (List (List Char)) :=
  (assemble p).map (fun ops => (programTxns ops qs).map txnText)

end Sys2Proof.Machine
end

