-- ==== Sys2Proof/Machine/Procedures.lean ====
section
/-! DEFINITION. The host procedures hash, digestOf and extend (44_procedures.md): the functions of the source, the host
programs that compute them on the core, and running such a program on the machine. -/

namespace Sys2Proof.Machine

/-- `chunk64`: the whole 64-byte blocks of a byte sequence, in order (R222). -/
def chunk64 (x : List Byte) : List (List Byte) :=
  (List.range (x.length / 64)).map (fun t => (x.drop (64 * t)).take 64)

/-- Byte `k` of a block given as a list. -/
def blockByte (b : List Byte) (k : Nat) : Byte := b.getD k 0x00

/-- `compressBlock` over every block of a byte sequence (R222, R234). -/
def compressAll (h : Quad) (x : List Byte) : Quad := (chunk64 x).foldl (fun g b => compress g (blockByte b)) h

/-- The state `hash` serialises (R222). -/
def hashState (m : List Byte) : Quad := compressAll initialState (pad m)

/-- `hash(m)` as 32 lowercase hex characters (R222, R224). -/
def hashFunction (m : List Byte) : List Byte := hexOut (hashState m)

/-- The bytes past the last 64-byte boundary (R155). -/
def tailOf (x : List Byte) : List Byte := x.drop (64 * (x.length / 64))

/-- The whole blocks (R155). -/
def headOf (x : List Byte) : List Byte := x.take (64 * (x.length / 64))

/-- `payload = pad(assumedBase) ++ extension` (R232). -/
def extendPayload (base ext : List Byte) : List Byte := pad base ++ ext

/-- `totalBitsSoFar`, `T = 8 * len(payload)` (R233). DESIGN CHOICE (log 11): modulo 2^64, as `pad` takes its bit length; the
procedure refuses a payload for which that matters. -/
def extendBits (base ext : List Byte) : Length := BitVec.ofNat 64 (8 * (extendPayload base ext).length)

/-- `extend(assumedBase, baseDigest, extension)`: none where `baseDigest` is no digest (R231), else the payload in hex and
the forged digest (R230 to R235). -/
def extendFunction (base digest ext : List Byte) : Option (List Byte × List Byte) :=
  (stateFromDigest digest.length (blockByte digest)).map (fun h =>
    (hexOfBytes (extendPayload base ext), hexOut (compressAll h (forgePadding ext (extendBits base ext)))))

/-- The filler the boundary form puts in place of an omitted prefix: `baseLength` zero bytes (R238). -/
def assumedBaseOf (baseLength : Nat) : Option (List Byte) → List Byte
  | some p => p
  | none => List.replicate baseLength 0x00

/-- The program lines that compress the whole blocks of `x` (R222, R234). -/
def compressBlocksProgram (x : List Byte) : List HostStmt :=
  (chunk64 x).flatMap (fun b => [.wrBlk b, .cmd .compress, .waitOk])

/-- `hash(m)` as a host program (R222). -/
def hashProgram (m : List Byte) : List HostStmt :=
  [.cmd .init, .waitOk] ++ compressBlocksProgram m ++
    [.wrTail (tailOf m), .wrLen (8 * m.length), .cmd .final, .waitOk, .rdHex]

/-- `extend`'s step 1 (R231). -/
def resumeProgram (digest : List Byte) : List HostStmt := [.wrHex digest, .cmd .ldhex, .wait]

/-- `extend`'s step 2 (R232). -/
def gluePadProgram (base : List Byte) : List HostStmt :=
  [.wrTail (tailOf base), .wrLen (8 * base.length), .cmd .pad, .waitOk, .rdPad]

/-- `extend`'s steps 4 to 6 with the total bit length `t` (R234, R235). -/
def continueProgram (ext : List Byte) (t : Nat) : List HostStmt :=
  compressBlocksProgram ext ++ [.wrTail (tailOf ext), .wrLen t, .cmd .final, .waitOk, .rdHex]

/-- A host that has the operations `p` to do and has seen nothing. -/
def State.loadProgram (s : State) (p : List HostOp) : State := { s with host := ⟨p, [], 0x00, none⟩ }

/-- The host's program has ended and the core is idle. -/
def State.ended (s : State) : Bool := decide (s.host.prog = [] ∧ s.pend = none)

/-- Steps until the host's program has ended and the core is idle, at most `n` of them; the state they leave. -/
def runToEnd : Nat → State → Host.Outcome State Fault Refusal
  | 0, s => .next s
  | n + 1, s =>
    if s.ended then .next s
    else match step s with
      | .next t => runToEnd n t
      | .fault r => .fault r
      | .refused r => .refused r

/-- The most default turns an operation takes: a write and the completion it may issue, one read, one poll that finds the core
idle, or RDPAD's read of PADBLKS and of the bytes after it. -/
def HostOp.turns : HostOp → Nat
  | .wr _ _ => 2
  | .rd _ => 1
  | .wait => 1
  | .waitOk => 1
  | .rdPad => 1 + 64 * 255

/-- Steps enough for a program of operations `p` from `s`: the turns still scheduled, a completion already pending, and the
turns of each operation. `runToEnd_ends` proves that they suffice (log 15). -/
def enoughSteps (s : State) (p : List HostOp) : Nat := s.sched.length + 1 + (p.map HostOp.turns).sum

/-- Run a program on the machine from `s`: the state it is left in, or the error a WAITOK stopped it with (R86). -/
def runProgram (s : State) (p : List HostStmt) : Host.Outcome State Fault Refusal :=
  match assemble p with
  | none => .refused .illFormedProgram
  | some ops =>
    match runToEnd (enoughSteps s ops) (s.loadProgram ops) with
    | .next t =>
      match t.host.stopped with
      | some c => .fault (.programStopped c)
      | none => .next t
    | .fault r => .fault r
    | .refused r => .refused r

/-- The bus transactions of the next `n` steps, every poll among them (R60, R87). -/
def busTrace : Nat → State → List BusTxn
  | 0, _ => []
  | n + 1, s =>
    (if s.nextTurn.1 = .host then s.nextTurn.2.hostTxn.toList else []) ++
      match step s with
      | .next t => busTrace n t
      | .fault _ => []
      | .refused _ => []

/-- The encoding of a run of `n` steps: its transactions' texts in order (R87). -/
def runText (n : Nat) (s : State) : List (List Char) := (busTrace n s).map txnText

/-- What a procedure gives besides the state it leaves the machine in. -/
inductive ProcResult (α : Type) where
  /-- its result -/
  | value (a : α)
  /-- it has seen `STATUS.BV = 1`, or an ERR that no rule lets it see: "its result is not defined by the spec" (R239, I11);
  "the core's own state still follows the rules" (I11) and is given -/
  | notDefined
  /-- its program has not ended: it waits for a core that is BUSY with nothing pending, a state no run reaches (log 15) -/
  | unfinished
deriving DecidableEq, Repr

/-- The next turn is the host's, and it reads STATUS, by a poll or by RD, with BV set (R31, R59). -/
def State.seesViolation (s : State) : Bool :=
  decide (s.nextTurn.1 = .host) && decide (s.nextTurn.2.hostTxn = some (.read addrStatus)) && s.status.bv

/-- The host sees BV set in one of the next `n` steps, whatever clears it afterwards. -/
def seesViolationIn : Nat → State → Bool
  | 0, _ => false
  | n + 1, s => s.seesViolation ||
    match step s with
    | .next t => seesViolationIn n t
    | .fault _ => false
    | .refused _ => false

/-- The program `p`, run from `s` as `runProgram` runs it, "sees ... `STATUS.BV = 1`" (R239). -/
def programSeesViolation (s : State) (p : List HostStmt) : Bool :=
  match assemble p with
  | none => false
  | some ops => seesViolationIn (enoughSteps s ops) (s.loadProgram ops)

/-- The result, unless the procedure has broken a rule (R239). -/
def resultUnless {α : Type} (broken : Bool) (a : α) : ProcResult α := if broken then .notDefined else .value a

/-- What a procedure does after a part of it. -/
def afterPart {α : Type} (o : Host.Outcome State Fault Refusal)
    (f : State → Host.Outcome (State × ProcResult α) Fault Refusal) :
    Host.Outcome (State × ProcResult α) Fault Refusal :=
  match o with
  | .next t => if t.ended then f t else .next (t, .unfinished)
  | .fault r => .fault r
  | .refused r => .refused r

/-- `hash(m)` on the machine: the state it ends in and the digest read (R221, R222). DESIGN CHOICE (log 15): a WAITOK that reads
an ERR stops it (R86), also where R239 leaves its result undefined. -/
def procHash (c : Config.Params) (m : List Byte) (s : State) :
    Host.Outcome (State × ProcResult (List Byte)) Fault Refusal :=
  if m.length ≤ c.maxMsgBytes then
    afterPart (runProgram s (hashProgram m)) (fun t =>
      .next (t, resultUnless (programSeesViolation s (hashProgram m)) t.host.got))
  else .refused .messageTooLong

/-- The bytes of PADBUF that RDPAD read, after PADBLKS (R86). -/
def padBytesRead (t : State) : List Byte := t.host.got.drop 1

/-- `extend` accepts the lengths: `Lb + 64 + Le <= MAX_MSG_BYTES` (R230), and the payload's bit length has a 64-bit value, as
R230 means it to ("so that the payload length of rule R233 fits"; D18, log 11). -/
def extendAccepts (c : Config.Params) (base ext : List Byte) : Bool :=
  decide (base.length + 64 + ext.length ≤ c.maxMsgBytes) && decide ((extendPayload base ext).length < 2 ^ 61)

/-- `extend` on the machine (R230 to R235): resume (a STATUS with ERR 1 stops it, R231), pad, continue; the state it ends
in, `forgedMessageHex` and `forgedDigest`. DESIGN CHOICE (log 15): where a run has seen BV, or a WAITOK reads an ERR, R239 leaves
the result undefined, and a stop on an ERR (R86, R231) comes before `notDefined`. -/
def procExtend (c : Config.Params) (base digest ext : List Byte) (s : State) :
    Host.Outcome (State × ProcResult (List Byte × List Byte)) Fault Refusal :=
  if extendAccepts c base ext then
    afterPart (runProgram s (resumeProgram digest)) (fun t1 =>
      if errField t1.host.polled = codeInvalidDigestFormat then .fault (.programStopped codeInvalidDigestFormat)
      else afterPart (runProgram t1 (gluePadProgram base)) (fun t2 =>
        let payload := headOf base ++ padBytesRead t2 ++ ext
        let last := continueProgram ext (8 * payload.length)
        afterPart (runProgram t2 last) (fun t3 =>
          .next (t3, resultUnless (decide (errField t1.host.polled ≠ codeOk) || programSeesViolation s (resumeProgram digest) ||
            programSeesViolation t1 (gluePadProgram base) || programSeesViolation t2 last)
            (hexOfBytes payload, t3.host.got)))))
  else .refused .messageTooLong

/-- The boundary form: the prefix, or the filler in its place (R238). -/
def procExtendBoundary (c : Config.Params) (baseLength : Nat) (digest ext : List Byte) (assumedPrefix : Option (List Byte))
    (s : State) : Host.Outcome (State × ProcResult (List Byte × List Byte)) Fault Refusal :=
  procExtend c (assumedBaseOf baseLength assumedPrefix) digest ext s

/-- `digestOf` with the core idle: the 16-byte form through the STATE window (R121, R224). It reads no STATUS, so it sees no
BV. -/
def procDigestBytes (s : State) : Host.Outcome (State × ProcResult (List Byte)) Fault Refusal :=
  afterPart (runProgram s [.rdState]) (fun t => .next (t, .value t.host.got))

/-- `digestOf` with the core idle: the 32-character form through HEXOUT (R123, R224). -/
def procDigestHex (s : State) : Host.Outcome (State × ProcResult (List Byte)) Fault Refusal :=
  afterPart (runProgram s [.rdHex]) (fun t => .next (t, .value t.host.got))

end Sys2Proof.Machine
end

