-- ==== Sys2Proof/Machine/Sequencer.lean ====
section
/-! DEFINITION. The reference sequencer (40_control.md R108), one phase a tick, on the same State. The core's step is the
whole command (R102); the sequencer is how an implementation gets there, "observable only through `STATUS.BUSY`". -/

namespace Sys2Proof.Machine

/-- The outcome code of a pending byte (R102, R104). A failing check writes nothing, so CHECK and DONE see the same
operands and the code needs no register of its own (log 8). -/
def State.outcomeCode (s : State) (op : Byte) : Code :=
  match decodeByte op with
  | .error _ => codeIllegalCommand
  | .ok .ldhex => if s.hexDigest.isSome then codeOk else codeInvalidDigestFormat
  | .ok .pad => if s.padChecksPass then codeOk else codeInvalidBlockSize
  | .ok .final => if s.padChecksPass then codeOk else codeInvalidBlockSize
  | .ok .nop => codeOk
  | .ok .init => codeOk
  | .ok .compress => codeOk

/-- The same state in another phase. -/
def State.goto (s : State) (p : Phase) : State := { s with phase := p }

/-- DECODE: where each command goes first (R108). -/
def State.afterDecode (op : Byte) : Phase :=
  match decodeByte op with
  | .error _ => .done
  | .ok .nop => .done
  | .ok .init => .done
  | .ok .ldhex => .check
  | .ok .compress => .load
  | .ok .pad => .check
  | .ok .final => .check

/-- CHECK: "DONE on error, else the command's next phase" (R108). -/
def State.afterCheck (s : State) (op : Byte) : Phase :=
  if s.outcomeCode op ≠ codeOk then .done
  else if decodeByte op = .ok .pad ∨ decodeByte op = .ok .final then .padgen
  else .done

/-- The block LOAD reads: BLK for COMPRESS, `PADBUF[64j .. 64j+64)` for FINAL (R108). -/
def State.loadBlock (s : State) (op : Byte) : Nat → Byte :=
  if decodeByte op = .ok .final then s.padBlock s.work.j.toNat else s.blk

/-- LOAD: the working words, the message words and `i <- 0` (R108). -/
def State.tickLoad (s : State) (op : Byte) : State :=
  (s.withWork { s.work with v := s.h, w := blockWords (s.loadBlock op), i := 0 }).goto .round

/-- ROUND: step `i`, then `i <- i + 1`; after step 63 to FFWD. The counter has 6 bits, so it then reads 0 (log 7). -/
def State.tickRound (s : State) : State :=
  (s.withWork { s.work with v := roundStep s.work.i.toNat s.work.v s.work.w, i := s.work.i + 1 }).goto
    (if s.work.i.toNat = 63 then .ffwd else .round)

/-- FFWD: the feed-forward; FINAL with another block left takes it, else DONE (R108). -/
def State.tickFfwd (s : State) (op : Byte) : State :=
  if decodeByte op = .ok .final ∧ s.work.j.toNat + 1 < s.padBlks.toNat then
    ((s.withH (quadAdd s.h s.work.v)).withWork { s.work with j := s.work.j + 1 }).goto .load
  else (s.withH (quadAdd s.h s.work.v)).goto .done

/-- PADGEN: PADBUF, PADBLKS and `j <- 0`; FINAL goes on to LOAD when there is a block (R108). -/
def State.tickPadgen (s : State) (op : Byte) : State :=
  (s.padGen.withWork { s.work with j := 0 }).goto
    (if decodeByte op = .ok .final ∧ 0 < s.padGen.padBlks.toNat then .load else .done)

/-- DONE: R102's STATUS updates, and the write of `H` by INIT and LDHEX, which R108 gives no phase of its own (log 8). -/
def State.tickDone (s : State) (op : Byte) : State :=
  match decodeByte op with
  | .ok .init => (s.withH initialState).complete codeOk
  | .ok .ldhex => (s.withH (s.hexDigest.getD s.h)).complete (s.outcomeCode op)
  | .ok .nop => s.complete (s.outcomeCode op)
  | .ok .compress => s.complete (s.outcomeCode op)
  | .ok .pad => s.complete (s.outcomeCode op)
  | .ok .final => s.complete (s.outcomeCode op)
  | .error _ => s.complete (s.outcomeCode op)

/-- One tick of the sequencer running the byte `op` (R108). -/
def State.tickOf (s : State) (op : Byte) : State :=
  match s.phase with
  | .idle => s
  | .decode => s.goto (State.afterDecode op)
  | .check => s.goto (s.afterCheck op)
  | .load => s.tickLoad op
  | .round => s.tickRound
  | .ffwd => s.tickFfwd op
  | .padgen => s.tickPadgen op
  | .done => s.tickDone op

/-- One tick; with nothing pending the sequencer waits in IDLE (R108). -/
def State.seqTick (s : State) : State :=
  match s.pend with
  | none => s
  | some op => s.tickOf op

/-- `n` ticks. -/
def State.seqTicks (s : State) : Nat → State
  | 0 => s
  | n + 1 => (s.seqTicks n).seqTick

/-- How many ticks the sequencer takes from DECODE to the end of DONE for the pending byte `op`: the reference timing of
70_reset_and_hazards.md R296, "one phase ... per clock cycle". -/
def State.referenceTicks (s : State) (op : Byte) : Nat :=
  match decodeByte op with
  | .error _ => 2
  | .ok .nop => 2
  | .ok .init => 2
  | .ok .ldhex => 3
  | .ok .compress => 68
  | .ok .pad => if s.padChecksPass then 4 else 3
  | .ok .final => if s.padChecksPass then 4 + 66 * (s.paddedTail.length / 64) else 3

end Sys2Proof.Machine
end

