-- ==== Sys2Proof/Safety.lean ====
section
/-! DEFINITION. What a legal state is, and what the host must respect (70_reset_and_hazards.md R285). -/

namespace Sys2Proof.Machine

/-- A bus address of HEXIN, BLK or PADBUF (R52): the only addresses a buffer cell may have. -/
def isBufferAddr (a : Nat) : Bool :=
  (decide (0x040 ≤ a) && decide (a < 0x060)) || (decide (0x080 ≤ a) && decide (a < 0x0C0)) ||
    (decide (0x100 ≤ a) && decide (a < 0x180))

/-- Every cell lies in a buffer. -/
def Memory.inBuffers (m : Memory) : Bool := m.all (fun c => isBufferAddr c.1)

/-- The invariant every step keeps. -/
structure State.Inv (s : State) : Prop where
  /-- the buffers are in canonical form -/
  memWf : s.mem.wf = true
  /-- and hold nothing outside HEXIN, BLK and PADBUF (R52) -/
  memIn : s.mem.inBuffers = true
  /-- BUSY is 1 exactly while a command is pending (R32) -/
  busyPend : s.status.busy = s.pend.isSome
  /-- between steps the sequencer is in IDLE or, with a command pending, in DECODE (R108) -/
  phasePend : s.phase = if s.pend.isSome then .decode else .idle
  /-- DONE is 0 while a command is busy (R31, R33) -/
  doneIdle : s.status.busy = true → s.status.done = false
  /-- a non-zero ERR is the outcome of a completed command (R35) -/
  errDone : s.status.err ≠ 0 → s.status.done = true
  /-- ERR's legal values are 0 to 3 (R35) -/
  errLegal : s.status.err.toNat ≤ 3
  /-- PADBLKS's only values are 0, 1 and 2 (R30) -/
  padBlksLegal : s.padBlks.toNat ≤ 2
  /-- PADBUF holds PADBLKS blocks, followed by `0x00` bytes (R29) -/
  padBufTail : ∀ k, 64 * s.padBlks.toNat ≤ k → k < 128 → s.padBuf k = 0x00

/-- The host keeps R285: while a command is busy its next transaction is a STATUS read or a STATUS write. -/
def State.hostKeepsHazard (s : State) : Bool :=
  !s.status.busy ||
    match s.host.prog with
    | [] => true
    | .wr a _ :: _ => decide (regionOf a = .status)
    | .rd a :: _ => decide (regionOf a = .status)
    | .wait :: _ => true
    | .waitOk :: _ => true
    | .rdPad :: _ => false

/-- What a host can ever learn of a state: everything but the hidden working words (R38, R263). -/
def State.visible (s : State) : State := { s with work := State.reset.work }

/-- The lowercase form of an ASCII hex digit (R124, D14). -/
def lowerHex (c : Byte) : Byte := if 0x41 ≤ c ∧ c ≤ 0x46 then c + 0x20 else c

/-- The host's copy of PADBUF block `j` into BLK, which FINAL does without (R160). -/
def State.copyPadBlock (s : State) (j : Nat) : State :=
  { s with mem := s.mem.writeRun blkBase ((List.range 64).map (s.padBlock j)) }

/-- `k` steps. -/
def steps : Nat → State → Host.Outcome State Fault Refusal
  | 0, s => .next s
  | k + 1, s =>
    match step s with
    | .next t => steps k t
    | .fault r => .fault r
    | .refused r => .refused r

end Sys2Proof.Machine
end

