-- ==== Sys2Proof/Certificates/Slice0/Obligations.lean ====
section
/-! DEFINITION. The statements for the provers. Each docstring names the rule of spec/ it formalises; a completed state
is written out as the state before with the fields the command writes, so it is the frame as well. -/

open Sys2Proof Sys2Proof.Machine

/-! ## Encoding, dispatch and the step -/

/-- R104: the whole byte selects the command, and any byte from 0x06 on completes with IllegalCommand(3), with no write but
STATUS's (R83, R253). -/
def Obligations.DispatchByWholeByte : Prop :=
  ∀ s : State,
    s.completion 0x00 = exec .nop s ∧ s.completion 0x01 = exec .init s ∧ s.completion 0x02 = exec .ldhex s ∧
    s.completion 0x03 = exec .compress s ∧ s.completion 0x04 = exec .pad s ∧ s.completion 0x05 = exec .final s ∧
    ∀ op : Byte, 0x06 ≤ op.toNat →
      s.completion op = .next { s with pend := none, phase := .idle, status := ⟨false, true, s.status.bv, 3⟩ }

/-- R80, R81: decoding an encoded command gives it back with the bytes after it, a byte that decodes is its command's
encoding, every other byte is an illegal opcode, and an empty sequence is no command. -/
def Obligations.DecodeEncodeAgree : Prop :=
  (∀ i rest, i.wf = true → decode (encode i ++ rest) = .ok (i, rest)) ∧
  (∀ op i, decodeByte op = .ok i → encodeByte i = op) ∧
  (∀ op, (∀ i, encodeByte i ≠ op) → decodeByte op = .error (.illegalOpcode op)) ∧
  decode [] = .error .noByte

/-- R81, the words of spec/opcode_table.json written out bit by bit. -/
def Obligations.WrittenOutWordsDecode : Prop :=
  decodeTableWord 8 0b00000000 = some .nop ∧ decodeTableWord 8 0b00000001 = some .init ∧
  decodeTableWord 8 0b00000010 = some .ldhex ∧ decodeTableWord 8 0b00000011 = some .compress ∧
  decodeTableWord 8 0b00000100 = some .pad ∧ decodeTableWord 8 0b00000101 = some .final ∧
  decodeTableWord 8 0b00000110 = none ∧ decodeTableWord 8 0b10000011 = none

/-- R87: the text of a bus transaction reads back as that transaction, for every address and byte. -/
def Obligations.TransactionTextReadsBack : Prop := ∀ t : BusTxn, txnOfText (txnText t) = some t

/-- R102, R104: when the core moves and the pending byte decodes to `i`, the step is `exec i`. The core moves when the
schedule says so, or when it is used up (the model's schedule, log 1). -/
def Obligations.StepRunsPendingCommand : Prop :=
  ∀ (s : State) (op : Byte) (i : Instr), s.pend = some op → decodeByte op = .ok i →
    (s.sched = [] → step s = exec i s) ∧
    (∀ ts, s.sched = .core :: ts → step s = exec i { s with sched := ts })

/-- R102, R264, R283: with nothing pending the core's turn changes nothing, and an idle core whose host has nothing to do
and nothing scheduled keeps every register. -/
def Obligations.IdleCoreKeepsEverything : Prop :=
  ∀ s : State, s.pend = none →
    s.coreTurn = .next s ∧ (s.sched = [] → s.host.prog = [] → step s = .next s)

/-- R60, R85, R86: on the host's turn its next operation takes effect on the bus: a write, a read whose byte is kept, a poll
that goes on only once BUSY is 0 and, for WAITOK, stops the program on an error, and RDPAD's read of PADBLKS, which gives
the reads of PADBUF to come (the host's program as data is the model's, log 2, and so are the addresses of an RDPAD of more
than two blocks, log 22). -/
def Obligations.HostTurnTakesItsNextOperation : Prop :=
  ∀ (s : State) (p : List HostOp),
    (∀ a v, s.host.prog = .wr a v :: p →
      s.takeTurn .host = .next { s.busWrite a v with host := { s.host with prog := p } }) ∧
    (∀ a, s.host.prog = .rd a :: p →
      s.takeTurn .host =
        .next { s.afterRead a with host := { s.host with prog := p, got := s.host.got ++ [s.readByte a] } }) ∧
    (s.host.prog = .wait :: p →
      s.takeTurn .host = .next { s with
        host := { s.host with prog := if s.status.busy then .wait :: p else p, polled := s.status.toByte } }) ∧
    (s.host.prog = .waitOk :: p →
      s.takeTurn .host = .next { s with
        host := if s.status.busy then { s.host with polled := s.status.toByte }
          else if s.status.err = 0 then { s.host with prog := p, polled := s.status.toByte }
          else { s.host with prog := [], polled := s.status.toByte, stopped := some s.status.err } }) ∧
    (s.host.prog = .rdPad :: p →
      s.takeTurn .host = .next { s.afterRead 0x004 with
        host := { s.host with
          prog := (List.range (64 * (s.readByte 0x004).toNat)).map (fun k => .rd (addrAt 0x100 k)) ++ p
          got := s.host.got ++ [s.readByte 0x004] } })

/-! ## NOP, INIT and the outcome of every command -/

/-- R105: NOP completes with no write but STATUS's, from every state. -/
def Obligations.NopOnlyUpdatesStatus : Prop :=
  ∀ s : State,
    exec .nop s = .next { s with pend := none, phase := .idle, status := ⟨false, true, s.status.bv, 0⟩ }

/-- R106: INIT completes with `H = IV` and nothing else changed but STATUS, from every state. -/
def Obligations.InitLoadsInitialValue : Prop :=
  ∀ s : State,
    exec .init s = .next { s with
      h := ⟨0x67452301, 0xefcdab89, 0x98badcfe, 0x10325476⟩
      pend := none, phase := .idle, status := ⟨false, true, s.status.bv, 0⟩ }

/-- R102, R103: every command completes, from every state: BUSY 0, DONE 1, BV as it was, nothing pending. -/
def Obligations.EveryCommandCompletes : Prop :=
  ∀ (i : Instr) (s : State), ∃ t, exec i s = .next t ∧
    t.status.busy = false ∧ t.status.done = true ∧ t.status.bv = s.status.bv ∧ t.pend = none ∧ t.phase = .idle

/-- R253: a byte that completes with a non-zero code leaves the state as it was but for STATUS's three fields (`pend` and
the phase are the end of the command, R102, R108). -/
def Obligations.FailedCommandWritesOnlyStatus : Prop :=
  ∀ (op : Byte) (s : State), ∃ t, s.completion op = .next t ∧
    (t.status.err ≠ 0 →
      t = { s with pend := none, phase := .idle, status := ⟨false, true, s.status.bv, t.status.err⟩ })

/-- R289: no completion writes BLK, TAILLEN, LENGTH, HEXIN or HEXLEN. -/
def Obligations.CommandsKeepTheirOperands : Prop :=
  ∀ (op : Byte) (s : State), ∃ t, s.completion op = .next t ∧
    (∀ k, k < 64 → t.blk k = s.blk k) ∧ t.tailLen = s.tailLen ∧ t.length = s.length ∧
    (∀ k, k < 32 → t.hexIn k = s.hexIn k) ∧ t.hexLen = s.hexLen

/-- R29, R30: a completion changes PADBUF or PADBLKS only for PAD and FINAL with code 0, and then nothing outside
PADBUF's 128 bytes. -/
def Obligations.OnlyPadAndFinalWritePadBuf : Prop :=
  ∀ (op : Byte) (s : State), ∃ t, s.completion op = .next t ∧
    (∀ a, a < 0x100 ∨ 0x180 ≤ a → t.mem.read a = s.mem.read a) ∧
    ((t.mem ≠ s.mem ∨ t.padBlks ≠ s.padBlks) → (op = 0x04 ∨ op = 0x05) ∧ t.status.err = 0)

/-- R21: the only events that change the chaining state are a completion of INIT, LDHEX, COMPRESS or FINAL, a host write to
the STATE window of an idle core, and reset. -/
def Obligations.WritersOfTheChainingState : Prop :=
  ∀ s t : State, step s = .next t → t.h ≠ s.h →
    (s.nextTurn.1 = .core ∧ ∃ op, s.pend = some op ∧ (op = 0x01 ∨ op = 0x02 ∨ op = 0x03 ∨ op = 0x05)) ∨
    (s.nextTurn.1 = .host ∧ s.status.busy = false ∧
      ∃ a v p, s.host.prog = .wr a v :: p ∧ 0x010 ≤ a.toNat ∧ a.toNat < 0x020) ∨
    s.nextTurn.1 = .reset

/-! ## STATUS -/

/-- R31: the bits of the STATUS byte, bit 3 reading 0, and a host write, BUSY or not, that clears BV when its bit 2 is set
and changes nothing else. -/
def Obligations.StatusByteAndItsWrite : Prop :=
  (∀ s : Status, s.toByte.getLsbD 0 = s.busy ∧ s.toByte.getLsbD 1 = s.done ∧ s.toByte.getLsbD 2 = s.bv ∧
    s.toByte.getLsbD 3 = false ∧ s.toByte.extractLsb' 4 4 = s.err) ∧
  (∀ (s : State) (v : Byte), v.getLsbD 2 = true →
    s.busWrite 0x001 v = { s with status := { s.status with bv := false } }) ∧
  (∀ (s : State) (v : Byte), v.getLsbD 2 = false → s.busWrite 0x001 v = s)

/-- R100: a CMD write to an idle core becomes the pending command, BUSY is set and DONE and ERR are cleared; to a busy core
it only sets BV. The hidden phase becomes DECODE with it (R108, log 6); nothing else changes. -/
def Obligations.CmdWriteIssuesWhenIdle : Prop :=
  ∀ (s : State) (v : Byte),
    (s.status.busy = true → s.busWrite 0x000 v = { s with status := { s.status with bv := true } }) ∧
    (s.status.busy = false →
      s.busWrite 0x000 v = { s with pend := some v, status := ⟨true, false, s.status.bv, 0⟩, phase := .decode })

/-- R58: a write to a busy core at any address but STATUS, CMD among them, only sets BV; a STATUS write acts as R31 says. -/
def Obligations.BusyWriteIsDropped : Prop :=
  ∀ (s : State) (v : Byte), s.status.busy = true →
    (∀ a : Addr, a ≠ 0x001 → s.busWrite a v = { s with status := { s.status with bv := true } }) ∧
    s.busWrite 0x001 v = { s with status := { s.status with bv := if v.getLsbD 2 then false else s.status.bv } }

/-- R32: an accepted CMD write sets BUSY, a completion and reset clear it, and no other step changes it. -/
def Obligations.BusyChangesOnlyByIssueCompletionReset : Prop :=
  (∀ (s : State) (v : Byte), s.status.busy = false → (s.busWrite 0x000 v).status.busy = true) ∧
  (∀ (s : State) (op : Byte), ∃ t, s.completion op = .next t ∧ t.status.busy = false) ∧
  (∀ s : State, ∃ t, s.takeTurn .reset = .next t ∧ t.status.busy = false) ∧
  (∀ s t : State, step s = .next t → t.status.busy ≠ s.status.busy →
    (s.status.busy = false ∧ s.nextTurn.1 = .host ∧ ∃ v p, s.host.prog = .wr 0x000 v :: p) ∨
    (s.nextTurn.1 = .core ∧ ∃ op, s.pend = some op) ∨ s.nextTurn.1 = .reset)

/-- R33: an accepted CMD write clears DONE, every completion sets it, successful or not, and reset clears it. -/
def Obligations.DoneFollowsIssueAndCompletion : Prop :=
  (∀ (s : State) (v : Byte), s.status.busy = false → (s.busWrite 0x000 v).status.done = false) ∧
  (∀ (s : State) (op : Byte), ∃ t, s.completion op = .next t ∧ t.status.done = true) ∧
  (∀ s : State, ∃ t, s.takeTurn .reset = .next t ∧ t.status.done = false)

/-- R34: BV is set exactly by a host write, other than to STATUS, made while BUSY is 1, and cleared by a STATUS write with
bit 2 set or by reset and by nothing else; never set by a read. -/
def Obligations.BvIsStickyAndSetByBusyWrites : Prop :=
  (∀ (s : State) (a : Addr) (v : Byte), s.status.busy = true → a ≠ 0x001 → (s.busWrite a v).status.bv = true) ∧
  (∀ s t : State, step s = .next t → s.status.bv = false → t.status.bv = true →
    s.nextTurn.1 = .host ∧ s.status.busy = true ∧ ∃ a v p, s.host.prog = .wr a v :: p ∧ a ≠ 0x001) ∧
  (∀ (s : State) (v : Byte), v.getLsbD 2 = true → (s.busWrite 0x001 v).status.bv = false) ∧
  (∀ s : State, ∃ t, s.takeTurn .reset = .next t ∧ t.status.bv = false) ∧
  (∀ s t : State, step s = .next t → s.status.bv = true → t.status.bv = false →
    s.nextTurn.1 = .reset ∨
      (s.nextTurn.1 = .host ∧ ∃ v p, s.host.prog = .wr 0x001 v :: p ∧ v.getLsbD 2 = true))

/-- R35: an accepted CMD write clears ERR, a completion writes the command's outcome code, one of 0 to 3, reset clears it,
and no step makes a legal ERR illegal. -/
def Obligations.ErrHoldsTheOutcomeCode : Prop :=
  (∀ (s : State) (v : Byte), s.status.busy = false → (s.busWrite 0x000 v).status.err = 0) ∧
  (∀ (s : State) (op : Byte), ∃ t, s.completion op = .next t ∧ t.status.err = s.outcomeCode op ∧
    t.status.err.toNat ≤ 3) ∧
  (∀ s : State, ∃ t, s.takeTurn .reset = .next t ∧ t.status.err = 0) ∧
  (∀ s t : State, s.status.err.toNat ≤ 3 → step s = .next t → t.status.err.toNat ≤ 3)

/-! ## The bus window -/

/-- R52 to R54: what an idle core returns at every address of the window. -/
def Obligations.IdleReadsFollowTheAddressMap : Prop :=
  ∀ s : State, s.status.busy = false →
    s.readByte 0x000 = 0x00 ∧ s.readByte 0x001 = s.status.toByte ∧ s.readByte 0x002 = s.tailLen ∧
    s.readByte 0x003 = s.hexLen ∧ s.readByte 0x004 = s.padBlks ∧
    (∀ k, k < 8 → s.readByte (addrAt 0x008 k) = s.length.extractLsb' (8 * k) 8) ∧
    (∀ k, k < 32 → s.readByte (addrAt 0x040 k) = s.mem.read (0x040 + k)) ∧
    (∀ k, k < 64 → s.readByte (addrAt 0x080 k) = s.mem.read (0x080 + k)) ∧
    (∀ k, k < 128 → s.readByte (addrAt 0x100 k) = s.mem.read (0x100 + k)) ∧
    (∀ a : Addr, (0x005 ≤ a.toNat ∧ a.toNat ≤ 0x007) ∨ (0x060 ≤ a.toNat ∧ a.toNat ≤ 0x07F) ∨
      (0x0C0 ≤ a.toNat ∧ a.toNat ≤ 0x0FF) ∨ 0x180 ≤ a.toNat → s.readByte a = 0x00)

/-- R52: on an idle core a write to a writable entry reads back, leaves STATUS and the pending command alone, and leaves
every other byte of the window as it was, HEXOUT apart when it is the STATE window, of which HEXOUT is another view. -/
def Obligations.WritableBytesReadBack : Prop :=
  ∀ (s : State) (a : Addr) (v : Byte), s.status.busy = false → s.mem.wf = true →
    a.toNat = 0x002 ∨ a.toNat = 0x003 ∨ (0x008 ≤ a.toNat ∧ a.toNat < 0x020) ∨
      (0x040 ≤ a.toNat ∧ a.toNat < 0x060) ∨ (0x080 ≤ a.toNat ∧ a.toNat < 0x0C0) →
    (s.busWrite a v).readByte a = v ∧ (s.busWrite a v).status = s.status ∧ (s.busWrite a v).pend = s.pend ∧
    ∀ b : Addr, b ≠ a →
      ¬ ((0x010 ≤ a.toNat ∧ a.toNat < 0x020) ∧ (0x020 ≤ b.toNat ∧ b.toNat < 0x040)) →
      (s.busWrite a v).readByte b = s.readByte b

/-- R53, R54: on an idle core a write to PADBLKS, HEXOUT or PADBUF is ignored, and a read of CMD returns 0x00; a write to a
reserved address is ignored by an idle core and sets BV of a busy one, and a read of it from an idle core returns 0x00. -/
def Obligations.ReadOnlyAndReservedIgnoreWrites : Prop :=
  (∀ (s : State), s.status.busy = false →
    (∀ (a : Addr) (v : Byte), a.toNat = 0x004 ∨ (0x020 ≤ a.toNat ∧ a.toNat < 0x040) ∨
      (0x100 ≤ a.toNat ∧ a.toNat < 0x180) → s.busWrite a v = s) ∧
    s.readByte 0x000 = 0x00) ∧
  (∀ (s : State) (a : Addr) (v : Byte),
    (0x005 ≤ a.toNat ∧ a.toNat ≤ 0x007) ∨ (0x060 ≤ a.toNat ∧ a.toNat ≤ 0x07F) ∨
      (0x0C0 ≤ a.toNat ∧ a.toNat ≤ 0x0FF) ∨ 0x180 ≤ a.toNat →
    (s.status.busy = false → s.busWrite a v = s ∧ s.readByte a = 0x00) ∧
    (s.status.busy = true → s.busWrite a v = { s with status := { s.status with bv := true } }))

/-- R57, R59: a read leaves every field of the machine alone (only the model's draw counter may move, log 3), on an idle
core it leaves everything alone and repeats, and a busy core still returns its STATUS byte. -/
def Obligations.ReadsHaveNoSideEffect : Prop :=
  ∀ (s : State) (a : Addr),
    (∃ n, s.afterRead a = { s with draws := n }) ∧
    (s.status.busy = false → s.afterRead a = s ∧ (s.afterRead a).readByte a = s.readByte a) ∧
    s.readByte 0x001 = s.status.toByte ∧ s.afterRead 0x001 = s

/-- R59: a read of any other address while BUSY returns the next free byte, and the one after it the next again (the free
value is `Config.busyRead`, log 3; no value of it is claimed). -/
def Obligations.BusyReadsAreFreeDraws : Prop :=
  ∀ (s : State) (a : Addr), s.status.busy = true → a ≠ 0x001 →
    s.readByte a = Config.busyRead s.draws ∧ s.afterRead a = { s with draws := s.draws + 1 }

/-! ## The digest codec -/

/-- R12: `LE32` and `bytes32` are inverse both ways, and `LE64(n)` is the eight bytes of `n`, least significant first. -/
def Obligations.LittleEndianCodecInverts : Prop :=
  (∀ w : Word, le32 (w.extractLsb' 0 8) (w.extractLsb' 8 8) (w.extractLsb' 16 8) (w.extractLsb' 24 8) = w) ∧
  (∀ b0 b1 b2 b3 : Byte, bytes32 (le32 b0 b1 b2 b3) = [b0, b1, b2, b3]) ∧
  (∀ n : Length, (le64 n).length = 8 ∧ ∀ k, k < 8 → (le64 n).getD k 0 = n.extractLsb' (8 * k) 8)

/-- R120: the digest is the bytes of the four words in order, and byte `j` is `H[j div 4][8(j mod 4)+7 : 8(j mod 4)]`. -/
def Obligations.DigestBytesOfTheState : Prop :=
  ∀ h : Quad, digestBytes h = bytes32 h.a ++ bytes32 h.b ++ bytes32 h.c ++ bytes32 h.d ∧
    (digestBytes h).length = 16 ∧
    ∀ j, j < 16 → (digestBytes h).getD j 0 = ([h.a, h.b, h.c, h.d].getD (j / 4) 0).extractLsb' (8 * (j % 4)) 8

/-- R121: the STATE window of an idle core reads digest byte `j` of the current `H`, with the rule's example. -/
def Obligations.StateWindowReadsTheDigest : Prop :=
  ∀ s : State, s.status.busy = false →
    (∀ j, j < 16 → s.readByte (addrAt 0x010 j) = (digestBytes s.h).getD j 0) ∧
    (s.h = ⟨0x67452301, 0xefcdab89, 0x98badcfe, 0x10325476⟩ →
      (List.range 16).map (fun j => s.readByte (addrAt 0x010 j)) =
        [0x01, 0x23, 0x45, 0x67, 0x89, 0xab, 0xcd, 0xef, 0xfe, 0xdc, 0xba, 0x98, 0x76, 0x54, 0x32, 0x10])

/-- R122: a STATE write of an idle core sets digest byte `j` by the rule's formula and leaves the other fifteen, and all
else; sixteen of them leave the state whose digest is the bytes written. -/
def Obligations.StateWindowWritesOneDigestByte : Prop :=
  ∀ s : State, s.status.busy = false →
    (∀ (j : Nat) (v : Byte), j < 16 →
      ∃ g : Quad, s.busWrite (addrAt 0x010 j) v = { s with h := g } ∧
        quadGet g (j / 4) = (quadGet s.h (j / 4) &&& ~~~((0xFF : Word) <<< (8 * (j % 4)))) |||
          (v.setWidth 32 <<< (8 * (j % 4))) ∧
        (digestBytes g).getD j 0 = v ∧
        ∀ k, k < 16 → k ≠ j → (digestBytes g).getD k 0 = (digestBytes s.h).getD k 0) ∧
    (∀ d : Nat → Byte, ∃ g : Quad, digestBytes g = (List.range 16).map d ∧
      (List.range 16).foldl (fun u j => u.busWrite (addrAt 0x010 j) (d j)) s = { s with h := g })

/-- R123: HEXOUT reads the two hex characters of digest byte `j`, high nibble first, ignores writes, and reads the rule's
example string when `H` is IV. -/
def Obligations.HexOutReadsLowercaseDigest : Prop :=
  ∀ s : State, s.status.busy = false →
    (∀ j, j < 16 →
      s.readByte (addrAt 0x020 (2 * j)) = hexChar (((digestBytes s.h).getD j 0).extractLsb' 4 4) ∧
      s.readByte (addrAt 0x020 (2 * j + 1)) = hexChar (((digestBytes s.h).getD j 0).extractLsb' 0 4)) ∧
    (∀ (k : Nat) (v : Byte), k < 32 → s.busWrite (addrAt 0x020 k) v = s) ∧
    (s.h = ⟨0x67452301, 0xefcdab89, 0x98badcfe, 0x10325476⟩ →
      (List.range 32).map (fun k => s.readByte (addrAt 0x020 k)) =
        [0x30, 0x31, 0x32, 0x33, 0x34, 0x35, 0x36, 0x37, 0x38, 0x39, 0x61, 0x62, 0x63, 0x64, 0x65, 0x66,
         0x66, 0x65, 0x64, 0x63, 0x62, 0x61, 0x39, 0x38, 0x37, 0x36, 0x35, 0x34, 0x33, 0x32, 0x31, 0x30])

/-- R124: both digest forms are one to one onto the 16-byte sequences and the lowercase 32-character strings. -/
def Obligations.DigestFormsAreBijections : Prop :=
  (∀ g h : Quad, digestBytes g = digestBytes h → g = h) ∧
  (∀ e : List Byte, e.length = 16 → ∃ h, digestBytes h = e) ∧
  (∀ g h : Quad, hexOut g = hexOut h → g = h) ∧
  (∀ d : List Byte, d.length = 32 → (∀ c ∈ d, (0x30 ≤ c ∧ c ≤ 0x39) ∨ (0x61 ≤ c ∧ c ≤ 0x66)) → ∃ h, hexOut h = d)

/-- R125: LDHEX with HEXLEN 32 and 32 hex digits completes with ERR 0 and the `H` whose digest byte `j` is the value of
characters `2j` and `2j+1`, and changes nothing else. -/
def Obligations.LdhexDecodesTheDigest : Prop :=
  ∀ s : State, s.hexLen = 32 → (∀ k, k < 32 → isHex (s.hexIn k) = true) →
    ∃ g : Quad,
      exec .ldhex s = .next { s with h := g, pend := none, phase := .idle, status := ⟨false, true, s.status.bv, 0⟩ } ∧
      ∀ j, j < 16 → ((digestBytes g).getD j 0).toNat =
        16 * (hexVal (s.hexIn (2 * j))).toNat + (hexVal (s.hexIn (2 * j + 1))).toNat

/-- R125: LDHEX with any other HEXLEN or a byte that is no hex digit completes with InvalidDigestFormat(1) and changes
nothing but STATUS. -/
def Obligations.LdhexRejectsMalformedDigest : Prop :=
  ∀ s : State, s.hexLen ≠ 32 ∨ (∃ k, k < 32 ∧ isHex (s.hexIn k) = false) →
    exec .ldhex s = .next { s with pend := none, phase := .idle, status := ⟨false, true, s.status.bv, 1⟩ }

/-- R124, R126: after LDHEX of 32 hex digits, HEXOUT reads the same string in lowercase; case on input is the spec's own
decision D14 (log 16). -/
def Obligations.LdhexThenHexOutReturnsTheDigest : Prop :=
  ∀ s : State, s.hexLen = 32 → (∀ k, k < 32 → isHex (s.hexIn k) = true) →
    ∃ t, exec .ldhex s = .next t ∧ ∀ k, k < 32 → t.readByte (addrAt 0x020 k) = lowerHex (s.hexIn k)

/-! ## The compression datapath -/

/-- R183: the message-word index of every step, the sequence the rule lists, and each group reading each word once. -/
def Obligations.MessageIndexSequence : Prop :=
  (∀ i, i < 64 → (msgIndex i).val =
    if i < 16 then i else if i < 32 then (5 * i + 1) % 16 else if i < 48 then (3 * i + 5) % 16 else 7 * i % 16) ∧
  (List.range 64).map (fun i => (msgIndex i).val) =
    [0, 1, 2, 3, 4, 5, 6, 7, 8, 9, 10, 11, 12, 13, 14, 15] ++ [1, 6, 11, 0, 5, 10, 15, 4, 9, 14, 3, 8, 13, 2, 7, 12] ++
    [5, 8, 11, 14, 1, 4, 7, 10, 13, 0, 3, 6, 9, 12, 15, 2] ++ [0, 7, 14, 5, 12, 3, 10, 1, 8, 15, 6, 13, 4, 11, 2, 9] ∧
  (∀ g, g < 4 → ((List.range 16).map (fun j => msgIndex (16 * g + j))).Nodup)

/-- R184: `rotl32` is the rule's formula, by 1 to 31 it moves bit `b` to bit `(b + n) mod 32`, and every step's amount lies
in 4 to 23. -/
def Obligations.RotationMovesBitsRound : Prop :=
  (∀ (x : Word) (n : Nat), 1 ≤ n → n ≤ 31 → rotl32 x n = (x <<< n) ||| (x >>> (32 - n))) ∧
  (∀ (x : Word) (n b : Nat), 1 ≤ n → n ≤ 31 → b < 32 → (rotl32 x n).getLsbD ((b + n) % 32) = x.getLsbD b) ∧
  (∀ i, i < 64 → 4 ≤ rotAmount i ∧ rotAmount i ≤ 23)

/-- R182, bit by bit: group 0 selects `c` or `d` by `b`, group 1 `b` or `c` by `d`, group 2 is the parity, group 3 is `c`
flipped where `b` is set or `d` is not. -/
def Obligations.MixingFunctionsBitwise : Prop :=
  ∀ (b c d : Word) (n : Nat), n < 32 →
    (mix 0 b c d).getLsbD n = (if b.getLsbD n then c.getLsbD n else d.getLsbD n) ∧
    (mix 1 b c d).getLsbD n = (if d.getLsbD n then b.getLsbD n else c.getLsbD n) ∧
    (mix 2 b c d).getLsbD n = ((b.getLsbD n != c.getLsbD n) != d.getLsbD n) ∧
    (mix 3 b c d).getLsbD n = (c.getLsbD n != (b.getLsbD n || !d.getLsbD n))

/-- R185 to R187: COMPRESS completes, from every state, with `H` the feed-forward of 64 steps on the sixteen words of BLK,
each step the rule's formula, and nothing else changed but the hidden working words and STATUS. -/
def Obligations.CompressRunsSixtyFourSteps : Prop :=
  ∀ (s : State) (w : Words) (v : Nat → Quad),
    (∀ k : Fin 16, w.get k =
      le32 (s.blk (4 * k)) (s.blk (4 * k + 1)) (s.blk (4 * k + 2)) (s.blk (4 * k + 3))) →
    v 0 = s.h →
    (∀ i, i < 64 → v (i + 1) =
      ⟨(v i).d,
       (v i).b + rotl32 (mix (i / 16) (v i).b (v i).c (v i).d + (v i).a + additive i + w.get (msgIndex i)) (rotAmount i),
       (v i).b, (v i).c⟩) →
    ∃ k : Work, exec .compress s = .next { s with
      h := ⟨s.h.a + (v 64).a, s.h.b + (v 64).b, s.h.c + (v 64).c, s.h.d + (v 64).d⟩
      work := k, pend := none, phase := .idle, status := ⟨false, true, s.status.bv, 0⟩ }

/-! ## The padding generator -/

/-- R150, R152: for a bit length that is a multiple of 8 the padded sequence is whole blocks exactly when the length is
consistent with the sequence; then, not exempt, it is the sequence, 0x80, `z` zeros and the length field, and exempt it
is the sequence itself. -/
def Obligations.ForgedPaddingIsWholeBlocks : Prop :=
  ∀ (x : List Byte) (n : Length), n.toNat % 8 = 0 →
    ((forgePadding x n).length % 64 = 0 ↔ n.toNat / 8 % 64 = x.length % 64) ∧
    (0 < n.toNat ∧ n.toNat % 512 = 0 → forgePadding x n = x) ∧
    (¬ (0 < n.toNat ∧ n.toNat % 512 = 0) → n.toNat / 8 % 64 = x.length % 64 →
      ∃ z, z < 64 ∧ (forgePadding x n).length = x.length + 1 + z + 8 ∧ (x.length + 1 + z) % 64 = 56 ∧
        (forgePadding x n).take x.length = x ∧ (forgePadding x n).getD x.length 0 = 0x80 ∧
        (∀ k, x.length < k → k < x.length + 1 + z → (forgePadding x n).getD k 0xFF = 0x00) ∧
        (forgePadding x n).drop (x.length + 1 + z) = le64 n)

/-- R154: `pad` gives whole blocks, at least one, and at least nine more bytes except for the exempt messages, which it
returns unchanged; for the messages a length field can describe (R151, R221). -/
def Obligations.PadGivesWholeBlocks : Prop :=
  ∀ m : List Byte, m.length < 2 ^ 61 →
    (pad m).length % 64 = 0 ∧ 64 ≤ (pad m).length ∧
    (¬ (0 < m.length ∧ m.length % 64 = 0) → m.length + 9 ≤ (pad m).length) ∧
    (0 < m.length → m.length % 64 = 0 → pad m = m)

/-- R155: padding a sequence is its whole blocks, then the padding of its tail; so the blocks are those of the head followed
by those of the padded tail. -/
def Obligations.PaddingActsOnTheTail : Prop :=
  ∀ (x : List Byte) (n : Length),
    forgePadding x n = headOf x ++ forgePadding (tailOf x) n ∧
    chunk64 (forgePadding x n) = chunk64 (headOf x) ++ chunk64 (forgePadding (tailOf x) n)

/-- R156, R158: PAD on operands that pass the checks completes with ERR 0, PADBLKS and every byte of PADBUF as the rule
gives them, no byte outside PADBUF changed, and nothing else but the hidden block index and STATUS. -/
def Obligations.PadWritesThePaddedTail : Prop :=
  ∀ s : State, s.mem.wf = true →
    s.tailLen.toNat ≤ 63 → s.length.toNat % 8 = 0 → s.length.toNat / 8 % 64 = s.tailLen.toNat →
    ∃ t, exec .pad s = .next t ∧
      t = { s with padBlks := t.padBlks, mem := t.mem, work := { s.work with j := t.work.j }, pend := none,
                   phase := .idle, status := ⟨false, true, s.status.bv, 0⟩ } ∧
      (∀ a, a < 0x100 ∨ 0x180 ≤ a → t.mem.read a = s.mem.read a) ∧
      (0 < s.length.toNat ∧ s.length.toNat % 512 = 0 → t.padBlks = 0 ∧ ∀ k, k < 128 → t.padBuf k = 0x00) ∧
      (¬ (0 < s.length.toNat ∧ s.length.toNat % 512 = 0) →
        t.padBlks = (if s.tailLen.toNat ≤ 55 then 1 else 2) ∧
        ∀ k, k < 128 → t.padBuf k =
          if k < s.tailLen.toNat then s.blk k
          else if k = s.tailLen.toNat then 0x80
          else if 64 * t.padBlks.toNat - 8 ≤ k ∧ k < 64 * t.padBlks.toNat then
            s.length.extractLsb' (8 * (k - (64 * t.padBlks.toNat - 8))) 8
          else 0x00)

/-- R157: PAD and FINAL complete with InvalidBlockSize(2), changing nothing but STATUS, when any of the three checks
holds. -/
def Obligations.PadAndFinalRejectInconsistentTail : Prop :=
  ∀ (i : Instr) (s : State), i = .pad ∨ i = .final →
    63 < s.tailLen.toNat ∨ s.length.toNat % 8 ≠ 0 ∨ s.length.toNat / 8 % 64 ≠ s.tailLen.toNat →
    exec i s = .next { s with pend := none, phase := .idle, status := ⟨false, true, s.status.bv, 2⟩ }

/-- R159: FINAL on operands that pass the checks completes with PAD's PADBUF and PADBLKS and with `H` compressed over the
0, 1 or 2 blocks of PADBUF in order; all else as PAD leaves it, but for the hidden working words. -/
def Obligations.FinalCompressesThePaddedTail : Prop :=
  ∀ s : State, s.tailLen.toNat ≤ 63 → s.length.toNat % 8 = 0 → s.length.toNat / 8 % 64 = s.tailLen.toNat →
    ∃ p t, exec .pad s = .next p ∧ exec .final s = .next t ∧ t = { p with h := t.h, work := t.work } ∧
      t.h = if 0 < s.length.toNat ∧ s.length.toNat % 512 = 0 then s.h
        else if s.tailLen.toNat ≤ 55 then compress s.h (p.padBlock 0)
        else compress (compress s.h (p.padBlock 0)) (p.padBlock 1)

/-- R160: FINAL leaves the `H`, PADBUF and PADBLKS that PAD leaves followed by one COMPRESS for each block of PADBUF,
copied into BLK, in order. `f` is any run of those commands. -/
def Obligations.FinalEqualsPadThenCompress : Prop :=
  ∀ (s p : State) (f : Nat → State), s.mem.wf = true →
    s.tailLen.toNat ≤ 63 → s.length.toNat % 8 = 0 → s.length.toNat / 8 % 64 = s.tailLen.toNat →
    exec .pad s = .next p → f 0 = p →
    (∀ j, j < p.padBlks.toNat → exec .compress ((f j).copyPadBlock j) = .next (f (j + 1))) →
    ∃ t, exec .final s = .next t ∧ t.h = (f p.padBlks.toNat).h ∧ t.padBlks = (f p.padBlks.toNat).padBlks ∧
      ∀ k, k < 128 → t.padBuf k = (f p.padBlks.toNat).padBuf k

/-- R161: after a successful PAD or FINAL the bytes of PADBUF from TAILLEN to the end of the last block are the same for any
two tails of the same LENGTH, and there are none in the exempt case. -/
def Obligations.GluePaddingDependsOnLengthOnly : Prop :=
  ∀ (i : Instr) (s u : State), i = .pad ∨ i = .final → s.mem.wf = true → u.mem.wf = true →
    s.length = u.length → s.tailLen.toNat ≤ 63 → s.length.toNat % 8 = 0 →
    s.length.toNat / 8 % 64 = s.tailLen.toNat → u.tailLen = s.tailLen →
    ∃ t r, exec i s = .next t ∧ exec i u = .next r ∧ t.padBlks = r.padBlks ∧
      (∀ k, s.tailLen.toNat ≤ k → k < 64 * t.padBlks.toNat → t.padBuf k = r.padBuf k) ∧
      (0 < s.length.toNat ∧ s.length.toNat % 512 = 0 → t.padBlks = 0)

/-! ## Reset, the invariant and whole-machine rules -/

/-- R281, with the values of R22 and R24 to R31: what reset leaves in every register the spec gives a value. -/
def Obligations.ResetValuesOfTheSpec : Prop :=
  State.reset.h = ⟨0x67452301, 0xefcdab89, 0x98badcfe, 0x10325476⟩ ∧
  (∀ k, k < 64 → State.reset.blk k = 0x00) ∧ (∀ k, k < 32 → State.reset.hexIn k = 0x00) ∧
  (∀ k, k < 128 → State.reset.padBuf k = 0x00) ∧ State.reset.tailLen = 0x00 ∧ State.reset.hexLen = 0x00 ∧
  State.reset.padBlks = 0x00 ∧ State.reset.length = 0 ∧ State.reset.status.toByte = 0x00 ∧
  State.reset.pend = none ∧ State.reset.phase = .idle

/-- R282: reset, BUSY or not, abandons the running command: nothing is pending and every register has its reset value. The
host and the schedule go on as they were (the model's choice, log 9). -/
def Obligations.ResetAbandonsTheCommand : Prop :=
  ∀ (s : State) (ts : List Turn), s.sched = .reset :: ts →
    ∃ t, step s = .next t ∧ t.h = ⟨0x67452301, 0xefcdab89, 0x98badcfe, 0x10325476⟩ ∧
      (∀ a, t.mem.read a = 0x00) ∧ t.tailLen = 0x00 ∧ t.hexLen = 0x00 ∧ t.padBlks = 0x00 ∧ t.length = 0 ∧
      t.status = ⟨false, false, false, 0⟩ ∧ t.pend = none ∧ t.phase = .idle ∧ t.host = s.host ∧ t.sched = ts

/-- The invariant, with the clauses that are the model's own (the phase, log 6; the canonical buffers, log 12), holds right after
reset. -/
def Obligations.ResetMeetsTheInvariant : Prop := State.reset.Inv

/-- Every step, by any agent under any schedule, keeps the invariant: BUSY exactly with a pending command (R32), DONE 0 while
busy (R33), a non-zero ERR only with DONE (R33, R35), legal ERR and PADBLKS (R30, R35), zeros after PADBUF's blocks (R29), and,
of the model's own choices, the buffers in canonical form and inside their windows (log 12), and the phase DECODE exactly with a
pending command and else IDLE (log 6). -/
def Obligations.StepKeepsTheInvariant : Prop := ∀ s t : State, s.Inv → step s = .next t → t.Inv

/-- R103: a pending command completes, or is abandoned by a scheduled reset, after at most the turns still scheduled and one
more, whatever the host does meanwhile. That the core moves once the schedule is used up is the model's weak fairness
(log 1). -/
def Obligations.PendingCommandEnds : Prop :=
  ∀ (s : State) (op : Byte), s.pend = some op →
    ∃ k t, k ≤ s.sched.length + 1 ∧ steps k s = .next t ∧ t.pend = none

/-- R285: a host that, while a command is busy, only reads or writes STATUS neither sets BV nor draws a free byte. -/
def Obligations.HazardKeepingHostMeetsNoHazard : Prop :=
  ∀ s t : State, s.hostKeepsHazard = true → s.status.bv = false → step s = .next t →
    t.status.bv = false ∧ t.draws = s.draws

/-- R38, R281: the hidden working words, whatever they hold, never reach anything a host can observe: two states that differ
only in them step to states that differ only in them. -/
def Obligations.HiddenWordsNeverObserved : Prop :=
  ∀ (s : State) (k : Work), ∃ t r, step s = .next t ∧ step { s with work := k } = .next r ∧ r.visible = t.visible

/-- R108: the reference sequencer, ticked from DECODE the number of phases R296 counts, leaves exactly the state of the
command's completion (R102), and until then BUSY and the rest of STATUS are as they were. The hidden words it leaves are
those the completion names (log 5 to log 8). -/
def Obligations.SequencerRefinesCompletion : Prop :=
  ∀ (s : State) (op : Byte), s.pend = some op → s.phase = .decode →
    s.completion op = .next (s.seqTicks (s.referenceTicks op)) ∧
    ∀ n, n < s.referenceTicks op → (s.seqTicks n).status = s.status ∧ (s.seqTicks n).pend = some op

/-! ## hash and extend -/

/-- R223: FINAL on the tail and bit length of a message, with `H` the compression of its whole blocks from IV, leaves the
state of `hash(m)`, and HEXOUT then reads its digest. -/
def Obligations.FinalCompletesTheHash : Prop :=
  ∀ (s : State) (m : List Byte), s.mem.wf = true → m.length < 2 ^ 61 →
    s.tailLen.toNat = m.length % 64 → s.length.toNat = 8 * m.length →
    (∀ k, k < m.length % 64 → s.blk k = (tailOf m).getD k 0) → s.h = compressAll initialState (headOf m) →
    ∃ t, exec .final s = .next t ∧ t.h = hashState m ∧
      ∀ k, k < 32 → t.readByte (addrAt 0x020 k) = (hashFunction m).getD k 0

/-- R222, R223, R224: run on the machine from an idle core, under every schedule that holds no reset, with any number of polls,
the host program of `hash` ends with the digest of `hash(m)` read from HEXOUT, for every message it accepts; and `digestOf`, with
any BV, gives both forms of the digest of `H` and changes nothing. The schedule, the loaded program and its bound of steps are
the model's (log 1, log 2, log 15). -/
def Obligations.HashProgramReadsTheDigest : Prop :=
  (∀ (c : Config.Params) (m : List Byte) (s : State), c.wf → m.length ≤ c.maxMsgBytes →
    s.mem.wf = true → s.pend = none → s.status.busy = false → s.status.bv = false → Turn.reset ∉ s.sched →
    ∃ t, procHash c m s = .next (t, .value (hashFunction m)) ∧ t.h = hashState m ∧
      t.status = ⟨false, true, false, 0⟩) ∧
  (∀ s : State, s.pend = none → s.status.busy = false → Turn.reset ∉ s.sched →
    ∃ t u, procDigestHex s = .next (t, .value (hexOut s.h)) ∧ t = { s with host := t.host, sched := t.sched } ∧
      procDigestBytes s = .next (u, .value (digestBytes s.h)) ∧ u = { s with host := u.host, sched := u.sched })

/-- R236, of the function `extend`: from the digest of an unknown secret and its length alone it gives the payload and the digest
that `hash` gives for the secret followed by the payload's bytes after it. Where the bound on the lengths admits a payload of 2^61
bytes or more (padding adds up to 72), for which R221 and D18 give no wrap rule, the equation is about the model's own wrap
modulo 2^64 in `pad` and `extendBits` (log 11). `ExtendProgramComputesExtend` is about the host program. -/
def Obligations.LengthExtensionForgesTheHash : Prop :=
  ∀ secret base ext : List Byte, base.length = secret.length → base.length + 64 + ext.length < 2 ^ 61 →
    extendFunction base (hashFunction secret) ext =
      some (hexOfBytes (pad base ++ ext), hashFunction (secret ++ (pad base ++ ext).drop base.length))

/-- R230 to R235, R239: run on the machine from an idle core, under every schedule that holds no reset, with any number of polls,
the host program of `extend` gives the payload and the forged digest of the function, for every lengths it accepts; for a digest
string that is not 32 hexadecimal characters it stops with InvalidDigestFormat(1). A string past WRHEX's 255 characters is an
ill-formed line (R86, log 17), and a message too long is refused (R221, log 11). The schedule, the loaded programs and their
bound of steps are the model's (log 1, log 2, log 15). -/
def Obligations.ExtendProgramComputesExtend : Prop :=
  ∀ (c : Config.Params) (base digest ext : List Byte) (s : State), c.wf →
    s.mem.wf = true → s.pend = none → s.status.busy = false → s.status.bv = false → Turn.reset ∉ s.sched →
    (base.length + 64 + ext.length ≤ c.maxMsgBytes ∧ (pad base ++ ext).length < 2 ^ 61 →
      (digest.length = 32 → (∀ k, k < 32 → isHex (digest.getD k 0) = true) →
        ∃ t payload forged, extendFunction base digest ext = some (payload, forged) ∧
          procExtend c base digest ext s = .next (t, .value (payload, forged)) ∧ t.status = ⟨false, true, false, 0⟩) ∧
      (digest.length ≤ 255 → digest.length ≠ 32 ∨ (∃ k, k < 32 ∧ isHex (digest.getD k 0) = false) →
        procExtend c base digest ext s = .fault (.programStopped 1)) ∧
      (255 < digest.length → procExtend c base digest ext s = .refused .illFormedProgram)) ∧
    (¬ (base.length + 64 + ext.length ≤ c.maxMsgBytes ∧ (pad base ++ ext).length < 2 ^ 61) →
      procExtend c base digest ext s = .refused .messageTooLong)

/-- R230: `extend`'s forged digest, and its payload after the first `Lb` bytes, depend on the assumed base only through its
length `Lb`. For payloads of 2^61 bytes or more, which the procedure refuses, this is about the model's own wrap (log 11). -/
def Obligations.ExtendDependsOnBaseLengthOnly : Prop :=
  ∀ b u digest ext : List Byte, b.length = u.length →
    (extendFunction b digest ext).map Prod.snd = (extendFunction u digest ext).map Prod.snd ∧
    (extendPayload b ext).drop b.length = (extendPayload u ext).drop u.length
end

