-- ==== Sys2Proof/Laws/Bytes.lean ====
section
/-! SUPPORT. Bytes of words: reading a byte after setting one, for the STATE window (R122) and LENGTH (R26), and the words
of a quadruple. -/

namespace Sys2Proof.Machine

/-- A bit of byte `k`. -/
theorem byteAt_getLsbD {n : Nat} (x : BitVec n) (k b : Nat) :
    (byteAt x k).getLsbD b = (decide (b < 8) && x.getLsbD (8 * k + b)) := by
  simp [byteAt, BitVec.getLsbD_extractLsb']

/-- A bit of a value with one byte set. -/
theorem setByteAt_getLsbD {n : Nat} (x : BitVec n) (k : Nat) (v : Byte) (b : Nat) (hk : 8 * (k + 1) ≤ n) :
    (setByteAt x k v).getLsbD b =
      if 8 * k ≤ b ∧ b < 8 * k + 8 then v.getLsbD (b - 8 * k) else x.getLsbD b := by
  by_cases hb : b < n
  · by_cases h1 : 8 * k ≤ b
    · by_cases h2 : b < 8 * k + 8
      · have hc : (0xFF : Byte).getLsbD (b - 8 * k) = true := by
          have : b - 8 * k < 8 := by omega
          interval_cases b - 8 * k <;> rfl
        simp only [setByteAt, BitVec.getLsbD_or, BitVec.getLsbD_and, BitVec.getLsbD_not, BitVec.getLsbD_shiftLeft,
          BitVec.getLsbD_setWidth, hc, if_pos (And.intro h1 h2)]
        simp [hb, show ¬ b < 8 * k by omega, show b - 8 * k < n by omega]
      · have hc : (0xFF : Byte).getLsbD (b - 8 * k) = false := BitVec.getLsbD_of_ge _ _ (by omega)
        have hv : v.getLsbD (b - 8 * k) = false := BitVec.getLsbD_of_ge _ _ (by omega)
        rw [if_neg (by omega)]
        simp only [setByteAt, BitVec.getLsbD_or, BitVec.getLsbD_and, BitVec.getLsbD_not, BitVec.getLsbD_shiftLeft,
          BitVec.getLsbD_setWidth, hc, hv]
        simp [hb]
    · rw [if_neg (by omega)]
      simp [setByteAt, hb, show b < 8 * k by omega]
  · have hx : x.getLsbD b = false := BitVec.getLsbD_of_ge _ _ (by omega)
    rw [BitVec.getLsbD_of_ge _ _ (by omega), if_neg (by omega), hx]

/-- Reading a byte after setting one. -/
theorem byteAt_setByteAt {n : Nat} (x : BitVec n) (k j : Nat) (v : Byte) (hk : 8 * (k + 1) ≤ n) :
    byteAt (setByteAt x k v) j = if j = k then v else byteAt x j := by
  apply BitVec.eq_of_getLsbD_eq
  intro b hb
  rw [byteAt_getLsbD, setByteAt_getLsbD x k v _ hk]
  by_cases hjk : j = k
  · rw [if_pos hjk, if_pos (by omega), show 8 * j + b - 8 * k = b by omega]
    simp [hb]
  · rw [if_neg hjk, if_neg (by omega), byteAt_getLsbD]

/-- A word of a quadruple after setting one. -/
theorem quadGet_quadSet (q : Quad) (w j : Nat) (x : Word) (hw : w < 4) (hj : j < 4) :
    quadGet (quadSet q w x) j = if j = w then x else quadGet q j := by
  interval_cases w <;> interval_cases j <;> rfl

/-- A digest byte after setting one (R122). -/
theorem digestByte_setDigestByte (h : Quad) (j k : Nat) (v : Byte) (hj : j < 16) (hk : k < 16) :
    digestByte (setDigestByte h j v) k = if k = j then v else digestByte h k := by
  unfold digestByte setDigestByte
  rw [quadGet_quadSet _ _ _ _ (by omega) (by omega)]
  by_cases hw : k / 4 = j / 4
  · rw [if_pos hw, byteAt_setByteAt _ _ _ _ (by omega)]
    by_cases hb : k % 4 = j % 4
    · rw [if_pos hb, if_pos (by omega)]
    · rw [if_neg hb, if_neg (by omega), hw]
  · rw [if_neg hw, if_neg (by omega)]

/-- The digest bytes of a state are those of its index form (R120). -/
theorem quad_ext_of_words {g h : Quad} (e : ∀ w, w < 4 → quadGet g w = quadGet h w) : g = h := by
  obtain ⟨a, b, c, d⟩ := g
  obtain ⟨a', b', c', d'⟩ := h
  have h0 := e 0 (by omega)
  have h1 := e 1 (by omega)
  have h2 := e 2 (by omega)
  have h3 := e 3 (by omega)
  simp only [quadGet] at h0 h1 h2 h3
  rw [h0, h1, h2, h3]

/-- A word is its four bytes. -/
theorem word_ext_of_bytes {x y : Word} (h : ∀ k, k < 4 → byteAt x k = byteAt y k) : x = y := by
  apply BitVec.eq_of_getLsbD_eq
  intro b hb
  have := congrArg (fun z => z.getLsbD (b % 8)) (h (b / 8) (by omega))
  simp only [byteAt_getLsbD] at this
  have e : 8 * (b / 8) + b % 8 = b := by omega
  rw [e] at this
  simpa [show b % 8 < 8 by omega] using this

/-- A length is its eight bytes. -/
theorem length_ext_of_bytes {x y : Length} (h : ∀ k, k < 8 → byteAt x k = byteAt y k) : x = y := by
  apply BitVec.eq_of_getLsbD_eq
  intro b hb
  have := congrArg (fun z => z.getLsbD (b % 8)) (h (b / 8) (by omega))
  simp only [byteAt_getLsbD] at this
  have e : 8 * (b / 8) + b % 8 = b := by omega
  rw [e] at this
  simpa [show b % 8 < 8 by omega] using this

/-- The bytes of `LE32` (R12). -/
theorem byteAt_le32 (b0 b1 b2 b3 : Byte) (k : Nat) (hk : k < 4) :
    byteAt (le32 b0 b1 b2 b3) k = [b0, b1, b2, b3].getD k 0 := by
  interval_cases k <;>
  · apply BitVec.eq_of_getLsbD_eq
    intro b hb
    interval_cases b <;> simp [byteAt, le32]

/-- A state is its sixteen digest bytes. -/
theorem quad_ext_of_digest {g h : Quad} (e : ∀ j, j < 16 → digestByte g j = digestByte h j) : g = h := by
  apply quad_ext_of_words
  intro w hw
  apply word_ext_of_bytes
  intro k hk
  have := e (4 * w + k) (by omega)
  simp only [digestByte, show (4 * w + k) / 4 = w by omega, show (4 * w + k) % 4 = k by omega] at this
  exact this

theorem digestByte_quadOfBytes (e : Nat → Byte) (j : Nat) (hj : j < 16) : digestByte (quadOfBytes e) j = e j := by
  interval_cases j <;> simp only [digestByte, quadOfBytes, quadGet] <;> simp [byteAt_le32]

/-- A byte's two characters are hex digits and give the byte back (R13). -/
theorem hexVal_hexChars : ∀ x : Byte, isHex (hexChar (x.extractLsb' 4 4)) = true ∧
    isHex (hexChar (x.extractLsb' 0 4)) = true ∧
    (hexVal (hexChar (x.extractLsb' 4 4)) <<< 4) ||| hexVal (hexChar (x.extractLsb' 0 4)) = x := by decide +kernel

/-- The canonical parts of an initial state: INIT's value is reset's (R22, R281). -/
theorem initialState_eq_reset : initialState = State.reset.h := rfl

@[simp] theorem hexOut_length (h : Quad) : (hexOut h).length = 32 := by simp [hexOut]

@[simp] theorem le64_length (n : Length) : (le64 n).length = 8 := by simp [le64]

end Sys2Proof.Machine
end

