-- ==== Sys2Proof/Laws/Memory.lean ====
section
/-! SUPPORT. The buffers: reading after writing, the canonical form, and that canonical memories that read alike are
equal. -/

namespace Sys2Proof.Machine.Memory

@[simp] theorem read_nil (a : Nat) : Memory.read [] a = unlistedByte := rfl

theorem read_cons (b : Nat) (w : Byte) (m : Memory) (a : Nat) :
    Memory.read ((b, w) :: m) a = if a = b then w else Memory.read m a := rfl

/-- A canonical memory above `low` lists nothing below it. -/
theorem read_below {low : Nat} {m : Memory} (h : wfAbove low m = true) {a : Nat} (ha : a < low) :
    m.read a = unlistedByte := by
  induction m generalizing low with
  | nil => rfl
  | cons c m ih =>
    obtain ⟨b, w⟩ := c
    simp only [wfAbove, Bool.and_eq_true, decide_eq_true_eq] at h
    rw [read_cons, if_neg (by omega)]
    exact ih h.2 (by omega)

/-- The canonical form only depends on the lower bound through what is listed. -/
theorem wfAbove_mono {low low' : Nat} {m : Memory} (h : wfAbove low m = true) (hl : low' ≤ low) :
    wfAbove low' m = true := by
  cases m with
  | nil => rfl
  | cons c m =>
    obtain ⟨b, w⟩ := c
    simp only [wfAbove, Bool.and_eq_true, decide_eq_true_eq] at h ⊢
    exact ⟨⟨by omega, h.1.2⟩, h.2⟩

theorem read_cell_other (b : Nat) (v : Byte) (m : Memory) {a : Nat} (h : a ≠ b) :
    (cell b v m).read a = m.read a := by
  unfold cell
  split
  · rfl
  · rw [read_cons, if_neg h]

/-- A write leaves every other byte alone, canonical or not. -/
theorem read_write_other (m : Memory) (a : Nat) (v : Byte) {b : Nat} (h : b ≠ a) :
    (m.write a v).read b = m.read b := by
  induction m with
  | nil => simp only [write]; exact read_cell_other a v [] h
  | cons c m ih =>
    obtain ⟨k, w⟩ := c
    simp only [write]
    split
    · exact read_cell_other a v _ h
    · split
      · rename_i hak
        rw [read_cell_other a v _ h, read_cons, if_neg (by omega)]
      · rw [read_cons, read_cons, ih]

theorem read_cell_same {low a : Nat} {v : Byte} {m : Memory} (h : wfAbove low m = true) (ha : a < low) :
    (cell a v m).read a = v := by
  unfold cell
  split
  · rename_i hv
    rw [read_below h ha, hv]
  · rw [read_cons, if_pos rfl]

theorem read_write_same_above {low : Nat} {m : Memory} (h : wfAbove low m = true) (a : Nat) (v : Byte) :
    (m.write a v).read a = v := by
  induction m generalizing low with
  | nil => exact read_cell_same (low := a + 1) (m := []) rfl (by omega)
  | cons c m ih =>
    obtain ⟨k, w⟩ := c
    have hk := h
    simp only [wfAbove, Bool.and_eq_true, decide_eq_true_eq] at hk
    simp only [write]
    split
    · rename_i hak
      exact read_cell_same (low := k) (by simp [wfAbove, hk.1.2, hk.2]) hak
    · split
      · rename_i hak
        exact read_cell_same hk.2 (by omega)
      · rename_i hak
        rw [read_cons, if_neg hak]
        exact ih hk.2

/-- A byte written to a canonical memory reads back. -/
@[simp] theorem read_write_same {m : Memory} (h : m.wf = true) (a : Nat) (v : Byte) : (m.write a v).read a = v :=
  read_write_same_above h a v

/-- Reading after one write to a canonical memory. -/
theorem read_write {m : Memory} (h : m.wf = true) (a : Nat) (v : Byte) (b : Nat) :
    (m.write a v).read b = if b = a then v else m.read b := by
  split
  · rename_i hb; rw [hb, read_write_same h]
  · rename_i hb; exact read_write_other m a v hb

theorem cell_wfAbove {low a : Nat} {v : Byte} {m : Memory} (h : wfAbove (a + 1) m = true) (ha : low ≤ a) :
    wfAbove low (cell a v m) = true := by
  unfold cell
  split
  · exact wfAbove_mono h (by omega)
  · rename_i hv
    simp [wfAbove, ha, hv, h]

theorem write_wfAbove {low : Nat} {m : Memory} (h : wfAbove low m = true) {a : Nat} (ha : low ≤ a) (v : Byte) :
    wfAbove low (m.write a v) = true := by
  induction m generalizing low with
  | nil => exact cell_wfAbove (m := []) rfl ha
  | cons c m ih =>
    obtain ⟨k, w⟩ := c
    have hk := h
    simp only [wfAbove, Bool.and_eq_true, decide_eq_true_eq] at hk
    simp only [write]
    split
    · rename_i hak
      exact cell_wfAbove (by simp [wfAbove, hk.1.2, hk.2]; omega) ha
    · split
      · rename_i hak
        exact cell_wfAbove (hak ▸ hk.2) ha
      · rename_i h1 h2
        simp only [wfAbove, Bool.and_eq_true, decide_eq_true_eq]
        exact ⟨hk.1, ih hk.2 (by omega)⟩

/-- Every write keeps the canonical form. -/
@[simp] theorem write_wf {m : Memory} (h : m.wf = true) (a : Nat) (v : Byte) : (m.write a v).wf = true :=
  write_wfAbove h (Nat.zero_le a) v

@[simp] theorem writeRun_nil (m : Memory) (a : Nat) : m.writeRun a [] = m := by with_unfolding_all rfl

theorem writeRun_cons (m : Memory) (a : Nat) (v : Byte) (p : List Byte) :
    m.writeRun a (v :: p) = (m.write a v).writeRun (a + 1) p := by with_unfolding_all rfl

/-- Every run of writes keeps the canonical form. -/
@[simp] theorem writeRun_wf {m : Memory} (h : m.wf = true) (a : Nat) (p : List Byte) : (m.writeRun a p).wf = true := by
  induction p generalizing m a with
  | nil => rwa [writeRun_nil]
  | cons v p ih =>
    rw [writeRun_cons]
    exact ih (write_wf h a v) (a + 1)

/-- A run of writes leaves the bytes outside it alone, canonical or not. -/
theorem read_writeRun_outside (m : Memory) (a : Nat) (p : List Byte) {b : Nat} (h : b < a ∨ a + p.length ≤ b) :
    (m.writeRun a p).read b = m.read b := by
  induction p generalizing m a with
  | nil => rw [writeRun_nil]
  | cons v p ih =>
    simp only [List.length_cons] at h
    rw [writeRun_cons, ih _ _ (by omega), read_write_other _ _ _ (by omega)]

/-- A run of writes to a canonical memory reads back. -/
theorem read_writeRun_inside {m : Memory} (h : m.wf = true) (a : Nat) (p : List Byte) {k : Nat} (hk : k < p.length) :
    (m.writeRun a p).read (a + k) = p.getD k 0 := by
  induction p generalizing m a k with
  | nil => simp at hk
  | cons v p ih =>
    rw [writeRun_cons]
    cases k with
    | zero =>
      rw [read_writeRun_outside _ _ _ (by omega), Nat.add_zero, read_write_same h, List.getD_cons_zero]
    | succ k =>
      rw [show a + (k + 1) = a + 1 + k by omega, ih (write_wf h a v) (a + 1) (by simpa using hk),
        List.getD_cons_succ]

theorem cell_inBuffers {a : Nat} {v : Byte} {m : Memory} (h : inBuffers m = true) (ha : isBufferAddr a = true) :
    inBuffers (cell a v m) = true := by
  unfold cell
  split
  · exact h
  · simpa [inBuffers, ha] using h

/-- A write to a buffer address keeps every cell inside the buffers. -/
theorem write_inBuffers {m : Memory} (h : inBuffers m = true) {a : Nat} (ha : isBufferAddr a = true) (v : Byte) :
    inBuffers (m.write a v) = true := by
  induction m with
  | nil => exact cell_inBuffers rfl ha
  | cons c m ih =>
    obtain ⟨k, w⟩ := c
    have hm : isBufferAddr k = true ∧ inBuffers m = true := by simpa [inBuffers] using h
    simp only [write]
    split
    · exact cell_inBuffers h ha
    · split
      · exact cell_inBuffers hm.2 ha
      · have := ih hm.2
        simp only [inBuffers, List.all_cons, Bool.and_eq_true] at this ⊢
        exact ⟨hm.1, this⟩

/-- A run of writes inside the buffers keeps every cell inside them. -/
theorem writeRun_inBuffers {m : Memory} (h : inBuffers m = true) (a : Nat) (p : List Byte)
    (ha : ∀ k, k < p.length → isBufferAddr (a + k) = true) : inBuffers (m.writeRun a p) = true := by
  induction p generalizing m a with
  | nil => rwa [writeRun_nil]
  | cons v p ih =>
    rw [writeRun_cons]
    refine ih (write_inBuffers h (ha 0 (by simp)) v) (a + 1) (fun k hk => ?_)
    have := ha (k + 1) (by simpa using hk)
    rwa [show a + 1 + k = a + (k + 1) by omega]

theorem ext_above {low : Nat} {m n : Memory} (hm : wfAbove low m = true) (hn : wfAbove low n = true)
    (h : ∀ a, m.read a = n.read a) : m = n := by
  induction m generalizing n low with
  | nil =>
    cases n with
    | nil => rfl
    | cons c n =>
      obtain ⟨b, w⟩ := c
      simp only [wfAbove, Bool.and_eq_true, decide_eq_true_eq] at hn
      have := h b
      rw [read_nil, read_cons, if_pos rfl] at this
      exact absurd this.symm hn.1.2
  | cons c m ih =>
    obtain ⟨b, w⟩ := c
    have hb := hm
    simp only [wfAbove, Bool.and_eq_true, decide_eq_true_eq] at hb
    cases n with
    | nil =>
      have := h b
      rw [read_nil, read_cons, if_pos rfl] at this
      exact absurd this hb.1.2
    | cons d n =>
      obtain ⟨k, x⟩ := d
      have hk := hn
      simp only [wfAbove, Bool.and_eq_true, decide_eq_true_eq] at hk
      rcases Nat.lt_trichotomy b k with hlt | heq | hgt
      · have := h b
        rw [read_cons, if_pos rfl, read_cons, if_neg (by omega), read_below hk.2 (by omega)] at this
        exact absurd this hb.1.2
      · subst heq
        have hw : w = x := by
          have := h b
          rwa [read_cons, if_pos rfl, read_cons, if_pos rfl] at this
        rw [hw, ih hb.2 hk.2]
        intro a
        by_cases ha : a = b
        · rw [ha, read_below hb.2 (by omega), read_below hk.2 (by omega)]
        · have := h a
          rwa [read_cons, if_neg ha, read_cons, if_neg ha] at this
      · have := h k
        rw [read_cons, if_neg (by omega), read_below hb.2 (by omega), read_cons, if_pos rfl] at this
        exact absurd this.symm hk.1.2

/-- Canonical memories that read alike are equal data. -/
theorem ext_of_wf {m n : Memory} (hm : m.wf = true) (hn : n.wf = true) (h : ∀ a, m.read a = n.read a) : m = n :=
  ext_above hm hn h

end Sys2Proof.Machine.Memory
end

