-- ==== Sys2Proof/Laws/State.lean ====
section
/-! SUPPORT. One lemma per field per named update of State, and per field of STATUS, so that no proof unfolds a record
update. -/

namespace Sys2Proof.Machine

@[simp] theorem issue_h (s : State) (op : Byte) : (s.issue op).h = s.h := rfl
@[simp] theorem issue_tailLen (s : State) (op : Byte) : (s.issue op).tailLen = s.tailLen := rfl
@[simp] theorem issue_hexLen (s : State) (op : Byte) : (s.issue op).hexLen = s.hexLen := rfl
@[simp] theorem issue_padBlks (s : State) (op : Byte) : (s.issue op).padBlks = s.padBlks := rfl
@[simp] theorem issue_length (s : State) (op : Byte) : (s.issue op).length = s.length := rfl
@[simp] theorem issue_mem (s : State) (op : Byte) : (s.issue op).mem = s.mem := rfl
@[simp] theorem issue_status (s : State) (op : Byte) : (s.issue op).status = s.status.issue := rfl
@[simp] theorem issue_pend (s : State) (op : Byte) : (s.issue op).pend = some op := rfl
@[simp] theorem issue_phase (s : State) (op : Byte) : (s.issue op).phase = .decode := rfl
@[simp] theorem issue_work (s : State) (op : Byte) : (s.issue op).work = s.work := rfl
@[simp] theorem issue_host (s : State) (op : Byte) : (s.issue op).host = s.host := rfl
@[simp] theorem issue_sched (s : State) (op : Byte) : (s.issue op).sched = s.sched := rfl
@[simp] theorem issue_draws (s : State) (op : Byte) : (s.issue op).draws = s.draws := rfl

@[simp] theorem complete_h (s : State) (c : Code) : (s.complete c).h = s.h := rfl
@[simp] theorem complete_tailLen (s : State) (c : Code) : (s.complete c).tailLen = s.tailLen := rfl
@[simp] theorem complete_hexLen (s : State) (c : Code) : (s.complete c).hexLen = s.hexLen := rfl
@[simp] theorem complete_padBlks (s : State) (c : Code) : (s.complete c).padBlks = s.padBlks := rfl
@[simp] theorem complete_length (s : State) (c : Code) : (s.complete c).length = s.length := rfl
@[simp] theorem complete_mem (s : State) (c : Code) : (s.complete c).mem = s.mem := rfl
@[simp] theorem complete_status (s : State) (c : Code) : (s.complete c).status = s.status.complete c := rfl
@[simp] theorem complete_pend (s : State) (c : Code) : (s.complete c).pend = none := rfl
@[simp] theorem complete_phase (s : State) (c : Code) : (s.complete c).phase = .idle := rfl
@[simp] theorem complete_work (s : State) (c : Code) : (s.complete c).work = s.work := rfl
@[simp] theorem complete_host (s : State) (c : Code) : (s.complete c).host = s.host := rfl
@[simp] theorem complete_sched (s : State) (c : Code) : (s.complete c).sched = s.sched := rfl
@[simp] theorem complete_draws (s : State) (c : Code) : (s.complete c).draws = s.draws := rfl

@[simp] theorem withH_h (s : State) (g : Quad) : (s.withH g).h = g := rfl
@[simp] theorem withH_tailLen (s : State) (g : Quad) : (s.withH g).tailLen = s.tailLen := rfl
@[simp] theorem withH_hexLen (s : State) (g : Quad) : (s.withH g).hexLen = s.hexLen := rfl
@[simp] theorem withH_padBlks (s : State) (g : Quad) : (s.withH g).padBlks = s.padBlks := rfl
@[simp] theorem withH_length (s : State) (g : Quad) : (s.withH g).length = s.length := rfl
@[simp] theorem withH_mem (s : State) (g : Quad) : (s.withH g).mem = s.mem := rfl
@[simp] theorem withH_status (s : State) (g : Quad) : (s.withH g).status = s.status := rfl
@[simp] theorem withH_pend (s : State) (g : Quad) : (s.withH g).pend = s.pend := rfl
@[simp] theorem withH_phase (s : State) (g : Quad) : (s.withH g).phase = s.phase := rfl
@[simp] theorem withH_work (s : State) (g : Quad) : (s.withH g).work = s.work := rfl
@[simp] theorem withH_host (s : State) (g : Quad) : (s.withH g).host = s.host := rfl
@[simp] theorem withH_sched (s : State) (g : Quad) : (s.withH g).sched = s.sched := rfl
@[simp] theorem withH_draws (s : State) (g : Quad) : (s.withH g).draws = s.draws := rfl

@[simp] theorem withWork_h (s : State) (k : Work) : (s.withWork k).h = s.h := rfl
@[simp] theorem withWork_tailLen (s : State) (k : Work) : (s.withWork k).tailLen = s.tailLen := rfl
@[simp] theorem withWork_hexLen (s : State) (k : Work) : (s.withWork k).hexLen = s.hexLen := rfl
@[simp] theorem withWork_padBlks (s : State) (k : Work) : (s.withWork k).padBlks = s.padBlks := rfl
@[simp] theorem withWork_length (s : State) (k : Work) : (s.withWork k).length = s.length := rfl
@[simp] theorem withWork_mem (s : State) (k : Work) : (s.withWork k).mem = s.mem := rfl
@[simp] theorem withWork_status (s : State) (k : Work) : (s.withWork k).status = s.status := rfl
@[simp] theorem withWork_pend (s : State) (k : Work) : (s.withWork k).pend = s.pend := rfl
@[simp] theorem withWork_phase (s : State) (k : Work) : (s.withWork k).phase = s.phase := rfl
@[simp] theorem withWork_work (s : State) (k : Work) : (s.withWork k).work = k := rfl
@[simp] theorem withWork_host (s : State) (k : Work) : (s.withWork k).host = s.host := rfl
@[simp] theorem withWork_sched (s : State) (k : Work) : (s.withWork k).sched = s.sched := rfl
@[simp] theorem withWork_draws (s : State) (k : Work) : (s.withWork k).draws = s.draws := rfl

theorem withH_eq (s : State) (g : Quad) : s.withH g = { s with h := g } := rfl
theorem withWork_eq (s : State) (k : Work) : s.withWork k = { s with work := k } := rfl
theorem complete_eq (s : State) (c : Code) :
    s.complete c = { s with pend := none, status := ⟨false, true, s.status.bv, c⟩, phase := .idle } := rfl

/-- A completion forgets the phase before it. -/
@[simp] theorem goto_complete (s : State) (p : Phase) (c : Code) : (s.goto p).complete c = s.complete c := rfl
@[simp] theorem goto_goto (s : State) (p q : Phase) : (s.goto p).goto q = s.goto q := rfl
@[simp] theorem withWork_withWork (s : State) (k l : Work) : (s.withWork k).withWork l = s.withWork l := rfl
@[simp] theorem withH_withH (s : State) (g i : Quad) : (s.withH g).withH i = s.withH i := rfl
theorem goto_withH (s : State) (p : Phase) (g : Quad) : (s.goto p).withH g = (s.withH g).goto p := rfl
theorem goto_withWork (s : State) (p : Phase) (k : Work) : (s.goto p).withWork k = (s.withWork k).goto p := rfl
theorem withWork_withH (s : State) (k : Work) (g : Quad) : (s.withWork k).withH g = (s.withH g).withWork k := rfl

/-! The buffers see the memory alone. -/

@[simp] theorem withH_blk (s : State) (g : Quad) : (s.withH g).blk = s.blk := rfl
@[simp] theorem withH_hexIn (s : State) (g : Quad) : (s.withH g).hexIn = s.hexIn := rfl
@[simp] theorem withH_padBuf (s : State) (g : Quad) : (s.withH g).padBuf = s.padBuf := rfl
@[simp] theorem withH_padBlock (s : State) (g : Quad) : (s.withH g).padBlock = s.padBlock := rfl
@[simp] theorem withWork_blk (s : State) (k : Work) : (s.withWork k).blk = s.blk := rfl
@[simp] theorem withWork_hexIn (s : State) (k : Work) : (s.withWork k).hexIn = s.hexIn := rfl
@[simp] theorem withWork_padBuf (s : State) (k : Work) : (s.withWork k).padBuf = s.padBuf := rfl
@[simp] theorem withWork_padBlock (s : State) (k : Work) : (s.withWork k).padBlock = s.padBlock := rfl
@[simp] theorem complete_blk (s : State) (c : Code) : (s.complete c).blk = s.blk := rfl
@[simp] theorem complete_hexIn (s : State) (c : Code) : (s.complete c).hexIn = s.hexIn := rfl
@[simp] theorem complete_padBuf (s : State) (c : Code) : (s.complete c).padBuf = s.padBuf := rfl
@[simp] theorem complete_padBlock (s : State) (c : Code) : (s.complete c).padBlock = s.padBlock := rfl
@[simp] theorem goto_blk (s : State) (p : Phase) : (s.goto p).blk = s.blk := rfl
@[simp] theorem goto_hexIn (s : State) (p : Phase) : (s.goto p).hexIn = s.hexIn := rfl
@[simp] theorem goto_padBuf (s : State) (p : Phase) : (s.goto p).padBuf = s.padBuf := rfl
@[simp] theorem goto_padBlock (s : State) (p : Phase) : (s.goto p).padBlock = s.padBlock := rfl
@[simp] theorem issue_blk (s : State) (op : Byte) : (s.issue op).blk = s.blk := rfl
@[simp] theorem issue_hexIn (s : State) (op : Byte) : (s.issue op).hexIn = s.hexIn := rfl
@[simp] theorem issue_padBuf (s : State) (op : Byte) : (s.issue op).padBuf = s.padBuf := rfl
@[simp] theorem issue_padBlock (s : State) (op : Byte) : (s.issue op).padBlock = s.padBlock := rfl

@[simp] theorem withPad_h (s : State) (q : Nat) (p : List Byte) : (s.withPad q p).h = s.h := rfl
@[simp] theorem withPad_tailLen (s : State) (q : Nat) (p : List Byte) : (s.withPad q p).tailLen = s.tailLen := rfl
@[simp] theorem withPad_hexLen (s : State) (q : Nat) (p : List Byte) : (s.withPad q p).hexLen = s.hexLen := rfl
@[simp] theorem withPad_padBlks (s : State) (q : Nat) (p : List Byte) : (s.withPad q p).padBlks = BitVec.ofNat 8 q := rfl
@[simp] theorem withPad_length (s : State) (q : Nat) (p : List Byte) : (s.withPad q p).length = s.length := rfl
@[simp] theorem withPad_mem (s : State) (q : Nat) (p : List Byte) : (s.withPad q p).mem = s.mem.writeRun padBufBase p := rfl
@[simp] theorem withPad_status (s : State) (q : Nat) (p : List Byte) : (s.withPad q p).status = s.status := rfl
@[simp] theorem withPad_pend (s : State) (q : Nat) (p : List Byte) : (s.withPad q p).pend = s.pend := rfl
@[simp] theorem withPad_phase (s : State) (q : Nat) (p : List Byte) : (s.withPad q p).phase = s.phase := rfl
@[simp] theorem withPad_work (s : State) (q : Nat) (p : List Byte) : (s.withPad q p).work = s.work := rfl
@[simp] theorem withPad_host (s : State) (q : Nat) (p : List Byte) : (s.withPad q p).host = s.host := rfl
@[simp] theorem withPad_sched (s : State) (q : Nat) (p : List Byte) : (s.withPad q p).sched = s.sched := rfl
@[simp] theorem withPad_draws (s : State) (q : Nat) (p : List Byte) : (s.withPad q p).draws = s.draws := rfl

@[simp] theorem withProg_h (s : State) (p : List HostOp) : (s.withProg p).h = s.h := rfl
@[simp] theorem withProg_tailLen (s : State) (p : List HostOp) : (s.withProg p).tailLen = s.tailLen := rfl
@[simp] theorem withProg_hexLen (s : State) (p : List HostOp) : (s.withProg p).hexLen = s.hexLen := rfl
@[simp] theorem withProg_padBlks (s : State) (p : List HostOp) : (s.withProg p).padBlks = s.padBlks := rfl
@[simp] theorem withProg_length (s : State) (p : List HostOp) : (s.withProg p).length = s.length := rfl
@[simp] theorem withProg_mem (s : State) (p : List HostOp) : (s.withProg p).mem = s.mem := rfl
@[simp] theorem withProg_status (s : State) (p : List HostOp) : (s.withProg p).status = s.status := rfl
@[simp] theorem withProg_pend (s : State) (p : List HostOp) : (s.withProg p).pend = s.pend := rfl
@[simp] theorem withProg_phase (s : State) (p : List HostOp) : (s.withProg p).phase = s.phase := rfl
@[simp] theorem withProg_work (s : State) (p : List HostOp) : (s.withProg p).work = s.work := rfl
@[simp] theorem withProg_host (s : State) (p : List HostOp) : (s.withProg p).host = { s.host with prog := p } := rfl
@[simp] theorem withProg_sched (s : State) (p : List HostOp) : (s.withProg p).sched = s.sched := rfl
@[simp] theorem withProg_draws (s : State) (p : List HostOp) : (s.withProg p).draws = s.draws := rfl

@[simp] theorem hostPoll_h (s : State) : (s.hostPoll).h = s.h := rfl
@[simp] theorem hostPoll_tailLen (s : State) : (s.hostPoll).tailLen = s.tailLen := rfl
@[simp] theorem hostPoll_hexLen (s : State) : (s.hostPoll).hexLen = s.hexLen := rfl
@[simp] theorem hostPoll_padBlks (s : State) : (s.hostPoll).padBlks = s.padBlks := rfl
@[simp] theorem hostPoll_length (s : State) : (s.hostPoll).length = s.length := rfl
@[simp] theorem hostPoll_mem (s : State) : (s.hostPoll).mem = s.mem := rfl
@[simp] theorem hostPoll_status (s : State) : (s.hostPoll).status = s.status := rfl
@[simp] theorem hostPoll_pend (s : State) : (s.hostPoll).pend = s.pend := rfl
@[simp] theorem hostPoll_phase (s : State) : (s.hostPoll).phase = s.phase := rfl
@[simp] theorem hostPoll_work (s : State) : (s.hostPoll).work = s.work := rfl
@[simp] theorem hostPoll_host (s : State) : (s.hostPoll).host = { s.host with polled := s.status.toByte } := rfl
@[simp] theorem hostPoll_sched (s : State) : (s.hostPoll).sched = s.sched := rfl
@[simp] theorem hostPoll_draws (s : State) : (s.hostPoll).draws = s.draws := rfl

@[simp] theorem goto_h (s : State) (p : Phase) : (s.goto p).h = s.h := rfl
@[simp] theorem goto_tailLen (s : State) (p : Phase) : (s.goto p).tailLen = s.tailLen := rfl
@[simp] theorem goto_hexLen (s : State) (p : Phase) : (s.goto p).hexLen = s.hexLen := rfl
@[simp] theorem goto_padBlks (s : State) (p : Phase) : (s.goto p).padBlks = s.padBlks := rfl
@[simp] theorem goto_length (s : State) (p : Phase) : (s.goto p).length = s.length := rfl
@[simp] theorem goto_mem (s : State) (p : Phase) : (s.goto p).mem = s.mem := rfl
@[simp] theorem goto_status (s : State) (p : Phase) : (s.goto p).status = s.status := rfl
@[simp] theorem goto_pend (s : State) (p : Phase) : (s.goto p).pend = s.pend := rfl
@[simp] theorem goto_phase (s : State) (p : Phase) : (s.goto p).phase = p := rfl
@[simp] theorem goto_work (s : State) (p : Phase) : (s.goto p).work = s.work := rfl
@[simp] theorem goto_host (s : State) (p : Phase) : (s.goto p).host = s.host := rfl
@[simp] theorem goto_sched (s : State) (p : Phase) : (s.goto p).sched = s.sched := rfl
@[simp] theorem goto_draws (s : State) (p : Phase) : (s.goto p).draws = s.draws := rfl

@[simp] theorem hardReset_h (s : State) : (s.hardReset).h = State.reset.h := rfl
@[simp] theorem hardReset_tailLen (s : State) : (s.hardReset).tailLen = State.reset.tailLen := rfl
@[simp] theorem hardReset_hexLen (s : State) : (s.hardReset).hexLen = State.reset.hexLen := rfl
@[simp] theorem hardReset_padBlks (s : State) : (s.hardReset).padBlks = State.reset.padBlks := rfl
@[simp] theorem hardReset_length (s : State) : (s.hardReset).length = State.reset.length := rfl
@[simp] theorem hardReset_mem (s : State) : (s.hardReset).mem = State.reset.mem := rfl
@[simp] theorem hardReset_status (s : State) : (s.hardReset).status = State.reset.status := rfl
@[simp] theorem hardReset_pend (s : State) : (s.hardReset).pend = State.reset.pend := rfl
@[simp] theorem hardReset_phase (s : State) : (s.hardReset).phase = State.reset.phase := rfl
@[simp] theorem hardReset_work (s : State) : (s.hardReset).work = State.reset.work := rfl
@[simp] theorem hardReset_host (s : State) : (s.hardReset).host = s.host := rfl
@[simp] theorem hardReset_sched (s : State) : (s.hardReset).sched = s.sched := rfl
@[simp] theorem hardReset_draws (s : State) : (s.hardReset).draws = s.draws := rfl

@[simp] theorem withCommand_h (s : State) (op : Byte) : (s.withCommand op).h = s.h := rfl
@[simp] theorem withCommand_tailLen (s : State) (op : Byte) : (s.withCommand op).tailLen = s.tailLen := rfl
@[simp] theorem withCommand_hexLen (s : State) (op : Byte) : (s.withCommand op).hexLen = s.hexLen := rfl
@[simp] theorem withCommand_padBlks (s : State) (op : Byte) : (s.withCommand op).padBlks = s.padBlks := rfl
@[simp] theorem withCommand_length (s : State) (op : Byte) : (s.withCommand op).length = s.length := rfl
@[simp] theorem withCommand_mem (s : State) (op : Byte) : (s.withCommand op).mem = s.mem := rfl
@[simp] theorem withCommand_status (s : State) (op : Byte) : (s.withCommand op).status = s.status.issue := rfl
@[simp] theorem withCommand_pend (s : State) (op : Byte) : (s.withCommand op).pend = some op := rfl
@[simp] theorem withCommand_phase (s : State) (op : Byte) : (s.withCommand op).phase = .decode := rfl
@[simp] theorem withCommand_work (s : State) (op : Byte) : (s.withCommand op).work = s.work := rfl
@[simp] theorem withCommand_host (s : State) (op : Byte) : (s.withCommand op).host = s.host := rfl
@[simp] theorem withCommand_sched (s : State) (op : Byte) : (s.withCommand op).sched = .core :: s.sched := rfl
@[simp] theorem withCommand_draws (s : State) (op : Byte) : (s.withCommand op).draws = s.draws := rfl

@[simp] theorem loadProgram_h (s : State) (p : List HostOp) : (s.loadProgram p).h = s.h := rfl
@[simp] theorem loadProgram_tailLen (s : State) (p : List HostOp) : (s.loadProgram p).tailLen = s.tailLen := rfl
@[simp] theorem loadProgram_hexLen (s : State) (p : List HostOp) : (s.loadProgram p).hexLen = s.hexLen := rfl
@[simp] theorem loadProgram_padBlks (s : State) (p : List HostOp) : (s.loadProgram p).padBlks = s.padBlks := rfl
@[simp] theorem loadProgram_length (s : State) (p : List HostOp) : (s.loadProgram p).length = s.length := rfl
@[simp] theorem loadProgram_mem (s : State) (p : List HostOp) : (s.loadProgram p).mem = s.mem := rfl
@[simp] theorem loadProgram_status (s : State) (p : List HostOp) : (s.loadProgram p).status = s.status := rfl
@[simp] theorem loadProgram_pend (s : State) (p : List HostOp) : (s.loadProgram p).pend = s.pend := rfl
@[simp] theorem loadProgram_phase (s : State) (p : List HostOp) : (s.loadProgram p).phase = s.phase := rfl
@[simp] theorem loadProgram_work (s : State) (p : List HostOp) : (s.loadProgram p).work = s.work := rfl
@[simp] theorem loadProgram_host (s : State) (p : List HostOp) : (s.loadProgram p).host = ⟨p, [], 0x00, none⟩ := rfl
@[simp] theorem loadProgram_sched (s : State) (p : List HostOp) : (s.loadProgram p).sched = s.sched := rfl
@[simp] theorem loadProgram_draws (s : State) (p : List HostOp) : (s.loadProgram p).draws = s.draws := rfl

@[simp] theorem status_issue_busy (s : Status) : (s.issue).busy = true := rfl
@[simp] theorem status_issue_done (s : Status) : (s.issue).done = false := rfl
@[simp] theorem status_issue_bv (s : Status) : (s.issue).bv = s.bv := rfl
@[simp] theorem status_issue_err (s : Status) : (s.issue).err = 0 := rfl

@[simp] theorem status_complete_busy (s : Status) (c : Code) : (s.complete c).busy = false := rfl
@[simp] theorem status_complete_done (s : Status) (c : Code) : (s.complete c).done = true := rfl
@[simp] theorem status_complete_bv (s : Status) (c : Code) : (s.complete c).bv = s.bv := rfl
@[simp] theorem status_complete_err (s : Status) (c : Code) : (s.complete c).err = c := rfl

@[simp] theorem status_violate_busy (s : Status) : (s.violate).busy = s.busy := rfl
@[simp] theorem status_violate_done (s : Status) : (s.violate).done = s.done := rfl
@[simp] theorem status_violate_bv (s : Status) : (s.violate).bv = true := rfl
@[simp] theorem status_violate_err (s : Status) : (s.violate).err = s.err := rfl

@[simp] theorem status_hostWrite_busy (s : Status) (v : Byte) : (s.hostWrite v).busy = s.busy := rfl
@[simp] theorem status_hostWrite_done (s : Status) (v : Byte) : (s.hostWrite v).done = s.done := rfl
@[simp] theorem status_hostWrite_bv (s : Status) (v : Byte) : (s.hostWrite v).bv = (s.bv && !v.getLsbD 2) := rfl
@[simp] theorem status_hostWrite_err (s : Status) (v : Byte) : (s.hostWrite v).err = s.err := rfl

/-- STATUS bit 0 of the byte a poll reads is BUSY (R31). -/
theorem toByte_busy (s : Status) : s.toByte.getLsbD 0 = s.busy := by
  obtain ⟨a, b, c, e⟩ := s; revert a b c e; decide

/-- The same in simp's spelling of a bit below the width. -/
@[simp] theorem toByte_getElem_busy (s : Status) : s.toByte[0] = s.busy := toByte_busy s

/-- Bits 7:4 of the byte a poll reads are ERR (R31). -/
@[simp] theorem errField_toByte (s : Status) : errField s.toByte = s.err := by
  obtain ⟨a, b, c, e⟩ := s; revert a b c e; decide

end Sys2Proof.Machine
end

