-- ==== Sys2Proof/Laws/Commands.lean ====
section
/-! SUPPORT. One lemma per shared operation of the commands that says all it can do: the decoder, the padding generator, the
blocks of FINAL, each meaning, and the completion of any byte. -/

namespace Sys2Proof.Machine

/-! ## The decoder -/

/-- A byte decodes to one of the six commands at its own opcode, or it is 6 or more and illegal (R81, R83). -/
theorem decodeByte_cases (op : Byte) :
    (op = 0x00 ∧ decodeByte op = .ok .nop) ∨ (op = 0x01 ∧ decodeByte op = .ok .init) ∨
    (op = 0x02 ∧ decodeByte op = .ok .ldhex) ∨ (op = 0x03 ∧ decodeByte op = .ok .compress) ∨
    (op = 0x04 ∧ decodeByte op = .ok .pad) ∨ (op = 0x05 ∧ decodeByte op = .ok .final) ∨
    (6 ≤ op.toNat ∧ decodeByte op = .error (.illegalOpcode op)) := by
  revert op; decide +kernel

/-! ## The padding generator -/

theorem exempt_iff (n : Length) : exempt n = true ↔ 0 < n.toNat ∧ n.toNat % 512 = 0 := by simp [exempt]

theorem padChecksPass_iff (s : State) : s.padChecksPass = true ↔
    s.tailLen.toNat ≤ 63 ∧ s.length.toNat % 8 = 0 ∧ s.length.toNat / 8 % 64 = s.tailLen.toNat := by
  simp [State.padChecksPass]

@[simp] theorem tail_length (s : State) : s.tail.length = s.tailLen.toNat := by simp [State.tail]

theorem paddingBytes_length (q : Nat) (n : Length) : (paddingBytes q n).length = zeroFill q + 9 := by
  simp [paddingBytes, le64]

/-- After the checks the padded tail has 0, 64 or 128 bytes (R158). -/
theorem paddedTail_length {s : State} (h : s.tailLen.toNat ≤ 63) : s.paddedTail.length =
    if exempt s.length then 0 else if s.tailLen.toNat ≤ 55 then 64 else 128 := by
  unfold State.paddedTail
  split
  · rfl
  · simp only [List.length_append, tail_length, paddingBytes_length, zeroFill]
    split <;> omega

theorem paddedTail_blocks_le {s : State} (h : s.tailLen.toNat ≤ 63) : s.paddedTail.length / 64 ≤ 2 := by
  rw [paddedTail_length h]; split <;> [omega; split <;> omega]

theorem padImage_length {t : List Byte} (h : t.length ≤ 128) : (padImage t).length = 128 := by
  simp [padImage]; omega

theorem padImage_getD (t : List Byte) (k : Nat) : (padImage t).getD k 0 = t.getD k 0 := by
  unfold padImage
  rcases Nat.lt_or_ge k t.length with h | h
  · rw [List.getD_append _ _ _ _ h]
  · rw [List.getD_append_right _ _ _ _ h, List.getD_eq_default t 0 h]
    rcases Nat.lt_or_ge (k - t.length) (128 - t.length) with h' | h'
    · rw [List.getD_replicate 0 h']
    · rw [List.getD_eq_default _ _ (by simpa using h')]

/-- PADBUF after the padding generator, on canonical buffers: the padded tail, then zeros (R158). -/
theorem padGen_padBuf {s : State} (hm : s.mem.wf = true) (h : s.tailLen.toNat ≤ 63) {k : Nat} (hk : k < 128) :
    s.padGen.padBuf k = s.paddedTail.getD k 0 := by
  have hl : s.paddedTail.length ≤ 128 := by rw [paddedTail_length h]; split <;> [omega; split <;> omega]
  have := Memory.read_writeRun_inside hm padBufBase (padImage s.paddedTail) (k := k) (by rw [padImage_length hl]; exact hk)
  rw [padImage_getD] at this
  exact this

/-- The padding generator writes nothing outside PADBUF. -/
theorem padGen_read_outside {s : State} (h : s.tailLen.toNat ≤ 63) {a : Nat} (ha : a < 0x100 ∨ 0x180 ≤ a) :
    s.padGen.mem.read a = s.mem.read a := by
  have hl : s.paddedTail.length ≤ 128 := by rw [paddedTail_length h]; split <;> [omega; split <;> omega]
  refine Memory.read_writeRun_outside s.mem padBufBase _ ?_
  rw [padImage_length hl]
  simp only [padBufBase]
  omega

theorem padGen_padBlks {s : State} (h : s.tailLen.toNat ≤ 63) :
    s.padGen.padBlks.toNat = s.paddedTail.length / 64 := by
  have := paddedTail_blocks_le h
  simp only [State.padGen, withPad_padBlks, BitVec.toNat_ofNat]
  omega

/-! ## The compression -/

@[simp] theorem rounds_zero (w : Words) (v : Quad) : rounds w v 0 = v := by with_unfolding_all rfl

/-- One more step (R185). -/
theorem rounds_succ (w : Words) (v : Quad) (n : Nat) : rounds w v (n + 1) = roundStep n (rounds w v n) w := by
  with_unfolding_all rfl

/-- The words of a block are those of its 64 bytes. -/
theorem blockWords_congr {x y : Nat → Byte} (e : ∀ k, k < 64 → x k = y k) : blockWords x = blockWords y := by
  apply Vector.ext
  intro i hi
  simp only [blockWords, Vector.getElem_ofFn]
  rw [e _ (by omega), e _ (by omega), e _ (by omega), e _ (by omega)]

/-- A compression reads 64 bytes of its block and no more (R189). -/
theorem compress_congr (h : Quad) {x y : Nat → Byte} (e : ∀ k, k < 64 → x k = y k) : compress h x = compress h y := by
  rw [compress, compress, blockWords_congr e]

/-! ## FINAL's blocks -/

theorem compressPadBlocks_zero (s : State) : s.compressPadBlocks 0 = s := rfl

theorem compressPadBlocks_succ (s : State) (q : Nat) :
    s.compressPadBlocks (q + 1) = (s.compressPadBlocks q).compressPadBlock q := rfl

/-- Compressing blocks of PADBUF changes the chaining state and the hidden working words only. -/
theorem compressPadBlocks_frame (s : State) (q : Nat) :
    s.compressPadBlocks q = (s.withH (s.compressPadBlocks q).h).withWork (s.compressPadBlocks q).work := by
  induction q with
  | zero => rfl
  | succ q ih =>
    have e : s.compressPadBlocks (q + 1) = (s.compressPadBlocks q).compressPadBlock q := rfl
    rw [e]
    conv_lhs => rw [ih]
    conv_rhs => rw [ih]
    rfl

/-- The blocks FINAL compresses are those PADBUF holds when it starts. -/
theorem compressPadBlocks_padBlock (s : State) (q j : Nat) : (s.compressPadBlocks q).padBlock j = s.padBlock j := by
  rw [compressPadBlocks_frame]; rfl

theorem compressPadBlocks_h_succ (s : State) (q : Nat) :
    (s.compressPadBlocks (q + 1)).h = compress (s.compressPadBlocks q).h (s.padBlock q) := by
  rw [← compressPadBlocks_padBlock s q q]; rfl

/-! ## The host's copy of a block (R160) -/

@[simp] theorem copyPadBlock_h (s : State) (j : Nat) : (s.copyPadBlock j).h = s.h := rfl
@[simp] theorem copyPadBlock_padBlks (s : State) (j : Nat) : (s.copyPadBlock j).padBlks = s.padBlks := rfl

theorem copyPadBlock_mem (s : State) (j : Nat) :
    (s.copyPadBlock j).mem = s.mem.writeRun blkBase ((List.range 64).map (s.padBlock j)) := rfl

/-- BLK then holds the block. -/
theorem copyPadBlock_blk {s : State} (hm : s.mem.wf = true) (j : Nat) {k : Nat} (hk : k < 64) :
    (s.copyPadBlock j).blk k = s.padBlock j k := by
  rw [State.blk, copyPadBlock_mem, Memory.read_writeRun_inside hm _ _ (by simpa using hk)]
  simp [List.getD, hk]

/-- PADBUF still holds what it held. -/
theorem copyPadBlock_padBuf (s : State) (j k : Nat) : (s.copyPadBlock j).padBuf k = s.padBuf k := by
  rw [State.padBuf, copyPadBlock_mem, Memory.read_writeRun_outside _ _ _ (by simp [blkBase, padBufBase]; omega)]
  rfl

/-! ## The meanings -/

/-- COMPRESS (R187). -/
theorem execCompress_eq (s : State) : execCompress s =
    .next (((s.withH (compress s.h s.blk)).withWork (s.work.afterBlock s.h s.blk)).complete codeOk) := rfl

theorem execLdhex_some {s : State} {g : Quad} (h : s.hexDigest = some g) :
    execLdhex s = .next ((s.withH g).complete codeOk) := by simp only [execLdhex, h]; rfl

theorem execLdhex_none {s : State} (h : s.hexDigest = none) :
    execLdhex s = .next (s.complete codeInvalidDigestFormat) := by simp only [execLdhex, h]; rfl

theorem execPad_pass {s : State} (h : s.padChecksPass = true) :
    execPad s = .next ((s.padGen.withWork { s.work with j := 0 }).complete codeOk) := by
  simp only [execPad, h]; rfl

theorem execPad_fail {s : State} (h : s.padChecksPass = false) :
    execPad s = .next (s.complete codeInvalidBlockSize) := by simp only [execPad, h]; rfl

theorem execFinal_pass {s : State} (h : s.padChecksPass = true) :
    execFinal s = .next (((s.padGen.withWork { s.work with j := 0 }).compressPadBlocks
      (s.paddedTail.length / 64)).complete codeOk) := by simp only [execFinal, h]; rfl

theorem execFinal_fail {s : State} (h : s.padChecksPass = false) :
    execFinal s = .next (s.complete codeInvalidBlockSize) := by simp only [execFinal, h]; rfl

/-- All a completion can do: the byte `op` completes with its outcome code, and either nothing else changes, or the chaining
state and the hidden words do (INIT, LDHEX, COMPRESS), or PAD or FINAL passed its checks and the padding generator's writes
are there as well; the last two with code 0. -/
theorem completion_cases (s : State) (op : Byte) :
    s.completion op = .next (s.complete (s.outcomeCode op)) ∨
    (s.outcomeCode op = codeOk ∧ (op = 0x01 ∨ op = 0x02 ∨ op = 0x03) ∧
      ∃ g k, s.completion op = .next (((s.withH g).withWork k).complete codeOk)) ∨
    (s.outcomeCode op = codeOk ∧ s.padChecksPass = true ∧
      ((op = 0x04 ∧ ∃ k, s.completion op = .next ((s.padGen.withWork k).complete codeOk)) ∨
       (op = 0x05 ∧ ∃ g k, s.completion op = .next (((s.padGen.withH g).withWork k).complete codeOk)))) := by
  rcases decodeByte_cases op with ⟨h, e⟩ | ⟨h, e⟩ | ⟨h, e⟩ | ⟨h, e⟩ | ⟨h, e⟩ | ⟨h, e⟩ | ⟨h, e⟩
  · refine .inl ?_
    simp only [State.completion, State.outcomeCode, e]; rfl
  · refine .inr (.inl ⟨by simp only [State.outcomeCode, e], by simp [h], initialState, s.work, ?_⟩)
    simp only [State.completion, e]; rfl
  · cases hd : s.hexDigest with
    | none =>
      refine .inl ?_
      simp only [State.completion, State.outcomeCode, e, hd]
      exact execLdhex_none hd
    | some g =>
      refine .inr (.inl ⟨by simp [State.outcomeCode, e, hd], by simp [h], g, s.work, ?_⟩)
      simp only [State.completion, e]
      exact execLdhex_some hd
  · refine .inr (.inl ⟨by simp only [State.outcomeCode, e], by simp [h],
      compress s.h s.blk, s.work.afterBlock s.h s.blk, ?_⟩)
    simp only [State.completion, e]; rfl
  · cases hp : s.padChecksPass with
    | false =>
      refine .inl ?_
      simp only [State.completion, State.outcomeCode, e, hp]
      exact execPad_fail hp
    | true =>
      refine .inr (.inr ⟨by simp [State.outcomeCode, e, hp], rfl,
        .inl ⟨h, { s.work with j := 0 }, ?_⟩⟩)
      simp only [State.completion, e]
      exact execPad_pass hp
  · cases hp : s.padChecksPass with
    | false =>
      refine .inl ?_
      simp only [State.completion, State.outcomeCode, e, hp]
      exact execFinal_fail hp
    | true =>
      refine .inr (.inr ⟨by simp [State.outcomeCode, e, hp], rfl, .inr ⟨h,
        (((s.padGen.withWork { s.work with j := 0 })).compressPadBlocks (s.paddedTail.length / 64)).h,
        (((s.padGen.withWork { s.work with j := 0 })).compressPadBlocks (s.paddedTail.length / 64)).work, ?_⟩⟩)
      simp only [State.completion, e]
      refine (execFinal_pass hp).trans (congrArg (fun u => Host.Outcome.next (State.complete u codeOk)) ?_)
      refine (compressPadBlocks_frame _ _).trans ?_
      rw [withWork_withH, withWork_withWork]
  · refine .inl ?_
    simp only [State.completion, State.outcomeCode, e]; rfl

/-- A command is the completion of its own opcode. -/
theorem exec_eq_completion (i : Instr) (s : State) : exec i s = s.completion (encodeByte i) := by cases i <;> rfl

/-- The outcome codes are 0 to 3 (R251). -/
theorem outcomeCode_le (s : State) (op : Byte) : (s.outcomeCode op).toNat ≤ 3 := by
  rcases decodeByte_cases op with ⟨_, e⟩ | ⟨_, e⟩ | ⟨_, e⟩ | ⟨_, e⟩ | ⟨_, e⟩ | ⟨_, e⟩ | ⟨_, e⟩ <;>
    simp only [State.outcomeCode, e] <;> first | decide | (split <;> decide)

end Sys2Proof.Machine
end

