-- ==== Sys2Proof/Laws/Turns.lean ====
section
/-! SUPPORT. All a turn can do: bus writes and reads, the host's turn, and the step. -/

namespace Sys2Proof.Machine

theorem regionOf_status_iff (a : Addr) : regionOf a = .status ↔ a = 0x001 := by revert a; decide +kernel

theorem regionOf_cmd_iff (a : Addr) : regionOf a = .cmd ↔ a = 0x000 := by revert a; decide +kernel

/-- All a bus write can do: clear BV through STATUS, be dropped by a busy core with BV set, issue a command, or write a
register or buffer byte of an idle core, STATUS and the hidden state apart. -/
theorem busWrite_cases (s : State) (a : Addr) (v : Byte) :
    (a = 0x001 ∧ s.busWrite a v = { s with status := s.status.hostWrite v }) ∨
    (a ≠ 0x001 ∧ s.status.busy = true ∧ s.busWrite a v = { s with status := s.status.violate }) ∨
    (a = 0x000 ∧ s.status.busy = false ∧ s.busWrite a v = s.issue v) ∨
    (a ≠ 0x000 ∧ a ≠ 0x001 ∧ s.status.busy = false ∧ s.busWrite a v = s.writeRegion (regionOf a) v) := by
  by_cases h1 : a = 0x001
  · refine .inl ⟨h1, ?_⟩
    rw [State.busWrite, (regionOf_status_iff a).2 h1]
    simp [State.writeRegion]
  · have hr : regionOf a ≠ .status := fun h => h1 ((regionOf_status_iff a).1 h)
    cases hb : s.status.busy with
    | true => exact .inr (.inl ⟨h1, rfl, by simp [State.busWrite, hb, hr]⟩)
    | false =>
      by_cases h0 : a = 0x000
      · refine .inr (.inr (.inl ⟨h0, rfl, ?_⟩))
        rw [State.busWrite, (regionOf_cmd_iff a).2 h0]
        simp [hb, State.writeRegion]
      · exact .inr (.inr (.inr ⟨h0, h1, rfl, by simp [State.busWrite, hb]⟩))

/-- What a write to an idle core's window, CMD and STATUS apart, leaves alone. -/
theorem writeRegion_frame (s : State) {a : Addr} (v : Byte) (h0 : a ≠ 0x000) (h1 : a ≠ 0x001) :
    s.writeRegion (regionOf a) v = { s with
      h := (s.writeRegion (regionOf a) v).h, tailLen := (s.writeRegion (regionOf a) v).tailLen,
      hexLen := (s.writeRegion (regionOf a) v).hexLen, length := (s.writeRegion (regionOf a) v).length,
      mem := (s.writeRegion (regionOf a) v).mem } := by
  have hc : regionOf a ≠ .cmd := fun h => h0 ((regionOf_cmd_iff a).1 h)
  have hs : regionOf a ≠ .status := fun h => h1 ((regionOf_status_iff a).1 h)
  cases hr : regionOf a <;> first | exact absurd hr hc | exact absurd hr hs | rfl

/-- No bus write touches the host, the schedule, the draw counter, PADBLKS or the hidden working words. -/
theorem busWrite_frame (s : State) (a : Addr) (v : Byte) :
    (s.busWrite a v).host = s.host ∧ (s.busWrite a v).sched = s.sched ∧ (s.busWrite a v).draws = s.draws ∧
    (s.busWrite a v).padBlks = s.padBlks ∧ (s.busWrite a v).work = s.work := by
  rcases busWrite_cases s a v with ⟨_, e⟩ | ⟨_, _, e⟩ | ⟨_, _, e⟩ | ⟨h0, h1, _, e⟩
  · rw [e]; exact ⟨rfl, rfl, rfl, rfl, rfl⟩
  · rw [e]; exact ⟨rfl, rfl, rfl, rfl, rfl⟩
  · rw [e]; exact ⟨rfl, rfl, rfl, rfl, rfl⟩
  · rw [e, writeRegion_frame s v h0 h1]; exact ⟨rfl, rfl, rfl, rfl, rfl⟩

/-- A read moves the draw counter at most. -/
theorem afterRead_frame (s : State) (a : Addr) : s.afterRead a = { s with draws := (s.afterRead a).draws } := by
  unfold State.afterRead; split <;> rfl

/-- All the host's turn can do: its own state changes, and either one bus write took effect, or one read. -/
theorem hostTurn_cases (s : State) :
    (∃ a v p, s.host.prog = .wr a v :: p ∧ s.hostTurn = (s.busWrite a v).withProg p) ∨
    (∃ g n, s.hostTurn = { s with host := g, draws := n }) := by
  unfold State.hostTurn
  split
  · exact .inr ⟨s.host, s.draws, rfl⟩
  · rename_i a v p hp; exact .inl ⟨a, v, p, hp, rfl⟩
  · rename_i a p hp
    refine .inr ⟨{ s.host with prog := p, got := s.host.got ++ [s.readByte a] }, (s.afterRead a).draws, ?_⟩
    simp only [State.hostRead]
    rw [afterRead_frame]
  · refine .inr ?_
    unfold State.hostWait
    split
    · exact ⟨_, s.draws, rfl⟩
    · exact ⟨_, s.draws, rfl⟩
  · refine .inr ?_
    unfold State.hostWaitOk
    split
    · exact ⟨_, s.draws, rfl⟩
    · split
      · exact ⟨_, s.draws, rfl⟩
      · exact ⟨_, s.draws, rfl⟩
  · rename_i p hp
    refine .inr ⟨{ s.host with
      prog := readRun padBufBase (64 * (s.readByte addrPadBlks).toNat) ++ p,
      got := s.host.got ++ [s.readByte addrPadBlks] }, (s.afterRead addrPadBlks).draws, ?_⟩
    simp only [State.hostRead]
    rw [afterRead_frame]

theorem nextTurn_of_nil {s : State} (h : s.sched = []) : s.nextTurn = (s.defaultTurn, s) := by
  simp [State.nextTurn, h]

theorem nextTurn_of_cons {s : State} {t : Turn} {ts : List Turn} (h : s.sched = t :: ts) :
    s.nextTurn = (t, { s with sched := ts }) := by simp [State.nextTurn, h]

/-- Taking the turn off the schedule changes the schedule only. -/
theorem nextTurn_state (s : State) : s.nextTurn.2 = { s with sched := s.nextTurn.2.sched } := by
  unfold State.nextTurn; split <;> rfl

theorem step_eq (s : State) : step s = s.nextTurn.2.takeTurn s.nextTurn.1 := rfl

/-- A core turn with a command pending is that command's completion. -/
theorem coreTurn_some {s : State} {op : Byte} (h : s.pend = some op) : s.coreTurn = s.completion op := by
  simp [State.coreTurn, h]

theorem coreTurn_none {s : State} (h : s.pend = none) : s.coreTurn = .next s := by simp [State.coreTurn, h]

/-- A completion always answers, with STATUS updated by the outcome code and nothing pending (R102). -/
theorem completion_status (s : State) (op : Byte) :
    ∃ t, s.completion op = .next t ∧ t.status = s.status.complete (s.outcomeCode op) ∧ t.pend = none ∧
      t.phase = .idle := by
  rcases completion_cases s op with e | ⟨o, _, g, k, e⟩ | ⟨o, _, ⟨_, k, e⟩ | ⟨_, g, k, e⟩⟩
  · exact ⟨_, e, rfl, rfl, rfl⟩
  all_goals exact ⟨_, e, by rw [o]; rfl, rfl, rfl⟩

/-- All a step can do: reset, the host's turn, an idle core's turn, or a completion, on the state with the turn taken off the
schedule. -/
theorem step_cases {s t : State} (h : step s = .next t) :
    (s.nextTurn.1 = .reset ∧ t = s.nextTurn.2.hardReset) ∨
    (s.nextTurn.1 = .host ∧ t = s.nextTurn.2.hostTurn) ∨
    (s.nextTurn.1 = .core ∧ s.pend = none ∧ t = s.nextTurn.2) ∨
    (s.nextTurn.1 = .core ∧ ∃ op, s.pend = some op ∧ s.nextTurn.2.completion op = .next t) := by
  rw [step_eq] at h
  have hp : s.nextTurn.2.pend = s.pend := by rw [nextTurn_state]
  cases ht : s.nextTurn.1 with
  | reset =>
    rw [ht] at h
    exact .inl ⟨rfl, (Host.Outcome.next.inj h).symm⟩
  | host =>
    rw [ht] at h
    exact .inr (.inl ⟨rfl, (Host.Outcome.next.inj h).symm⟩)
  | core =>
    rw [ht] at h
    simp only [State.takeTurn] at h
    cases hq : s.pend with
    | none =>
      rw [coreTurn_none (hp.trans hq)] at h
      exact .inr (.inr (.inl ⟨rfl, rfl, (Host.Outcome.next.inj h).symm⟩))
    | some op =>
      rw [coreTurn_some (hp.trans hq)] at h
      exact .inr (.inr (.inr ⟨rfl, op, rfl, h⟩))

end Sys2Proof.Machine
end

