-- ==== Sys2Proof/Laws/Bus.lean ====
section
/-! SUPPORT. The address map entry by entry (20_memory.md R52), and reads and writes of an idle core through it. -/

namespace Sys2Proof.Machine

theorem regionAt_length : ∀ k, k < 8 → regionAt (0x008 + k) = .length k := by decide
theorem regionAt_state : ∀ k, k < 16 → regionAt (0x010 + k) = .state k := by decide
theorem regionAt_hexOut : ∀ k, k < 32 → regionAt (0x020 + k) = .hexOut k := by decide
theorem regionAt_hexIn : ∀ k, k < 32 → regionAt (0x040 + k) = .hexIn k := by decide
theorem regionAt_blk : ∀ k, k < 64 → regionAt (0x080 + k) = .blk k := by decide +kernel
theorem regionAt_padBuf : ∀ k, k < 128 → regionAt (0x100 + k) = .padBuf k := by decide +kernel

/-- Every address of the window is one of the map's entries, or reserved. -/
theorem window_cases : ∀ n, n < 512 → n = 0 ∨ n = 1 ∨ n = 2 ∨ n = 3 ∨ n = 4 ∨ (0x008 ≤ n ∧ n < 0x010) ∨
    (0x010 ≤ n ∧ n < 0x020) ∨ (0x020 ≤ n ∧ n < 0x040) ∨ (0x040 ≤ n ∧ n < 0x060) ∨ (0x080 ≤ n ∧ n < 0x0C0) ∨
    (0x100 ≤ n ∧ n < 0x180) ∨ regionAt n = .reserved := by decide +kernel

theorem regionAt_reserved : ∀ n, n < 512 → ((0x005 ≤ n ∧ n ≤ 0x007) ∨ (0x060 ≤ n ∧ n ≤ 0x07F) ∨
    (0x0C0 ≤ n ∧ n ≤ 0x0FF) ∨ 0x180 ≤ n) → regionAt n = .reserved := by decide +kernel

theorem addrAt_toNat {base k : Nat} (h : base + k < 512) : (addrAt base k).toNat = base + k := by
  simp only [addrAt, BitVec.toNat_ofNat]; omega

/-- A read of an idle core returns what the map says (R52). -/
theorem readByte_idle {s : State} (h : s.status.busy = false) (a : Addr) :
    s.readByte a = s.regionByte (regionAt a.toNat) := by
  simp [State.readByte, State.readsFree, h, State.windowByte, regionOf]

theorem afterRead_idle {s : State} (h : s.status.busy = false) (a : Addr) : s.afterRead a = s := by
  simp [State.afterRead, State.readsFree, h]

/-- A write to an idle core does what the map says (R52). -/
theorem busWrite_idle {s : State} (h : s.status.busy = false) (a : Addr) (v : Byte) :
    s.busWrite a v = s.writeRegion (regionAt a.toNat) v := by simp [State.busWrite, h, regionOf]

theorem busWrite_blk {s : State} (h : s.status.busy = false) {k : Nat} (hk : k < 64) (v : Byte) :
    s.busWrite (addrAt blkBase k) v = { s with mem := s.mem.write (blkBase + k) v } := by
  rw [busWrite_idle h, addrAt_toNat (by simp only [blkBase]; omega)]
  simp only [blkBase, regionAt_blk k hk]
  rfl

theorem busWrite_hexIn {s : State} (h : s.status.busy = false) {k : Nat} (hk : k < 32) (v : Byte) :
    s.busWrite (addrAt hexInBase k) v = { s with mem := s.mem.write (hexInBase + k) v } := by
  rw [busWrite_idle h, addrAt_toNat (by simp only [hexInBase]; omega)]
  simp only [hexInBase, regionAt_hexIn k hk]
  rfl

theorem busWrite_length {s : State} (h : s.status.busy = false) {k : Nat} (hk : k < 8) (v : Byte) :
    s.busWrite (addrAt lengthBase k) v = { s with length := setByteAt s.length k v } := by
  rw [busWrite_idle h, addrAt_toNat (by simp only [lengthBase]; omega)]
  simp only [lengthBase, regionAt_length k hk]
  rfl

theorem busWrite_state {s : State} (h : s.status.busy = false) {j : Nat} (hj : j < 16) (v : Byte) :
    s.busWrite (addrAt stateBase j) v = s.withH (setDigestByte s.h j v) := by
  rw [busWrite_idle h, addrAt_toNat (by simp only [stateBase]; omega)]
  simp only [stateBase, regionAt_state j hj]
  rfl

theorem busWrite_tailLen {s : State} (h : s.status.busy = false) (v : Byte) :
    s.busWrite addrTailLen v = { s with tailLen := v } := by rw [busWrite_idle h]; rfl

theorem busWrite_hexLen {s : State} (h : s.status.busy = false) (v : Byte) :
    s.busWrite addrHexLen v = { s with hexLen := v } := by rw [busWrite_idle h]; rfl

theorem busWrite_cmd {s : State} (h : s.status.busy = false) (v : Byte) : s.busWrite addrCmd v = s.issue v := by
  rw [busWrite_idle h]; rfl

theorem readByte_hexOut {s : State} (h : s.status.busy = false) {k : Nat} (hk : k < 32) :
    s.readByte (addrAt hexOutBase k) = hexOutChar s.h k := by
  rw [readByte_idle h, addrAt_toNat (by simp only [hexOutBase]; omega)]
  simp only [hexOutBase, regionAt_hexOut k hk]
  rfl

theorem readByte_state {s : State} (h : s.status.busy = false) {j : Nat} (hj : j < 16) :
    s.readByte (addrAt stateBase j) = digestByte s.h j := by
  rw [readByte_idle h, addrAt_toNat (by simp only [stateBase]; omega)]
  simp only [stateBase, regionAt_state j hj]
  rfl

end Sys2Proof.Machine
end

