-- ==== Sys2Proof/Laws/Procedures.lean ====
section
/-! SUPPORT. Whole blocks, tails and their compression: the lists behind the host procedures (42_padding.md R155,
44_procedures.md R222). -/

namespace Sys2Proof.Machine

theorem headOf_append_tailOf (x : List Byte) : headOf x ++ tailOf x = x := List.take_append_drop _ _

@[simp] theorem headOf_length (x : List Byte) : (headOf x).length = 64 * (x.length / 64) := by
  simp [headOf]
  omega

@[simp] theorem tailOf_length (x : List Byte) : (tailOf x).length = x.length % 64 := by
  simp [tailOf]
  omega

@[simp] theorem chunk64_length (x : List Byte) : (chunk64 x).length = x.length / 64 := by simp [chunk64]

/-- Whole blocks followed by anything. -/
theorem chunk64_append {x : List Byte} (y : List Byte) (h : x.length % 64 = 0) :
    chunk64 (x ++ y) = chunk64 x ++ chunk64 y := by
  have hx : x.length = 64 * (x.length / 64) := by omega
  generalize hn : x.length / 64 = n at hx
  simp only [chunk64, List.length_append]
  rw [show (x.length + y.length) / 64 = n + y.length / 64 by omega, hn, List.range_add, List.map_append, List.map_map]
  congr 1
  · apply List.map_congr_left
    intro t ht
    have := List.mem_range.1 ht
    rw [List.drop_append_of_le_length (by omega), List.take_append_of_le_length (by simp; omega)]
  · apply List.map_congr_left
    intro t ht
    simp only [Function.comp]
    rw [List.drop_append, List.drop_of_length_le (by omega), List.nil_append]
    congr 2
    omega

/-- A sequence shorter than a block has no whole block. -/
theorem chunk64_of_short {x : List Byte} (h : x.length < 64) : chunk64 x = [] := by
  simp [chunk64, Nat.div_eq_of_lt h]

theorem compressAll_append {x : List Byte} (y : List Byte) (g : Quad) (h : x.length % 64 = 0) :
    compressAll g (x ++ y) = compressAll (compressAll g x) y := by
  simp only [compressAll, chunk64_append y h, List.foldl_append]

theorem compressAll_of_short {x : List Byte} (g : Quad) (h : x.length < 64) : compressAll g x = g := by
  simp only [compressAll, chunk64_of_short h, List.foldl_nil]

/-- One block. -/
theorem compressAll_block {x : List Byte} (g : Quad) (h : x.length = 64) :
    compressAll g x = compress g (blockByte x) := by
  have : chunk64 x = [x] := by
    simp only [chunk64, h]
    simp [List.take_of_length_le (Nat.le_of_eq h)]
  simp only [compressAll, this, List.foldl_cons, List.foldl_nil]

/-- The bit length of a message that the procedures accept fits the length field (R221). -/
theorem bitLength_toNat {m : List Byte} (h : m.length < 2 ^ 61) :
    (BitVec.ofNat 64 (8 * m.length)).toNat = 8 * m.length := by
  rw [BitVec.toNat_ofNat]
  omega

theorem forgePadding_of_exempt {x : List Byte} {n : Length} (h : exempt n = true) : forgePadding x n = x := by
  rw [forgePadding, if_pos h]

theorem forgePadding_of_not_exempt {x : List Byte} {n : Length} (h : exempt n = false) :
    forgePadding x n = x ++ paddingBytes (n.toNat / 8 % 64) n := by
  rw [forgePadding, if_neg (by simp [h])]

/-- Padding only appends (R155). -/
theorem forgePadding_append (x y : List Byte) (n : Length) : forgePadding (x ++ y) n = x ++ forgePadding y n := by
  cases h : exempt n with
  | true => rw [forgePadding_of_exempt h, forgePadding_of_exempt h]
  | false => rw [forgePadding_of_not_exempt h, forgePadding_of_not_exempt h, List.append_assoc]

/-- A block of PADBUF after the padding generator is that block of the padded tail. -/
theorem padGen_padBlock {s : State} (hm : s.mem.wf = true) (h : s.tailLen.toNat ≤ 63) (j : Nat)
    (hj : 64 * j + 64 ≤ s.paddedTail.length) (k : Nat) (hk : k < 64) :
    s.padGen.padBlock j k = blockByte ((s.paddedTail.drop (64 * j)).take 64) k := by
  have hl : s.paddedTail.length ≤ 128 := by rw [paddedTail_length h]; split <;> [omega; split <;> omega]
  unfold State.padBlock
  rw [padGen_padBuf hm h (by omega)]
  simp [blockByte, List.getD, hk]

/-- FINAL's blocks, compressed in order, are the whole blocks of the padded tail. -/
theorem compressPadBlocks_all {s : State} (hm : s.mem.wf = true) (h : s.tailLen.toNat ≤ 63) (k : Work) :
    ((s.padGen.withWork k).compressPadBlocks (s.paddedTail.length / 64)).h = compressAll s.h s.paddedTail := by
  have hl := paddedTail_length h
  have blk : ∀ j, 64 * j + 64 ≤ s.paddedTail.length → ∀ g,
      compress g ((s.padGen.withWork k).padBlock j) =
        compress g (blockByte ((s.paddedTail.drop (64 * j)).take 64)) := by
    intro j hj g
    rw [withWork_padBlock]
    exact compress_congr g (fun i hi => padGen_padBlock hm h j hj i hi)
  have h0 : (s.padGen.withWork k).h = s.h := by rw [withWork_h]; rfl
  have cases3 : s.paddedTail.length = 0 ∨ s.paddedTail.length = 64 ∨ s.paddedTail.length = 128 := by
    rw [hl]; split <;> [omega; split <;> omega]
  rcases cases3 with e | e | e
  · rw [e, compressAll_of_short _ (by omega)]; exact h0
  · rw [e, show 64 / 64 = 0 + 1 from rfl, compressPadBlocks_h_succ, compressPadBlocks_zero, h0, blk 0 (by omega),
      compressAll_block _ e]
    rw [Nat.mul_zero, List.drop_zero, List.take_of_length_le (by omega)]
  · rw [e, show 128 / 64 = 0 + 1 + 1 from rfl, compressPadBlocks_h_succ, compressPadBlocks_h_succ,
      compressPadBlocks_zero, h0, blk 0 (by omega), blk 1 (by omega)]
    have sp : s.paddedTail = s.paddedTail.take 64 ++ s.paddedTail.drop 64 := (List.take_append_drop _ _).symm
    conv_rhs => rw [sp]
    rw [compressAll_append _ _ (by simp; omega), compressAll_block _ (by simp; omega),
      compressAll_block _ (by simp; omega), Nat.mul_zero, List.drop_zero,
      List.take_of_length_le (l := List.drop (64 * 1) s.paddedTail) (by simp; omega)]

/-- The padded tail is `forgePadding` of the tail (R158). -/
theorem paddedTail_eq_forgePadding {s : State} (h1 : s.length.toNat / 8 % 64 = s.tailLen.toNat) :
    s.paddedTail = forgePadding s.tail s.length := by
  unfold State.paddedTail forgePadding
  rw [h1]
  split
  · rename_i he
    rw [exempt_iff] at he
    have : s.tail.length = 0 := by rw [tail_length]; omega
    exact (List.eq_nil_of_length_eq_zero this).symm
  · rfl

end Sys2Proof.Machine
end

