-- ==== Sys2Proof/Laws/HostRuns.lean ====
section
/-! SUPPORT. Running a host program's operations on an idle core, operation by operation: what each leaves and in how many
steps. A proof about a program chains these with `Reach.trans`. -/

namespace Sys2Proof.Machine

theorem ended_iff (s : State) : s.ended = true ↔ s.host.prog = [] ∧ s.pend = none := by simp [State.ended]

theorem ended_eq_false {s : State} (h : s.host.prog ≠ [] ∨ s.pend ≠ none) : s.ended = false := by
  rw [← Bool.not_eq_true, ended_iff]
  tauto

/-- One more step of a run that has not ended. -/
theorem runToEnd_succ {s : State} (h : s.ended = false) (n : Nat) : runToEnd (n + 1) s =
    match step s with
    | .next t => runToEnd n t
    | .fault r => .fault r
    | .refused r => .refused r := by
  rw [runToEnd, h]
  rfl

/-- A run whose program has ended stays where it is. -/
theorem runToEnd_of_ended {t : State} (h : t.ended = true) (n : Nat) : runToEnd n t = .next t := by
  cases n with
  | zero => rfl
  | succ n => rw [runToEnd, h]; rfl

/-- Running from `s` with `k` more steps than from `t` gives the same. -/
def Reach (k : Nat) (s t : State) : Prop := ∀ n, runToEnd (k + n) s = runToEnd n t

theorem Reach.refl (s) : Reach 0 s s := fun n => by rw [Nat.zero_add]

theorem Reach.trans {k l s t u} (a : Reach k s t) (b : Reach l t u) : Reach (k + l) s u := fun n => by
  rw [Nat.add_assoc, a, b]

/-- An idle core with canonical buffers, nothing scheduled and no violation seen, whose host has `p` to do. -/
structure Ready (s : State) (p : List HostOp) : Prop where
  prog : s.host.prog = p
  pend : s.pend = none
  busy : s.status.busy = false
  bv : s.status.bv = false
  sched : s.sched = []
  stop : s.host.stopped = none
  wf : s.mem.wf = true

theorem Reach.step {s t : State} (h : s.host.prog ≠ [] ∨ s.pend ≠ none) (e : step s = .next t) : Reach 1 s t := fun n => by
  rw [Nat.add_comm, runToEnd_succ (ended_eq_false h), e]

theorem host_step {s : State} (h1 : s.sched = []) (h2 : s.pend = none) : step s = .next s.hostTurn := by
  rw [step_eq, nextTurn_of_nil h1]; simp only [State.defaultTurn, h2]; rfl

theorem core_step {s : State} {op} (h1 : s.sched = []) (h2 : s.pend = some op) : step s = s.completion op := by
  rw [step_eq, nextTurn_of_nil h1]; simp only [State.defaultTurn, h2]; exact coreTurn_some h2

theorem reach_host {s : State} {o p} (h : Ready s (o :: p)) : Reach 1 s s.hostTurn :=
  Reach.step (.inl (by rw [h.prog]; simp)) (host_step h.sched h.pend)

theorem reach_wr {s : State} {a v p} (h : Ready s (.wr a v :: p)) : Reach 1 s ((s.busWrite a v).withProg p) := by
  have := reach_host h; unfold State.hostTurn at this; rw [h.prog] at this; exact this

theorem reach_rd {s : State} {a p} (h : Ready s (.rd a :: p)) :
    Reach 1 s { s with host := { s.host with prog := p, got := s.host.got ++ [s.readByte a] } } := by
  have := reach_host h; unfold State.hostTurn State.hostRead at this; rw [h.prog] at this
  simp only [afterRead_idle h.busy] at this
  exact this

/-- Writes of `l` into BLK from byte `k` on. -/
theorem reach_blk (l : List Byte) : ∀ (k : Nat) (s : State) (p),
    Ready s (writeRunOps (blkBase + k) l ++ p) → k + l.length ≤ 64 →
    Reach l.length s { s with mem := s.mem.writeRun (blkBase + k) l, host := { s.host with prog := p } } ∧
    Ready { s with mem := s.mem.writeRun (blkBase + k) l, host := { s.host with prog := p } } p := by
  induction l with
  | nil =>
    intro k s p h hk
    have e : ({ s with mem := s.mem.writeRun (blkBase + k) [], host := { s.host with prog := p } } : State) = s := by
      rw [Memory.writeRun_nil]; have := h.prog; simp only [writeRunOps, List.nil_append] at this; rw [← this]
    rw [e]; exact ⟨Reach.refl s, by have := h; simpa [writeRunOps] using this⟩
  | cons v l ih =>
    intro k s p h hk
    simp only [List.length_cons] at hk
    have h' : Ready s (.wr (addrAt blkBase k) v :: (writeRunOps (blkBase + k + 1) l ++ p)) := h
    have r1 := reach_wr h'
    rw [busWrite_blk h.busy (by omega)] at r1
    have r2 : Ready ({ s with mem := s.mem.write (blkBase + k) v, host := { s.host with prog := writeRunOps (blkBase + (k + 1)) l ++ p } })
        (writeRunOps (blkBase + (k + 1)) l ++ p) :=
      ⟨rfl, h.pend, h.busy, h.bv, h.sched, h.stop, Memory.write_wf h.wf _ _⟩
    obtain ⟨r3, r4⟩ := ih (k + 1) _ p r2 (by omega)
    rw [Memory.writeRun_cons]
    refine ⟨?_, r4⟩
    rw [List.length_cons, Nat.add_comm]
    exact Reach.trans r1 r3

/-- Writes of `l` into LENGTH from byte `k` on. -/
theorem reach_len (l : List Byte) : ∀ (k : Nat) (s : State) (p),
    Ready s (writeRunOps (lengthBase + k) l ++ p) → k + l.length ≤ 8 →
    ∃ x, Reach l.length s { s with length := x, host := { s.host with prog := p } } ∧
    Ready { s with length := x, host := { s.host with prog := p } } p ∧
    ∀ j, j < 8 → byteAt x j = if k ≤ j ∧ j < k + l.length then l.getD (j - k) 0 else byteAt s.length j := by
  induction l with
  | nil =>
    intro k s p h hk
    have e : ({ s with host := { s.host with prog := p } } : State) = s := by
      have := h.prog; simp only [writeRunOps, List.nil_append] at this; rw [← this]
    refine ⟨s.length, ?_, ?_, ?_⟩
    · exact e ▸ Reach.refl s
    · have h2 : Ready s p := by simpa [writeRunOps] using h
      exact ⟨rfl, h2.pend, h2.busy, h2.bv, h2.sched, h2.stop, h2.wf⟩
    · intro j hj; rw [if_neg (by simp)]
  | cons v l ih =>
    intro k s p h hk
    simp only [List.length_cons] at hk
    have h' : Ready s (.wr (addrAt lengthBase k) v :: (writeRunOps (lengthBase + k + 1) l ++ p)) := h
    have r1 := reach_wr h'
    rw [busWrite_length h.busy (by omega)] at r1
    have r2 : Ready ({ s with length := setByteAt s.length k v, host := { s.host with prog := writeRunOps (lengthBase + (k + 1)) l ++ p } })
        (writeRunOps (lengthBase + (k + 1)) l ++ p) :=
      ⟨rfl, h.pend, h.busy, h.bv, h.sched, h.stop, h.wf⟩
    obtain ⟨x, r3, r4, r5⟩ := ih (k + 1) _ p r2 (by omega)
    refine ⟨x, ?_, r4, ?_⟩
    · rw [List.length_cons, Nat.add_comm]
      exact Reach.trans r1 r3
    · intro j hj
      rw [r5 j hj]
      simp only [List.length_cons]
      by_cases e1 : k + 1 ≤ j ∧ j < k + 1 + l.length
      · rw [if_pos e1, if_pos (by omega), show j - k = (j - (k+1)) + 1 by omega]; rfl
      · rw [if_neg e1]
        rw [byteAt_setByteAt _ _ _ _ (by omega)]
        by_cases e2 : j = k
        · rw [if_pos e2, if_pos (by omega), e2, Nat.sub_self]; rfl
        · rw [if_neg e2, if_neg (by omega)]

/-- Byte `k` of a number is byte `k` of its 64-bit value. -/
theorem natByte_eq (n k : Nat) (hk : k < 8) : natByte n k = byteAt (BitVec.ofNat 64 n) k := by
  apply BitVec.eq_of_getLsbD_eq; intro b hb
  rw [byteAt_getLsbD, natByte, BitVec.getLsbD_ofNat, BitVec.getLsbD_ofNat, Nat.testBit_div_two_pow]
  simp [hb, Nat.add_comm]
  intro _
  omega

/-- WRLEN (R86). -/
theorem reach_wrLen (n : Nat) (s : State) (p) (h : Ready s (expand (.wrLen n) ++ p)) :
    Reach 8 s { s with length := BitVec.ofNat 64 n, host := { s.host with prog := p } } ∧
    Ready { s with length := BitVec.ofNat 64 n, host := { s.host with prog := p } } p := by
  have h : Ready s (writeRunOps (lengthBase + 0) ((List.range 8).map (natByte n)) ++ p) := h
  obtain ⟨x, r1, r2, r3⟩ := reach_len _ 0 s p h (by simp)
  have : x = BitVec.ofNat 64 n := by
    apply length_ext_of_bytes; intro k hk
    rw [r3 k hk, if_pos ⟨by omega, by simpa using hk⟩, ← natByte_eq n k hk]
    simp [List.getD, hk]
  subst this
  exact ⟨r1, r2⟩

/-- Reads of HEXOUT (R86). -/
theorem reach_hex : ∀ (l : List Nat) (s : State) (p),
    Ready s (l.map (fun k => HostOp.rd (addrAt hexOutBase k)) ++ p) → (∀ k ∈ l, k < 32) →
    Reach l.length s { s with host := { s.host with prog := p, got := s.host.got ++ l.map (hexOutChar s.h) } } := by
  intro l
  induction l with
  | nil =>
    intro s p h _
    have e : ({ s with host := { s.host with prog := p, got := s.host.got ++ [] } } : State) = s := by
      have := h.prog; simp only [List.map_nil, List.nil_append] at this; rw [← this, List.append_nil]
    exact e.symm ▸ Reach.refl s
  | cons k l ih =>
    intro s p h hl
    have h' : Ready s (.rd (addrAt hexOutBase k) :: (l.map (fun k => HostOp.rd (addrAt hexOutBase k)) ++ p)) := h
    have r1 := reach_rd h'
    rw [readByte_hexOut h.busy (hl k (by simp))] at r1
    have r2 : Ready ({ s with host := { s.host with prog := l.map (fun k => HostOp.rd (addrAt hexOutBase k)) ++ p, got := s.host.got ++ [hexOutChar s.h k] } })
        (l.map (fun k => HostOp.rd (addrAt hexOutBase k)) ++ p) :=
      ⟨rfl, h.pend, h.busy, h.bv, h.sched, h.stop, h.wf⟩
    have r3 := ih _ p r2 (fun k hk => hl k (by simp [hk]))
    rw [List.length_cons, Nat.add_comm]
    have := Reach.trans r1 r3
    simp only [List.append_assoc, List.map_cons] at this ⊢
    exact this

/-- A command that completes with code 0, and its WAITOK: the write, the completion, one poll. -/
theorem reach_cmd {s v : State} {i : Instr} {p} (h : Ready s (.wr addrCmd (encodeByte i) :: .waitOk :: p))
    (hx : exec i ((s.issue (encodeByte i)).withProg (.waitOk :: p)) = .next (v.complete codeOk))
    (hv : v.host = { s.host with prog := .waitOk :: p }) (hs : v.sched = [])
    (hb : v.status.bv = false) (hm : v.mem.wf = true) :
    Reach 3 s ((v.complete codeOk).hostPoll.withProg p) ∧ Ready ((v.complete codeOk).hostPoll.withProg p) p := by
  have r1 := reach_wr h
  rw [busWrite_cmd h.busy] at r1
  set u := (s.issue (encodeByte i)).withProg (.waitOk :: p) with hu
  have r2 : Reach 1 u (v.complete codeOk) := by
    refine Reach.step (.inr (by rw [hu]; simp)) ?_
    rw [core_step (op := encodeByte i) (by rw [hu]; exact h.sched) (by rw [hu]; rfl), ← exec_eq_completion, hx]
  have rd : Ready (v.complete codeOk) (.waitOk :: p) := ⟨by rw [complete_host, hv], rfl, rfl, hb, hs, by rw [complete_host, hv]; exact h.stop, hm⟩
  have r3 := reach_host rd
  have e : (v.complete codeOk).hostTurn = (v.complete codeOk).hostPoll.withProg p := by
    unfold State.hostTurn; rw [rd.prog]
    show State.hostWaitOk _ p = _
    unfold State.hostWaitOk
    rw [toByte_busy, rd.busy, if_neg (by simp), errField_toByte, if_pos (show (v.complete codeOk).status.err = 0 from rfl)]
  rw [e] at r3
  exact ⟨Reach.trans (Reach.trans r1 r2) r3, ⟨rfl, rfl, rfl, hb, hs, by show v.host.stopped = none; rw [hv]; exact h.stop, hm⟩⟩

/-- WRBLK, COMPRESS, WAITOK (R222). -/
theorem reach_block {s : State} {b : List Byte} {p} (hb : b.length = 64)
    (h : Ready s (writeRunOps blkBase b ++ .wr addrCmd (encodeByte .compress) :: .waitOk :: p)) :
    ∃ t, Reach 67 s t ∧ Ready t p ∧ t.h = compress s.h (blockByte b) ∧ t.host.got = s.host.got := by
  obtain ⟨r1, r2⟩ := reach_blk b 0 s _ h (by omega)
  set u : State := { s with mem := s.mem.writeRun (blkBase + 0) b, host := { s.host with prog := .wr addrCmd (encodeByte .compress) :: .waitOk :: p } } with hu
  set w := (u.issue (encodeByte .compress)).withProg (.waitOk :: p) with hw
  obtain ⟨G, hG⟩ : ∃ G, G = compress w.h w.blk := ⟨_, rfl⟩
  obtain ⟨K, hK⟩ : ∃ K, K = w.work.afterBlock w.h w.blk := ⟨_, rfl⟩
  have hx : exec .compress w = .next (((w.withH G).withWork K).complete codeOk) := by rw [hG, hK]; exact execCompress_eq w
  clear hK
  obtain ⟨r3, r4⟩ := reach_cmd r2 hx rfl r2.sched r2.bv r2.wf
  refine ⟨_, ?_, r4, ?_, rfl⟩
  · have := Reach.trans r1 r3; rw [hb] at this; exact this
  · show G = _
    rw [hG]
    have hwh : w.h = s.h := rfl
    rw [hwh]
    apply compress_congr
    intro k hk
    have : w.blk k = (s.mem.writeRun blkBase b).read (blkBase + k) := rfl
    rw [this, Memory.read_writeRun_inside h.wf _ _ (by omega)]; rfl

/-- The same for every block of a list. -/
theorem reach_blocks (bs : List (List Byte)) : ∀ (s : State) (p), (∀ b ∈ bs, b.length = 64) →
    Ready s ((bs.flatMap (fun b => [HostStmt.wrBlk b, .cmd .compress, .waitOk])).flatMap expand ++ p) →
    ∃ t, Reach (67 * bs.length) s t ∧ Ready t p ∧
      t.h = bs.foldl (fun g b => compress g (blockByte b)) s.h ∧
      t.host.got = s.host.got := by
  induction bs with
  | nil => intro s p _ h; exact ⟨s, Reach.refl s, h, rfl, rfl⟩
  | cons b bs ih =>
    intro s p hb h
    have h' : Ready s (writeRunOps blkBase b ++ .wr addrCmd (encodeByte .compress) :: .waitOk :: ((bs.flatMap (fun b => [HostStmt.wrBlk b, .cmd .compress, .waitOk])).flatMap expand ++ p)) := by
      simpa [expand] using h
    obtain ⟨t, r1, r2, r3, r4⟩ := reach_block (hb b (by simp)) h'
    obtain ⟨t', r5, r6, r7, r8⟩ := ih t p (fun x hx => hb x (by simp [hx])) r2
    refine ⟨t', ?_, r6, ?_, by rw [r8, r4]⟩
    · rw [List.length_cons, Nat.mul_add, Nat.mul_one, Nat.add_comm]; exact Reach.trans r1 r5
    · rw [r7, r3]; rfl

/-- WRTAIL (R86). -/
theorem reach_tail {s : State} {l : List Byte} {p} (hl : l.length < 64) (h : Ready s (expand (.wrTail l) ++ p)) :
    ∃ t, Reach (l.length + 1) s t ∧ Ready t p ∧ t.h = s.h ∧ t.host.got = s.host.got ∧ t.tailLen.toNat = l.length ∧
      ∀ k, k < l.length → t.blk k = l.getD k 0 := by
  have h : Ready s (writeRunOps (blkBase + 0) l ++ (.wr addrTailLen (BitVec.ofNat 8 l.length) :: p)) := by
    have := h; simp only [expand, List.append_assoc] at this; exact this
  obtain ⟨r1, r2⟩ := reach_blk l 0 s _ h (by omega)
  have r3 := reach_wr r2
  rw [busWrite_tailLen r2.busy] at r3
  refine ⟨_, Reach.trans r1 r3, ⟨rfl, r2.pend, r2.busy, r2.bv, r2.sched, r2.stop, r2.wf⟩, rfl, rfl, ?_, ?_⟩
  · show (BitVec.ofNat 8 l.length).toNat = _
    rw [BitVec.toNat_ofNat]; omega
  · intro k hk
    show (s.mem.writeRun blkBase l).read (blkBase + k) = _
    rw [Memory.read_writeRun_inside h.wf _ _ hk]

/-- One operation for each byte. -/
theorem writeRunOps_length (a) (l : List Byte) : (writeRunOps a l).length = l.length := by
  induction l generalizing a with
  | nil => rfl
  | cons v l ih => simp [writeRunOps, ih]

/-- A whole block has 64 bytes. -/
theorem length_of_mem_chunk64 {x b : List Byte} (h : b ∈ chunk64 x) : b.length = 64 := by
  simp only [chunk64, List.mem_map, List.mem_range] at h
  obtain ⟨t, ht, rfl⟩ := h
  simp; omega

end Sys2Proof.Machine
end

