-- ==== Sys2Proof/Laws/PerInstr.lean ====
section
/-! SUPPORT. Statements about every command as syntax, one lemma per constructor. -/

namespace Sys2Proof.Laws.OneByteCommand

/-- A command is well formed (R82) and is one byte with no other bit than its opcode's low three (R80, R81). -/
def Statement (i : Instr) : Prop := i.wf = true ∧ (encode i).length = 1 ∧ (encodeByte i).toNat ≤ 5

theorem nop : Statement .nop := ⟨rfl, rfl, by decide⟩
theorem init : Statement .init := ⟨rfl, rfl, by decide⟩
theorem ldhex : Statement .ldhex := ⟨rfl, rfl, by decide⟩
theorem compress : Statement .compress := ⟨rfl, rfl, by decide⟩
theorem pad : Statement .pad := ⟨rfl, rfl, by decide⟩
theorem final : Statement .final := ⟨rfl, rfl, by decide⟩

end Sys2Proof.Laws.OneByteCommand
end

