-- ==== Sys2Proof/Laws/Schedules.lean ====
section
/-! SUPPORT. A host program that polls after every command (44_procedures.md R220) ends in the same state under every schedule
without a reset: each scheduled turn is either the next default turn or changes nothing but the last poll. And every program ends
within `enoughSteps`. -/

namespace Sys2Proof.Machine

/-! ## The schedule and the last poll reach nothing else -/

/-- The same state with another schedule and another last poll. -/
def State.onSchedule (s : State) (ts : List Turn) (b : Byte) : State :=
  { s with sched := ts, host := { s.host with polled := b } }

@[simp] theorem onSchedule_h (s : State) (ts b) : (s.onSchedule ts b).h = s.h := rfl
@[simp] theorem onSchedule_mem (s : State) (ts b) : (s.onSchedule ts b).mem = s.mem := rfl
@[simp] theorem onSchedule_work (s : State) (ts b) : (s.onSchedule ts b).work = s.work := rfl
@[simp] theorem onSchedule_status (s : State) (ts b) : (s.onSchedule ts b).status = s.status := rfl
@[simp] theorem onSchedule_pend (s : State) (ts b) : (s.onSchedule ts b).pend = s.pend := rfl
@[simp] theorem onSchedule_sched (s : State) (ts b) : (s.onSchedule ts b).sched = ts := rfl
@[simp] theorem onSchedule_prog (s : State) (ts b) : (s.onSchedule ts b).host.prog = s.host.prog := rfl
@[simp] theorem onSchedule_polled (s : State) (ts b) : (s.onSchedule ts b).host.polled = b := rfl
@[simp] theorem onSchedule_padBlock (s : State) (ts b) : (s.onSchedule ts b).padBlock = s.padBlock := rfl
@[simp] theorem onSchedule_blk (s : State) (ts b) : (s.onSchedule ts b).blk = s.blk := rfl
@[simp] theorem onSchedule_ended (s : State) (ts b) : (s.onSchedule ts b).ended = s.ended := rfl
@[simp] theorem onSchedule_self (s : State) : s.onSchedule s.sched s.host.polled = s := rfl
@[simp] theorem onSchedule_onSchedule (s : State) (ts us b c) : (s.onSchedule ts b).onSchedule us c = s.onSchedule us c := rfl
theorem onSchedule_complete (s : State) (ts b c) : (s.onSchedule ts b).complete c = (s.complete c).onSchedule ts b := rfl
theorem onSchedule_withH (s : State) (ts b g) : (s.onSchedule ts b).withH g = (s.withH g).onSchedule ts b := rfl
theorem onSchedule_withWork (s : State) (ts b k) : (s.onSchedule ts b).withWork k = (s.withWork k).onSchedule ts b := rfl
theorem onSchedule_padGen (s : State) (ts b) : (s.onSchedule ts b).padGen = s.padGen.onSchedule ts b := rfl

theorem onSchedule_compressPadBlocks (s : State) (ts b q) :
    (s.onSchedule ts b).compressPadBlocks q = (s.compressPadBlocks q).onSchedule ts b := by
  induction q with
  | zero => rfl
  | succ q ih =>
    rw [compressPadBlocks_succ, compressPadBlocks_succ, ih]
    generalize s.compressPadBlocks q = u
    unfold State.compressPadBlock
    rw [onSchedule_h, onSchedule_padBlock, onSchedule_work, onSchedule_withH, onSchedule_withWork]

/-- A command neither reads nor writes them. -/
theorem exec_onSchedule (i : Instr) (s : State) (ts b) :
    ∃ t, exec i s = .next t ∧ exec i (s.onSchedule ts b) = .next (t.onSchedule ts b) := by
  cases i with
  | nop => exact ⟨_, rfl, rfl⟩
  | init => exact ⟨_, rfl, rfl⟩
  | ldhex =>
    show ∃ t, execLdhex s = .next t ∧ execLdhex (s.onSchedule ts b) = .next (t.onSchedule ts b)
    cases h : s.hexDigest with
    | none => exact ⟨_, execLdhex_none h, execLdhex_none (s := s.onSchedule ts b) h⟩
    | some g => exact ⟨_, execLdhex_some h, execLdhex_some (s := s.onSchedule ts b) h⟩
  | compress =>
    refine ⟨_, execCompress_eq s, (execCompress_eq _).trans ?_⟩
    rw [onSchedule_h, onSchedule_blk, onSchedule_work, onSchedule_withH, onSchedule_withWork, onSchedule_complete]
  | pad =>
    show ∃ t, execPad s = .next t ∧ execPad (s.onSchedule ts b) = .next (t.onSchedule ts b)
    cases h : s.padChecksPass with
    | false => exact ⟨_, execPad_fail h, execPad_fail (s := s.onSchedule ts b) h⟩
    | true => exact ⟨_, execPad_pass h, execPad_pass (s := s.onSchedule ts b) h⟩
  | final =>
    show ∃ t, execFinal s = .next t ∧ execFinal (s.onSchedule ts b) = .next (t.onSchedule ts b)
    cases h : s.padChecksPass with
    | false => exact ⟨_, execFinal_fail h, execFinal_fail (s := s.onSchedule ts b) h⟩
    | true =>
      refine ⟨_, execFinal_pass h, (execFinal_pass (s := s.onSchedule ts b) h).trans ?_⟩
      rw [onSchedule_padGen, onSchedule_work, onSchedule_withWork, onSchedule_compressPadBlocks, onSchedule_complete]
      rfl

theorem completion_onSchedule (s : State) (op ts b) :
    ∃ t, s.completion op = .next t ∧ (s.onSchedule ts b).completion op = .next (t.onSchedule ts b) := by
  unfold State.completion
  cases decodeByte op with
  | ok i => exact exec_onSchedule i s ts b
  | error e => exact ⟨_, rfl, rfl⟩

theorem busWrite_onSchedule (s : State) (a v ts b) : (s.onSchedule ts b).busWrite a v = (s.busWrite a v).onSchedule ts b := by
  unfold State.busWrite
  rw [onSchedule_status]
  split
  · rfl
  · cases regionOf a <;> rfl

theorem hostRead_onSchedule (s : State) (a p ts b) :
    (s.onSchedule ts b).hostRead a p = (s.hostRead a p).onSchedule ts b := by
  simp only [State.hostRead, State.afterRead, show (s.onSchedule ts b).readsFree a = s.readsFree a from rfl]
  split <;> rfl

/-- A read changes the host and the draw counter. -/
theorem hostRead_frame (s : State) (a p) : ∃ n, s.hostRead a p =
    { s with host := { s.host with prog := p, got := s.host.got ++ [s.readByte a] }, draws := n } := by
  refine ⟨(s.afterRead a).draws, ?_⟩
  simp only [State.hostRead]
  rw [afterRead_frame]

/-! ## Polls -/

/-- A poll of a busy core goes on polling. -/
theorem hostWait_busy {s : State} (h : s.status.busy = true) (p) : s.hostWait p = s.hostPoll := by
  unfold State.hostWait; rw [toByte_busy, if_pos h]

theorem hostWaitOk_busy {s : State} (h : s.status.busy = true) (p) : s.hostWaitOk p = s.hostPoll := by
  unfold State.hostWaitOk; rw [toByte_busy, if_pos h]

/-- A poll of an idle core goes on with the program. -/
theorem hostWait_idle {s : State} (h : s.status.busy = false) (p) : s.hostWait p = s.hostPoll.withProg p := by
  unfold State.hostWait; rw [toByte_busy, if_neg (by simp [h])]

theorem hostWaitOk_ok {s : State} (h : s.status.busy = false) (e : s.status.err = 0) (p) :
    s.hostWaitOk p = s.hostPoll.withProg p := by
  unfold State.hostWaitOk; rw [toByte_busy, if_neg (by simp [h]), errField_toByte, if_pos e]

/-- The host after a WAITOK that read an error. -/
def State.hostStop (s : State) : State :=
  { s with host := { s.host with prog := [], polled := s.status.toByte, stopped := some s.status.err } }

/-- Or a WAITOK stops it (R86). -/
theorem hostWaitOk_error {s : State} (h : s.status.busy = false) (e : s.status.err ≠ 0) (p) :
    s.hostWaitOk p = s.hostStop := by
  unfold State.hostWaitOk; rw [toByte_busy, if_neg (by simp [h]), errField_toByte, if_neg e]; rfl

/-! ## Programs that poll after every command -/

/-- The next operation is a poll. -/
def startsWithPoll : List HostOp → Bool
  | .wait :: _ => true
  | .waitOk :: _ => true
  | [] => false
  | .wr _ _ :: _ => false
  | .rd _ :: _ => false
  | .rdPad :: _ => false

/-- "Every command in it is followed by `WAITOK` (or by `WAIT` ...) before any other bus transaction" (R220). -/
def pollsAfterCommands : List HostOp → Bool
  | [] => true
  | .wr a _ :: p => (decide (a ≠ 0x000) || startsWithPoll p) && pollsAfterCommands p
  | .rd _ :: p => pollsAfterCommands p
  | .wait :: p => pollsAfterCommands p
  | .waitOk :: p => pollsAfterCommands p
  | .rdPad :: p => pollsAfterCommands p

/-- A machine in the middle of such a program: no reset to come, BUSY exactly with a pending command (R32), and while a command
is pending the next operation a poll. -/
structure Polite (s : State) : Prop where
  noReset : Turn.reset ∉ s.sched
  busyPend : s.status.busy = s.pend.isSome
  polls : pollsAfterCommands s.host.prog = true
  pendPolls : s.pend.isSome = true → startsWithPoll s.host.prog = true

/-- Reads need no poll. -/
theorem pollsAfterCommands_readRun (base n : Nat) (p : List HostOp) :
    pollsAfterCommands (readRun base n ++ p) = pollsAfterCommands p := by
  unfold readRun
  induction List.range n with
  | nil => rfl
  | cons k l ih => exact ih

theorem pollsAfterCommands_append_of_polled {p q : List HostOp} (h : pollsAfterCommands p = true)
    (hq : pollsAfterCommands q = true) : pollsAfterCommands (p ++ q) = true := by
  induction p with
  | nil => exact hq
  | cons o p ih =>
    cases o with
    | wr a v =>
      simp only [pollsAfterCommands, List.cons_append, Bool.and_eq_true, Bool.or_eq_true] at h ⊢
      refine ⟨h.1.imp id (fun e => ?_), ih h.2⟩
      cases p with
      | nil => simp [startsWithPoll] at e
      | cons o p => cases o <;> simp_all [startsWithPoll]
    | rd a => exact ih h
    | wait => exact ih h
    | waitOk => exact ih h
    | rdPad => exact ih h

/-- An idle core and its host's turn, for a program that polls after commands: it stays polite, and the turn commutes with
another schedule and, up to a poll about to be made, another last poll. -/
theorem polite_hostTurn {s : State} (h : Polite s) (hp : s.pend = none) :
    Polite s.hostTurn ∧ s.hostTurn.sched = s.sched ∧
    ∀ ts b, (b = s.host.polled ∨ startsWithPoll s.host.prog = true) →
      ∃ c, (c = s.hostTurn.host.polled ∨ startsWithPoll s.hostTurn.host.prog = true) ∧
        (s.onSchedule ts b).hostTurn = s.hostTurn.onSchedule ts c := by
  have hb : s.status.busy = false := by rw [h.busyPend, hp]; rfl
  have hq := h.polls
  cases e : s.host.prog with
  | nil =>
    have e1 : s.hostTurn = s := by simp only [State.hostTurn, e]
    rw [e1]
    refine ⟨h, rfl, fun ts b hb => ⟨b, hb.imp id (fun x => by rw [e]; exact x), ?_⟩⟩
    simp only [State.hostTurn, onSchedule_prog, e]
  | cons o p =>
    rw [e] at hq
    cases o with
    | wr a v =>
      have e1 : s.hostTurn = (s.busWrite a v).withProg p := by simp only [State.hostTurn, e]
      obtain ⟨f1, f2, -⟩ := busWrite_frame s a v
      simp only [pollsAfterCommands, Bool.and_eq_true, Bool.or_eq_true, decide_eq_true_eq] at hq
      have key : (s.busWrite a v).status.busy = (s.busWrite a v).pend.isSome ∧
          ((s.busWrite a v).pend.isSome = true → startsWithPoll p = true) := by
        rcases busWrite_cases s a v with ⟨_, x⟩ | ⟨_, y, _⟩ | ⟨y, _, x⟩ | ⟨y, z, _, x⟩
        · rw [x]; exact ⟨h.busyPend, by simp [hp]⟩
        · rw [hb] at y; exact absurd y (by decide)
        · rw [x]; exact ⟨rfl, fun _ => hq.1.resolve_left (by simp [y])⟩
        · rw [x, writeRegion_frame s v y z]; exact ⟨h.busyPend, by simp [hp]⟩
      refine ⟨⟨?_, ?_, ?_, ?_⟩, ?_, ?_⟩
      · rw [e1, withProg_sched, f2]; exact h.noReset
      · rw [e1]; exact key.1
      · rw [e1]; exact hq.2
      · rw [e1]; exact key.2
      · rw [e1, withProg_sched, f2]
      · intro ts b hx
        refine ⟨b, .inl ?_, ?_⟩
        · rw [e1, withProg_host, f1]
          exact hx.resolve_right (by simp [startsWithPoll])
        · rw [e1]
          simp only [State.hostTurn, onSchedule_prog, e]
          rw [busWrite_onSchedule]; rfl
    | rd a =>
      have e1 : s.hostTurn = s.hostRead a p := by simp only [State.hostTurn, e]
      have e2 : s.hostRead a p = { s with host := { s.host with prog := p, got := s.host.got ++ [s.readByte a] } } := by
        simp only [State.hostRead, afterRead_idle hb]
      refine ⟨by rw [e1, e2]; exact ⟨h.noReset, h.busyPend, hq, by simp [hp]⟩, by rw [e1, e2], fun ts b hx => ⟨b, .inl ?_, ?_⟩⟩
      · rw [e1, e2]; exact hx.resolve_right (by simp [startsWithPoll])
      · rw [e1, ← hostRead_onSchedule]; simp only [State.hostTurn, onSchedule_prog, e]
    | wait =>
      have e1 : s.hostTurn = s.hostPoll.withProg p := by
        simp only [State.hostTurn, e]; exact hostWait_idle hb p
      refine ⟨by rw [e1]; exact ⟨h.noReset, h.busyPend, hq, by simp [hp]⟩, by rw [e1]; rfl,
        fun ts b hx => ⟨s.hostTurn.host.polled, .inl rfl, ?_⟩⟩
      rw [e1]
      simp only [State.hostTurn, onSchedule_prog, e]
      exact hostWait_idle (s := s.onSchedule ts b) hb p
    | waitOk =>
      by_cases er : s.status.err = 0
      · have e1 : s.hostTurn = s.hostPoll.withProg p := by
          simp only [State.hostTurn, e]; exact hostWaitOk_ok hb er p
        refine ⟨by rw [e1]; exact ⟨h.noReset, h.busyPend, hq, by simp [hp]⟩, by rw [e1]; rfl,
          fun ts b hx => ⟨s.hostTurn.host.polled, .inl rfl, ?_⟩⟩
        rw [e1]
        simp only [State.hostTurn, onSchedule_prog, e]
        exact hostWaitOk_ok (s := s.onSchedule ts b) hb er p
      · have e1 : s.hostTurn = s.hostStop := by
          simp only [State.hostTurn, e]; exact hostWaitOk_error hb er p
        refine ⟨by rw [e1]; exact ⟨h.noReset, h.busyPend, rfl, fun x => absurd x (by rw [show s.hostStop.pend = none from hp]; decide)⟩, by rw [e1]; rfl,
          fun ts b hx => ⟨s.hostTurn.host.polled, .inl rfl, ?_⟩⟩
        rw [e1]
        simp only [State.hostTurn, onSchedule_prog, e]
        exact hostWaitOk_error (s := s.onSchedule ts b) hb er p
    | rdPad =>
      set q := readRun padBufBase (64 * (s.readByte addrPadBlks).toNat) ++ p with hqd
      have e1 : s.hostTurn = s.hostRead addrPadBlks q := by simp only [State.hostTurn, e, hqd]
      have e2 : s.hostRead addrPadBlks q =
          { s with host := { s.host with prog := q, got := s.host.got ++ [s.readByte addrPadBlks] } } := by
        simp only [State.hostRead, afterRead_idle hb]
      refine ⟨by rw [e1, e2]; exact ⟨h.noReset, h.busyPend, (pollsAfterCommands_readRun _ _ p).trans hq, by simp [hp]⟩,
        by rw [e1, e2], fun ts b hx => ⟨b, .inl ?_, ?_⟩⟩
      · rw [e1, e2]; exact hx.resolve_right (by simp [startsWithPoll])
      · rw [e1, ← hostRead_onSchedule]
        simp only [State.hostTurn, onSchedule_prog, e]
        rfl

/-- A completion, the same way. -/
theorem polite_completion {s : State} (h : Polite s) (op : Byte) :
    ∃ t, s.completion op = .next t ∧ Polite t ∧ t.sched = s.sched ∧ t.host = s.host ∧
      ∀ ts b, (s.onSchedule ts b).completion op = .next (t.onSchedule ts b) := by
  obtain ⟨t, x, -⟩ := completion_onSchedule s op s.sched s.host.polled
  have all : ∀ ts b, (s.onSchedule ts b).completion op = .next (t.onSchedule ts b) := fun ts b => by
    obtain ⟨u, y, z⟩ := completion_onSchedule s op ts b
    rw [x] at y; rw [z, Host.Outcome.next.inj y]
  obtain ⟨u, y, st, pn, -⟩ := completion_status s op
  rw [x] at y; obtain rfl := Host.Outcome.next.inj y
  have fr : t.sched = s.sched ∧ t.host = s.host := by
    rcases completion_cases s op with e | ⟨_, _, g, k, e⟩ | ⟨_, _, ⟨_, k, e⟩ | ⟨_, g, k, e⟩⟩ <;>
      rw [x] at e <;> rw [Host.Outcome.next.inj e] <;> exact ⟨rfl, rfl⟩
  refine ⟨t, x, ⟨by rw [fr.1]; exact h.noReset, by rw [st, pn]; rfl, by rw [fr.2]; exact h.polls, by simp [pn]⟩, fr.1, fr.2, all⟩

/-- A step of a polite machine is a scheduled turn that changes nothing but the last poll, or the step it takes with nothing
scheduled. -/
theorem polite_step {s : State} (h : Polite s) :
    ∃ t, step s = .next t ∧ Polite t ∧
      ((t.sched.length < s.sched.length ∧ ∀ b, (b = s.host.polled ∨ startsWithPoll s.host.prog = true) →
          (b = t.host.polled ∨ startsWithPoll t.host.prog = true) ∧ s.onSchedule [] b = t.onSchedule [] b) ∨
       (t.sched.length ≤ s.sched.length ∧ ∀ b, (b = s.host.polled ∨ startsWithPoll s.host.prog = true) →
          ∃ c, (c = t.host.polled ∨ startsWithPoll t.host.prog = true) ∧
            step (s.onSchedule [] b) = .next (t.onSchedule [] c))) := by
  -- the turn the machine takes, and the state it is taken from
  obtain ⟨u, ts, hu, hs, hle, hcase⟩ : ∃ u ts, s.nextTurn = (u, { s with sched := ts }) ∧ Turn.reset ∉ ts ∧
      ts.length ≤ s.sched.length ∧ (s.sched = u :: ts ∨ (s.sched = [] ∧ ts = [] ∧ u = s.defaultTurn)) := by
    cases e : s.sched with
    | nil => exact ⟨s.defaultTurn, [], by rw [nextTurn_of_nil e, ← e], by simp, by simp, .inr ⟨rfl, rfl, rfl⟩⟩
    | cons u ts => exact ⟨u, ts, nextTurn_of_cons e, fun x => h.noReset (by rw [e]; simp [x]), by simp, .inl rfl⟩
  have hr : u ≠ .reset := by
    rintro rfl
    rcases hcase with e | ⟨-, -, e⟩
    · exact h.noReset (by rw [e]; simp)
    · revert e; unfold State.defaultTurn; split <;> simp
  set v : State := { s with sched := ts } with hv
  have pv : Polite v := ⟨hs, h.busyPend, h.polls, h.pendPolls⟩
  have sv : ∀ b, s.onSchedule [] b = v.onSchedule [] b := fun b => rfl
  have es : step s = v.takeTurn u := by rw [step_eq, hu]
  have e0 : ∀ b, step (v.onSchedule [] b) = (v.onSchedule [] b).takeTurn v.defaultTurn := fun b => by
    rw [step_eq, nextTurn_of_nil rfl]; rfl
  cases hp : s.pend with
  | none =>
    have dt : v.defaultTurn = .host := by unfold State.defaultTurn; rw [show v.pend = none from hp]; rfl
    cases u with
    | reset => exact absurd rfl hr
    | host =>
      obtain ⟨a, b, c⟩ := polite_hostTurn pv hp
      refine ⟨v.hostTurn, es, a, .inr ⟨by rw [b]; exact hle, fun x hx => ?_⟩⟩
      obtain ⟨y, hy, hz⟩ := c [] x hx
      exact ⟨y, hy, by rw [sv, e0, dt]; exact congrArg _ hz⟩
    | core =>
      have lt : ts.length < s.sched.length := by
        rcases hcase with e | ⟨-, -, e⟩
        · rw [e]; simp
        · have dt' : s.defaultTurn = .host := dt
          rw [dt'] at e; exact absurd e (by decide)
      exact ⟨v, by rw [es]; exact coreTurn_none hp, pv, .inl ⟨lt, fun b hb => ⟨hb, sv b⟩⟩⟩
  | some op =>
    have dt : v.defaultTurn = .core := by unfold State.defaultTurn; rw [show v.pend = some op from hp]; rfl
    cases u with
    | reset => exact absurd rfl hr
    | core =>
      obtain ⟨t, a, b, c, d, e⟩ := polite_completion pv op
      refine ⟨t, by rw [es]; exact (coreTurn_some (s := v) hp).trans a, b, .inr ⟨by rw [c]; exact hle, fun x hx => ⟨x, ?_, ?_⟩⟩⟩
      · rw [d]; exact hx
      · rw [sv, e0, dt]; exact (coreTurn_some (s := v.onSchedule [] x) hp).trans (e [] x)
    | host =>
      have lt : ts.length < s.sched.length := by
        rcases hcase with e | ⟨-, -, e⟩
        · rw [e]; simp
        · have dt' : s.defaultTurn = .core := dt
          rw [dt'] at e; exact absurd e (by decide)
      have sw : startsWithPoll v.host.prog = true := h.pendPolls (by rw [hp]; rfl)
      have bz : v.status.busy = true := h.busyPend.trans (by rw [hp]; rfl)
      have ht : v.hostTurn = v.hostPoll := by
        cases e : v.host.prog with
        | nil => rw [e] at sw; exact absurd sw (by decide)
        | cons o p =>
          rw [e] at sw
          cases o with
          | wr _ _ => exact absurd sw (by simp [startsWithPoll])
          | rd _ => exact absurd sw (by simp [startsWithPoll])
          | rdPad => exact absurd sw (by simp [startsWithPoll])
          | wait => simp only [State.hostTurn, e]; exact hostWait_busy bz p
          | waitOk => simp only [State.hostTurn, e]; exact hostWaitOk_busy bz p
      refine ⟨v.hostPoll, by rw [es]; exact congrArg _ ht, ⟨hs, h.busyPend, h.polls, h.pendPolls⟩, .inl ⟨lt, fun b _ => ⟨.inr sw, rfl⟩⟩⟩

/-- What a polite program ends in with nothing scheduled, it ends in under its schedule, which only costs steps. -/
theorem runToEnd_onSchedule : ∀ (k n : Nat) (s : State) (b : Byte) (t : State), Polite s → s.sched.length + n ≤ k →
    (b = s.host.polled ∨ startsWithPoll s.host.prog = true) →
    runToEnd n (s.onSchedule [] b) = .next t → t.ended = true →
    ∃ ts, Turn.reset ∉ ts ∧ runToEnd k s = .next (t.onSchedule ts t.host.polled) ∧ t.sched = [] := by
  intro k
  induction k with
  | zero =>
    intro n s b t h hk hb hr he
    obtain rfl : n = 0 := by omega
    have : s.onSchedule [] b = t := Host.Outcome.next.inj hr
    subst this
    rw [onSchedule_ended] at he
    have hp := ((ended_iff s).1 he).1
    refine ⟨s.sched, h.noReset, ?_, rfl⟩
    rw [runToEnd_of_ended he]
    rcases hb with rfl | hb
    · rfl
    · rw [hp] at hb; exact absurd hb (by decide)
  | succ k ih =>
    intro n s b t h hk hb hr he
    cases hs : s.ended with
    | true =>
      have hp := ((ended_iff s).1 hs).1
      rw [runToEnd_of_ended (by rw [onSchedule_ended]; exact hs)] at hr
      have : s.onSchedule [] b = t := Host.Outcome.next.inj hr
      subst this
      refine ⟨s.sched, h.noReset, ?_, rfl⟩
      rw [runToEnd_of_ended hs]
      rcases hb with rfl | hb
      · rfl
      · rw [hp] at hb; exact absurd hb (by decide)
    | false =>
      obtain ⟨u, e, pu, ⟨lt, st⟩ | ⟨le, st⟩⟩ := polite_step h
      · obtain ⟨hb', eq⟩ := st b hb
        rw [eq] at hr
        obtain ⟨ts, a, c, d⟩ := ih n u b t pu (by omega) hb' hr he
        exact ⟨ts, a, by rw [runToEnd_succ hs, e]; exact c, d⟩
      · obtain ⟨c, hc, ec⟩ := st b hb
        cases n with
        | zero =>
          have : s.onSchedule [] b = t := Host.Outcome.next.inj hr
          subst this
          rw [onSchedule_ended, hs] at he; exact absurd he (by decide)
        | succ n =>
          rw [runToEnd_succ (by rw [onSchedule_ended]; exact hs), ec] at hr
          obtain ⟨ts, x, y, z⟩ := ih n u c t pu (by omega) hc hr he
          exact ⟨ts, x, by rw [runToEnd_succ hs, e]; exact y, z⟩

/-! ## Every program ends -/

/-- The turns a run may still take: those scheduled, those of the operations left, and a pending completion. -/
def State.turnsLeft (s : State) : Nat :=
  s.sched.length + (s.host.prog.map HostOp.turns).sum + (if s.pend.isSome then 1 else 0)

/-- Only a pending command makes the core BUSY (R32). -/
def State.BusyIsPending (s : State) : Prop := s.status.busy = true → s.pend.isSome = true

theorem turns_readRun (base n : Nat) (p : List HostOp) :
    ((readRun base n ++ p).map HostOp.turns).sum = n + (p.map HostOp.turns).sum := by
  have : ((readRun base n).map HostOp.turns).sum = n := by
    simp [readRun, HostOp.turns, Function.comp_def]
  rw [List.map_append, List.sum_append, this]

/-- The host's turn never adds to the turns left, and of an idle core with something to do it takes some away. -/
theorem hostTurn_turnsLeft {s : State} (h : s.BusyIsPending) :
    s.hostTurn.BusyIsPending ∧ s.hostTurn.turnsLeft ≤ s.turnsLeft ∧
    (s.pend = none → s.host.prog ≠ [] → s.hostTurn.turnsLeft < s.turnsLeft) := by
  cases e : s.host.prog with
  | nil =>
    have e1 : s.hostTurn = s := by simp only [State.hostTurn, e]
    rw [e1]; exact ⟨h, Nat.le_refl _, fun _ x => absurd rfl x⟩
  | cons o p =>
    -- the host's own state and the draw counter change, nothing else
    have own : ∀ t : State, s.hostTurn = t → t.pend = s.pend → t.status = s.status → t.sched = s.sched →
        (t.host.prog.map HostOp.turns).sum ≤ ((o :: p).map HostOp.turns).sum →
        (s.status.busy = false → (t.host.prog.map HostOp.turns).sum < ((o :: p).map HostOp.turns).sum) →
        s.hostTurn.BusyIsPending ∧ s.hostTurn.turnsLeft ≤ s.turnsLeft ∧
          (s.pend = none → o :: p ≠ [] → s.hostTurn.turnsLeft < s.turnsLeft) := by
      intro t a b c d f g
      rw [a]
      refine ⟨by unfold State.BusyIsPending; rw [b, c]; exact h, ?_, fun x _ => ?_⟩
      · unfold State.turnsLeft; rw [b, d, e]; omega
      · have hb : s.status.busy = false := by
          cases hb : s.status.busy with
          | false => rfl
          | true => have := h hb; rw [x] at this; exact absurd this (by decide)
        have := g hb
        unfold State.turnsLeft; rw [b, d, e]; omega
    cases o with
    | wr a v =>
      have e1 : s.hostTurn = (s.busWrite a v).withProg p := by simp only [State.hostTurn, e]
      obtain ⟨-, f2, -⟩ := busWrite_frame s a v
      have key : ((s.busWrite a v).status.busy = true → (s.busWrite a v).pend.isSome = true) ∧
          ((s.busWrite a v).pend = s.pend ∨ s.pend = none ∨ (s.busWrite a v).pend.isSome = s.pend.isSome) := by
        rcases busWrite_cases s a v with ⟨_, x⟩ | ⟨_, y, x⟩ | ⟨y, _, x⟩ | ⟨y, z, _, x⟩
        · rw [x]; exact ⟨h, .inl rfl⟩
        · rw [x]; exact ⟨h, .inl rfl⟩
        · rw [x]
          refine ⟨fun _ => rfl, ?_⟩
          cases hp : s.pend with
          | none => exact .inr (.inl rfl)
          | some o => exact .inr (.inr rfl)
        · rw [x, writeRegion_frame s v y z]; exact ⟨h, .inl rfl⟩
      rw [e1]
      have sum : (((HostOp.wr a v) :: p).map HostOp.turns).sum = 2 + (p.map HostOp.turns).sum := rfl
      have one : ∀ b : Bool, (if b = true then 1 else 0) ≤ 1 := by decide
      refine ⟨key.1, ?_, fun _ _ => ?_⟩ <;>
        (unfold State.turnsLeft; rw [withProg_sched, f2, withProg_host, e, sum, withProg_pend]
         have := one (s.busWrite a v).pend.isSome
         have := one s.pend.isSome
         dsimp only
         omega)
    | rd a =>
      obtain ⟨n, r⟩ := hostRead_frame s a p
      have x := (show s.hostTurn = s.hostRead a p by simp only [State.hostTurn, e]).trans r
      exact own _ x rfl rfl rfl (by simp [HostOp.turns]) (fun _ => by simp [HostOp.turns])
    | wait =>
      cases hb : s.status.busy with
      | true => exact own s.hostPoll (by simp only [State.hostTurn, e]; exact hostWait_busy hb p) rfl rfl rfl
                  (by rw [hostPoll_host, e]) (fun x => by rw [hb] at x; exact absurd x (by decide))
      | false => exact own (s.hostPoll.withProg p) (by simp only [State.hostTurn, e]; exact hostWait_idle hb p) rfl rfl rfl
                  (by simp [HostOp.turns]) (fun _ => by simp [HostOp.turns])
    | waitOk =>
      cases hb : s.status.busy with
      | true => exact own s.hostPoll (by simp only [State.hostTurn, e]; exact hostWaitOk_busy hb p) rfl rfl rfl
                  (by rw [hostPoll_host, e]) (fun x => by rw [hb] at x; exact absurd x (by decide))
      | false =>
        by_cases er : s.status.err = 0
        · exact own (s.hostPoll.withProg p) (by simp only [State.hostTurn, e]; exact hostWaitOk_ok hb er p) rfl rfl rfl
            (by simp [HostOp.turns]) (fun _ => by simp [HostOp.turns])
        · exact own s.hostStop (by simp only [State.hostTurn, e]; exact hostWaitOk_error hb er p) rfl rfl rfl
            (by simp [State.hostStop, HostOp.turns]) (fun _ => by simp [State.hostStop, HostOp.turns])
    | rdPad =>
      have q : (s.readByte addrPadBlks).toNat ≤ 255 := by omega
      have sum : ((readRun padBufBase (64 * (s.readByte addrPadBlks).toNat) ++ p).map HostOp.turns).sum <
          ((HostOp.rdPad :: p).map HostOp.turns).sum := by
        rw [turns_readRun, List.map_cons, List.sum_cons, HostOp.turns]; omega
      obtain ⟨n, r⟩ := hostRead_frame s addrPadBlks (readRun padBufBase (64 * (s.readByte addrPadBlks).toNat) ++ p)
      have x := (show s.hostTurn = s.hostRead addrPadBlks (readRun padBufBase (64 * (s.readByte addrPadBlks).toNat) ++ p) by
        simp only [State.hostTurn, e]).trans r
      exact own _ x rfl rfl rfl (Nat.le_of_lt sum) (fun _ => sum)

/-- A step of a machine in which only a pending command makes the core BUSY takes a turn from those left, while its program has
not ended. -/
theorem step_turnsLeft {s : State} (h : s.BusyIsPending) (hne : s.ended = false) :
    ∃ t, step s = .next t ∧ t.BusyIsPending ∧ t.turnsLeft < s.turnsLeft := by
  have comp : ∀ (v : State) op, v.pend = some op → ∃ t, v.completion op = .next t ∧ t.BusyIsPending ∧
      t.turnsLeft < v.turnsLeft := by
    intro v op hv
    obtain ⟨t, x, st, pn, -⟩ := completion_status v op
    refine ⟨t, x, ?_, ?_⟩
    · intro hb; rw [st] at hb; exact absurd hb (by simp)
    · have fr : t.sched = v.sched ∧ t.host = v.host := by
        rcases completion_cases v op with e | ⟨_, _, g, k, e⟩ | ⟨_, _, ⟨_, k, e⟩ | ⟨_, g, k, e⟩⟩ <;>
          rw [x] at e <;> rw [Host.Outcome.next.inj e] <;> exact ⟨rfl, rfl⟩
      unfold State.turnsLeft
      rw [fr.1, fr.2, pn, hv]
      simp
  cases e : s.sched with
  | nil =>
    have es : step s = s.takeTurn s.defaultTurn := by rw [step_eq, nextTurn_of_nil e]
    cases hp : s.pend with
    | some op =>
      obtain ⟨t, a, b, c⟩ := comp s op hp
      exact ⟨t, by rw [es, State.defaultTurn, hp]; exact (coreTurn_some hp).trans a, b, c⟩
    | none =>
      have np : s.host.prog ≠ [] := fun x => by
        have := (ended_iff s).2 ⟨x, hp⟩; rw [hne] at this; exact absurd this (by decide)
      obtain ⟨a, -, c⟩ := hostTurn_turnsLeft h
      exact ⟨s.hostTurn, by rw [es, State.defaultTurn, hp]; rfl, a, c hp np⟩
  | cons u ts =>
    have es : step s = ({ s with sched := ts } : State).takeTurn u := by rw [step_eq, nextTurn_of_cons e]
    set v : State := { s with sched := ts } with hv
    have lt : v.turnsLeft < s.turnsLeft := by
      unfold State.turnsLeft; rw [e, hv]; simp
    cases u with
    | host =>
      obtain ⟨a, b, -⟩ := hostTurn_turnsLeft (s := v) h
      exact ⟨v.hostTurn, es, a, Nat.lt_of_le_of_lt b lt⟩
    | reset =>
      refine ⟨v.hardReset, es, fun x => absurd x (by rw [hardReset_status]; decide), Nat.lt_of_le_of_lt ?_ lt⟩
      unfold State.turnsLeft
      exact Nat.add_le_add (Nat.le_refl _) (Nat.zero_le _)
    | core =>
      cases hp : s.pend with
      | none => exact ⟨v, by rw [es]; exact coreTurn_none hp, h, lt⟩
      | some op =>
        obtain ⟨t, a, b, c⟩ := comp v op hp
        exact ⟨t, by rw [es]; exact (coreTurn_some (s := v) hp).trans a, b, Nat.lt_trans c lt⟩

/-- A run of as many steps as there are turns left ends the program. -/
theorem runToEnd_ends : ∀ (n : Nat) (s : State), s.BusyIsPending → s.turnsLeft ≤ n →
    ∃ t, runToEnd n s = .next t ∧ t.ended = true := by
  intro n
  induction n with
  | zero =>
    intro s h hn
    refine ⟨s, rfl, (ended_iff s).2 ?_⟩
    cases hs : s.ended with
    | true => exact (ended_iff s).1 hs
    | false => obtain ⟨t, -, -, c⟩ := step_turnsLeft h hs; omega
  | succ n ih =>
    intro s h hn
    cases hs : s.ended with
    | true => exact ⟨s, runToEnd_of_ended hs _, hs⟩
    | false =>
      obtain ⟨t, a, b, c⟩ := step_turnsLeft h hs
      rw [runToEnd_succ hs, a]
      exact ih t b (by omega)

/-- Every program ends within `enoughSteps`, under every schedule, from every state in which only a pending command makes the core
BUSY. -/
theorem enoughSteps_suffice {s : State} (h : s.BusyIsPending) (p : List HostOp) :
    ∃ t, runToEnd (enoughSteps s p) (s.loadProgram p) = .next t ∧ t.ended = true :=
  runToEnd_ends _ _ h (by
    unfold State.turnsLeft enoughSteps
    rw [loadProgram_sched, loadProgram_host, loadProgram_pend]
    cases s.pend.isSome <;> simp)

/-- More steps leave a run that has ended as it is. -/
theorem runToEnd_of_le : ∀ {n m : Nat} {s t : State}, runToEnd n s = .next t → t.ended = true → n ≤ m →
    runToEnd m s = .next t := by
  intro n
  induction n with
  | zero =>
    intro m s t h he _
    obtain rfl : s = t := Host.Outcome.next.inj h
    exact runToEnd_of_ended he m
  | succ n ih =>
    intro m s t h he hm
    obtain ⟨m, rfl⟩ : ∃ k, m = k + 1 := ⟨m - 1, by omega⟩
    cases hs : s.ended with
    | true => rw [runToEnd_of_ended hs] at h ⊢; exact h
    | false =>
      rw [runToEnd_succ hs] at h ⊢
      cases e : step s with
      | next u => rw [e] at h; exact ih h he (by omega)
      | fault r => rw [e] at h; exact absurd h (by simp)
      | refused r => rw [e] at h; exact absurd h (by simp)

/-- What a program that polls after every command ends in from an idle core with nothing scheduled, `runProgram` answers under
every schedule without a reset. -/
theorem runProgram_onSchedule {s t : State} {p : List HostStmt} {ops : List HostOp} {k : Nat} (hp : s.pend = none)
    (hb : s.status.busy = false) (hr : Turn.reset ∉ s.sched) (ha : assemble p = some ops)
    (hq : pollsAfterCommands ops = true)
    (h : runToEnd k (({ s with sched := [] } : State).loadProgram ops) = .next t) (he : t.ended = true) :
    ∃ ts, Turn.reset ∉ ts ∧ runProgram s p =
      match t.host.stopped with
      | some c => .fault (.programStopped c)
      | none => .next { t with sched := ts } := by
  have idle : ({ s with sched := [] } : State).BusyIsPending := fun x => by
    rw [show ({ s with sched := [] } : State).status.busy = false from hb] at x; exact absurd x (by decide)
  obtain ⟨u, x, y⟩ := enoughSteps_suffice idle ops
  obtain rfl : t = u := by
    have a := runToEnd_of_le h he (Nat.le_max_left k (enoughSteps { s with sched := [] } ops))
    rw [runToEnd_of_le x y (Nat.le_max_right _ _)] at a
    exact (Host.Outcome.next.inj a).symm
  have pol : Polite (s.loadProgram ops) := ⟨hr, by rw [loadProgram_status, loadProgram_pend, hb, hp]; rfl, hq, by simp [hp]⟩
  obtain ⟨ts, a, b, -⟩ := runToEnd_onSchedule (enoughSteps s ops) _ (s.loadProgram ops) 0x00 t pol
    (by unfold enoughSteps; rw [loadProgram_sched]; simp [Nat.add_assoc]) (.inl rfl) x he
  refine ⟨ts, a, ?_⟩
  simp only [runProgram, ha, b]
  rfl

/-! ## No violation is seen -/

/-- A polite machine never sets BV: its host writes to no busy core (R34, R58, R220). -/
theorem polite_step_bv {s t : State} (h : Polite s) (hv : s.status.bv = false) (e : step s = .next t) :
    t.status.bv = false := by
  have fr := nextTurn_state s
  have hs : s.nextTurn.2.status = s.status := by rw [fr]
  have hp : s.nextTurn.2.host = s.host := by rw [fr]
  rcases step_cases e with ⟨-, rfl⟩ | ⟨-, rfl⟩ | ⟨-, -, rfl⟩ | ⟨-, op, -, x⟩
  · rfl
  · rcases hostTurn_cases s.nextTurn.2 with ⟨a, v, p, w, x⟩ | ⟨g, n, x⟩
    · rw [hp] at w
      have hb : s.status.busy = false := by
        cases hb : s.status.busy with
        | false => rfl
        | true =>
          have := h.pendPolls (h.busyPend.symm.trans hb)
          rw [w] at this; exact absurd this (by simp [startsWithPoll])
      rw [x]
      show (s.nextTurn.2.busWrite a v).status.bv = false
      rcases busWrite_cases s.nextTurn.2 a v with ⟨_, y⟩ | ⟨_, z, _⟩ | ⟨_, _, y⟩ | ⟨z0, z1, _, y⟩
      · rw [y]; show (s.nextTurn.2.status.hostWrite v).bv = false
        rw [hs]; simp [Status.hostWrite, hv]
      · rw [hs, hb] at z; exact absurd z (by decide)
      · rw [y]; exact (congrArg Status.bv hs).trans hv
      · rw [y, writeRegion_frame _ v z0 z1]; exact (congrArg Status.bv hs).trans hv
    · rw [x]; exact (congrArg Status.bv hs).trans hv
  · rw [hs]; exact hv
  · obtain ⟨u, y, st, -⟩ := completion_status s.nextTurn.2 op
    rw [x] at y; obtain rfl := Host.Outcome.next.inj y
    rw [st, hs]; exact hv

/-- So its host sees none. -/
theorem seesViolationIn_eq_false : ∀ (n : Nat) {s : State}, Polite s → s.status.bv = false → seesViolationIn n s = false := by
  intro n
  induction n with
  | zero => intro s _ _; rfl
  | succ n ih =>
    intro s h hv
    obtain ⟨t, e, pt, -⟩ := polite_step h
    simp only [seesViolationIn, State.seesViolation, hv, Bool.and_false, Bool.false_or, e]
    exact ih pt (polite_step_bv h hv e)

/-- A program that polls after every command, from an idle core with BV 0 and with no reset scheduled, sees no violation. -/
theorem programSeesViolation_eq_false {s : State} {p : List HostStmt} (hp : s.pend = none) (hb : s.status.busy = false)
    (hv : s.status.bv = false) (hr : Turn.reset ∉ s.sched) (hq : pollsAfterCommands (p.flatMap expand) = true) :
    programSeesViolation s p = false := by
  unfold programSeesViolation assemble
  split
  · rfl
  · rename_i ops e
    split at e
    · obtain rfl := Option.some.inj e
      exact seesViolationIn_eq_false _ ⟨hr, by rw [loadProgram_status, loadProgram_pend, hb, hp]; rfl, hq, by simp [hp]⟩ hv
    · exact absurd e (by simp)

end Sys2Proof.Machine
end

