-- ==== Sys2Proof/Laws/ProcedureRuns.lean ====
section
/-! SUPPORT. The parts of hash, digestOf and extend run on an idle core with nothing scheduled (44_procedures.md R222, R231, R232,
R234): what each leaves, that its lines are well formed, and that it polls after every command. `runProgram_onSchedule` carries
each over to every schedule without a reset. -/

namespace Sys2Proof.Machine

/-! ## Lines -/

theorem readByte_host {s : State} (g : HostAgent) (a : Addr) : ({ s with host := g } : State).readByte a = s.readByte a := by
  unfold State.readByte
  rw [show ({ s with host := g } : State).readsFree a = s.readsFree a from rfl]
  split
  · rfl
  · unfold State.windowByte
    cases regionOf a <;> rfl

/-- Reads of any addresses. -/
theorem reach_rds : ∀ (l : List Addr) (s : State) (p), Ready s (l.map HostOp.rd ++ p) →
    Reach l.length s { s with host := { s.host with prog := p, got := s.host.got ++ l.map s.readByte } } := by
  intro l
  induction l with
  | nil =>
    intro s p h
    have e : ({ s with host := { s.host with prog := p, got := s.host.got ++ [] } } : State) = s := by
      have := h.prog; simp only [List.map_nil, List.nil_append] at this; rw [← this, List.append_nil]
    exact e.symm ▸ Reach.refl s
  | cons a l ih =>
    intro s p h
    have r1 := reach_rd (a := a) (p := l.map HostOp.rd ++ p) h
    have r2 := ih _ p (⟨rfl, h.pend, h.busy, h.bv, h.sched, h.stop, h.wf⟩ :
      Ready { s with host := { s.host with prog := l.map HostOp.rd ++ p, got := s.host.got ++ [s.readByte a] } } _)
    have e : l.map ({ s with host := { s.host with prog := l.map HostOp.rd ++ p, got := s.host.got ++ [s.readByte a] } } :
        State).readByte = l.map s.readByte := List.map_congr_left (fun b _ => readByte_host _ b)
    rw [e] at r2
    rw [List.length_cons, Nat.add_comm]
    have := Reach.trans r1 r2
    simp only [List.append_assoc, List.map_cons] at this ⊢
    exact this

/-- Writes of `l` into HEXIN from byte `k` on. -/
theorem reach_hexIn (l : List Byte) : ∀ (k : Nat) (s : State) (p),
    Ready s (writeRunOps (hexInBase + k) l ++ p) → k + l.length ≤ 32 →
    Reach l.length s { s with mem := s.mem.writeRun (hexInBase + k) l, host := { s.host with prog := p } } ∧
    Ready { s with mem := s.mem.writeRun (hexInBase + k) l, host := { s.host with prog := p } } p := by
  induction l with
  | nil =>
    intro k s p h hk
    have e : ({ s with mem := s.mem.writeRun (hexInBase + k) [], host := { s.host with prog := p } } : State) = s := by
      rw [Memory.writeRun_nil]; have := h.prog; simp only [writeRunOps, List.nil_append] at this; rw [← this]
    rw [e]; exact ⟨Reach.refl s, by have := h; simpa [writeRunOps] using this⟩
  | cons v l ih =>
    intro k s p h hk
    simp only [List.length_cons] at hk
    have r1 := reach_wr (a := addrAt hexInBase k) (v := v) (p := writeRunOps (hexInBase + k + 1) l ++ p) h
    rw [busWrite_hexIn h.busy (by omega)] at r1
    obtain ⟨r3, r4⟩ := ih (k + 1) { s with mem := s.mem.write (hexInBase + k) v, host := { s.host with prog := writeRunOps (hexInBase + (k + 1)) l ++ p } } p
      ⟨rfl, h.pend, h.busy, h.bv, h.sched, h.stop, Memory.write_wf h.wf _ _⟩ (by omega)
    rw [Memory.writeRun_cons]
    refine ⟨?_, r4⟩
    rw [List.length_cons, Nat.add_comm]
    exact Reach.trans r1 r3

/-- WRHEX (R86). -/
theorem reach_wrHex {s : State} {d : List Byte} {p} (hd : d.length ≤ 255) (h : Ready s (expand (.wrHex d) ++ p)) :
    ∃ k t, Reach k s t ∧ Ready t p ∧ t.hexLen.toNat = d.length ∧ ∀ j, j < 32 → j < d.length → t.hexIn j = d.getD j 0 := by
  have h : Ready s (writeRunOps (hexInBase + 0) (d.take 32) ++ (.wr addrHexLen (BitVec.ofNat 8 d.length) :: p)) := by
    have := h; simp only [expand, List.append_assoc] at this; exact this
  obtain ⟨r1, r2⟩ := reach_hexIn _ 0 s _ h (by simp)
  have r3 := reach_wr r2
  rw [busWrite_hexLen r2.busy] at r3
  refine ⟨_, _, Reach.trans r1 r3, ⟨rfl, r2.pend, r2.busy, r2.bv, r2.sched, r2.stop, r2.wf⟩, ?_, ?_⟩
  · show (BitVec.ofNat 8 d.length).toNat = _
    rw [BitVec.toNat_ofNat]; omega
  · intro j hj hj2
    show (s.mem.writeRun hexInBase (d.take 32)).read (hexInBase + j) = _
    rw [Memory.read_writeRun_inside h.wf _ _ (by simp; omega)]
    simp [List.getD, hj]

/-- A command, whatever its code, and its WAIT. -/
theorem reach_cmdWait {s v : State} {i : Instr} {c : Code} {p} (h : Ready s (.wr addrCmd (encodeByte i) :: .wait :: p))
    (hx : exec i ((s.issue (encodeByte i)).withProg (.wait :: p)) = .next (v.complete c))
    (hv : v.host = { s.host with prog := .wait :: p }) (hs : v.sched = [])
    (hb : v.status.bv = false) (hm : v.mem.wf = true) :
    Reach 3 s ((v.complete c).hostPoll.withProg p) ∧ Ready ((v.complete c).hostPoll.withProg p) p := by
  have r1 := reach_wr h
  rw [busWrite_cmd h.busy] at r1
  set u := (s.issue (encodeByte i)).withProg (.wait :: p) with hu
  have r2 : Reach 1 u (v.complete c) := by
    refine Reach.step (.inr (by rw [hu]; simp)) ?_
    rw [core_step (op := encodeByte i) (by rw [hu]; exact h.sched) (by rw [hu]; rfl), ← exec_eq_completion, hx]
  have rd : Ready (v.complete c) (.wait :: p) :=
    ⟨by rw [complete_host, hv], rfl, rfl, hb, hs, by rw [complete_host, hv]; exact h.stop, hm⟩
  have r3 := reach_host rd
  have e : (v.complete c).hostTurn = (v.complete c).hostPoll.withProg p := by
    unfold State.hostTurn; rw [rd.prog]
    exact hostWait_idle rd.busy p
  rw [e] at r3
  exact ⟨Reach.trans (Reach.trans r1 r2) r3, ⟨rfl, rfl, rfl, hb, hs, by show v.host.stopped = none; rw [hv]; exact h.stop, hm⟩⟩

/-- FINAL and its WAITOK on operands that pass the checks. -/
theorem reach_final {s : State} {p} (h : Ready s (.wr addrCmd (encodeByte .final) :: .waitOk :: p))
    (h1 : s.tailLen.toNat ≤ 63) (h2 : s.length.toNat % 8 = 0) (h3 : s.length.toNat / 8 % 64 = s.tailLen.toNat) :
    ∃ t, Reach 3 s t ∧ Ready t p ∧ t.h = compressAll s.h (forgePadding s.tail s.length) ∧ t.host.got = s.host.got ∧
      t.status = ⟨false, true, false, 0⟩ ∧ t.host.polled = 0x02 := by
  set u := (s.issue (encodeByte .final)).withProg (.waitOk :: p) with hu
  have hx := execFinal_pass (s := u) ((padChecksPass_iff u).2 ⟨h1, h2, h3⟩)
  have uwf : u.mem.wf = true := h.wf
  have hh := compressPadBlocks_all uwf h1 { u.work with j := 0 }
  have fr := compressPadBlocks_frame (u.padGen.withWork { u.work with j := 0 }) (u.paddedTail.length / 64)
  generalize (u.padGen.withWork { u.work with j := 0 }).compressPadBlocks (u.paddedTail.length / 64) = V at hx hh fr
  have v1 : V.host = u.host := by rw [fr]; rfl
  have v2 : V.sched = u.sched := by rw [fr]; rfl
  have v3 : V.status = u.status := by rw [fr]; rfl
  have v4 : V.mem = u.padGen.mem := by rw [fr]; rfl
  clear fr
  have vb : V.status.bv = false := by rw [v3]; exact h.bv
  obtain ⟨e1, e2⟩ := reach_cmd (i := .final) (v := V) h hx v1 (v2.trans h.sched) vb (by rw [v4]; exact Memory.writeRun_wf uwf _ _)
  have st : (V.complete codeOk).status = ⟨false, true, false, 0⟩ := by
    rw [complete_status, Status.complete, vb]; rfl
  refine ⟨_, e1, e2, ?_, ?_, ?_, ?_⟩
  · show V.h = _
    rw [hh, paddedTail_eq_forgePadding (s := u) h3]; rfl
  · show V.host.got = _
    rw [v1]; rfl
  · exact st
  · show (V.complete codeOk).status.toByte = _
    rw [st]; rfl

/-- PAD and its WAITOK on operands that pass the checks. -/
theorem reach_pad {s : State} {p} (h : Ready s (.wr addrCmd (encodeByte .pad) :: .waitOk :: p))
    (h1 : s.tailLen.toNat ≤ 63) (h2 : s.length.toNat % 8 = 0) (h3 : s.length.toNat / 8 % 64 = s.tailLen.toNat) :
    ∃ t, Reach 3 s t ∧ Ready t p ∧ t.h = s.h ∧ t.host.got = s.host.got ∧
      t.padBlks.toNat = (forgePadding s.tail s.length).length / 64 ∧
      (∀ k, k < 128 → t.padBuf k = (forgePadding s.tail s.length).getD k 0) ∧
      t.status = ⟨false, true, false, 0⟩ ∧ t.host.polled = 0x02 := by
  set u := (s.issue (encodeByte .pad)).withProg (.waitOk :: p) with hu
  have hx := execPad_pass (s := u) ((padChecksPass_iff u).2 ⟨h1, h2, h3⟩)
  have uwf : u.mem.wf = true := h.wf
  have hq := padGen_padBlks (s := u) h1
  have hk := fun k => padGen_padBuf (s := u) uwf h1 (k := k)
  have ht : u.paddedTail = forgePadding s.tail s.length := paddedTail_eq_forgePadding (s := u) h3
  rw [ht] at hq hk
  obtain ⟨e1, e2⟩ := reach_cmd (i := .pad) (v := u.padGen.withWork { u.work with j := 0 }) h hx rfl h.sched h.bv
    (Memory.writeRun_wf uwf _ _)
  have st : ((u.padGen.withWork { u.work with j := 0 }).complete codeOk).status = ⟨false, true, false, 0⟩ := by
    rw [complete_status, Status.complete]
    rw [show (u.padGen.withWork { u.work with j := 0 }).status.bv = false from h.bv]; rfl
  exact ⟨_, e1, e2, rfl, rfl, hq, hk, st, by
    show ((u.padGen.withWork { u.work with j := 0 }).complete codeOk).status.toByte = _
    rw [st]; rfl⟩

theorem readByte_padBuf {s : State} (h : s.status.busy = false) {k : Nat} (hk : k < 128) :
    s.readByte (addrAt padBufBase k) = s.padBuf k := by
  rw [readByte_idle h, addrAt_toNat (by simp only [padBufBase]; omega)]
  simp only [padBufBase, regionAt_padBuf k hk]
  rfl

theorem readByte_padBlks {s : State} (h : s.status.busy = false) : s.readByte addrPadBlks = s.padBlks := by
  rw [readByte_idle h]; rfl

/-- RDPAD of a PADBUF that holds the whole blocks `x` (R86). -/
theorem reach_rdPad {s : State} {p} {x : List Byte} (h : Ready s (.rdPad :: p)) (hx : x.length = 64 * s.padBlks.toNat)
    (hx2 : x.length ≤ 128) (hp : ∀ k, k < 128 → s.padBuf k = x.getD k 0) :
    ∃ k, Reach k s { s with host := { s.host with prog := p, got := s.host.got ++ (s.padBlks :: x) } } := by
  have r1 := reach_host h
  have e : s.hostTurn = { s with host := { s.host with
      prog := readRun padBufBase (64 * s.padBlks.toNat) ++ p, got := s.host.got ++ [s.padBlks] } } := by
    unfold State.hostTurn; rw [h.prog]
    simp only [State.hostRead, afterRead_idle h.busy, readByte_padBlks h.busy]
  rw [e] at r1
  have er : readRun padBufBase (64 * s.padBlks.toNat) = ((List.range x.length).map (addrAt padBufBase)).map HostOp.rd := by
    rw [hx]; simp [readRun]
  set g : HostAgent := { s.host with
    prog := readRun padBufBase (64 * s.padBlks.toNat) ++ p, got := s.host.got ++ [s.padBlks] } with hg
  have rd : Ready { s with host := g } (((List.range x.length).map (addrAt padBufBase)).map HostOp.rd ++ p) :=
    ⟨by rw [← er], h.pend, h.busy, h.bv, h.sched, h.stop, h.wf⟩
  have r2 := reach_rds _ _ p rd
  have bytes : ((List.range x.length).map (addrAt padBufBase)).map ({ s with host := g } : State).readByte = x := by
    apply List.ext_getElem
    · simp
    · intro k hk hk2
      simp only [List.getElem_map, List.getElem_range]
      rw [readByte_host, readByte_padBuf h.busy (by omega), hp k (by omega), List.getD_eq_getElem _ _ hk2]
  rw [bytes] at r2
  refine ⟨_, Reach.trans r1 (?_ : Reach ((List.range x.length).map (addrAt padBufBase)).length _ _)⟩
  have : ({ s with host := { g with prog := p, got := g.got ++ x } } : State) =
      { s with host := { s.host with prog := p, got := s.host.got ++ (s.padBlks :: x) } } := by
    rw [hg]; simp
  rw [← this]
  exact r2

/-! ## Parts -/

/-- A digest string's state depends on its first 32 characters. -/
theorem stateFromDigest_congr {n : Nat} {c d : Nat → Byte} (e : ∀ k, k < 32 → c k = d k) :
    stateFromDigest n c = stateFromDigest n d := by
  have a : allHex c = allHex d := by
    unfold allHex
    rw [Bool.eq_iff_iff]
    simp only [List.all_eq_true, List.mem_range]
    exact ⟨fun h k hk => by rw [← e k hk]; exact h k hk, fun h k hk => by rw [e k hk]; exact h k hk⟩
  have b : ∀ j, j < 16 → byteOfHex c j = byteOfHex d j := fun j hj => by
    unfold byteOfHex; rw [e _ (by omega), e _ (by omega)]
  unfold stateFromDigest
  rw [a]
  simp only [quadOfBytes, b 0 (by omega), b 1 (by omega), b 2 (by omega), b 3 (by omega), b 4 (by omega), b 5 (by omega),
    b 6 (by omega), b 7 (by omega), b 8 (by omega), b 9 (by omega), b 10 (by omega), b 11 (by omega), b 12 (by omega),
    b 13 (by omega), b 14 (by omega), b 15 (by omega)]

theorem stateFromDigest_of_length {n : Nat} (c : Nat → Byte) (h : n ≠ 32) : stateFromDigest n c = none := by
  unfold stateFromDigest; rw [if_neg (fun x => h x.1)]

/-- `extend`'s step 1 (R231): the state of the digest with ERR 0, or ERR 1. -/
theorem reach_resume {s : State} {d : List Byte} (hd : d.length ≤ 255) (h : Ready s ((resumeProgram d).flatMap expand)) :
    ∃ k t c, Reach k s t ∧ Ready t [] ∧ t.status = ⟨false, true, false, c⟩ ∧ t.host.polled = t.status.toByte ∧
      match stateFromDigest d.length (blockByte d) with
      | some g => c = codeOk ∧ t.h = g
      | none => c = codeInvalidDigestFormat := by
  have h : Ready s (expand (.wrHex d) ++ (.wr addrCmd (encodeByte .ldhex) :: .wait :: [])) := by
    have := h; simp only [resumeProgram, List.flatMap_cons, List.flatMap_nil, List.append_nil] at this; exact this
  obtain ⟨k, w, r1, r2, r3, r4⟩ := reach_wrHex hd h
  have hs : w.hexDigest = stateFromDigest d.length (blockByte d) := by
    unfold State.hexDigest
    rw [r3]
    by_cases e : d.length = 32
    · exact stateFromDigest_congr (fun j hj => r4 j hj (by omega))
    · rw [stateFromDigest_of_length _ e, stateFromDigest_of_length _ e]
  set u := (w.issue (encodeByte .ldhex)).withProg (.wait :: []) with hu
  have hs : u.hexDigest = stateFromDigest d.length (blockByte d) := hs
  cases e : stateFromDigest d.length (blockByte d) with
  | none =>
    obtain ⟨a, b⟩ := reach_cmdWait (i := .ldhex) (v := u) r2 (execLdhex_none (hs.trans e)) rfl r2.sched r2.bv r2.wf
    refine ⟨_, _, codeInvalidDigestFormat, Reach.trans r1 a, b, ?_, rfl, rfl⟩
    show u.status.complete _ = _
    unfold Status.complete; rw [show u.status.bv = false from r2.bv]
  | some g =>
    obtain ⟨a, b⟩ := reach_cmdWait (i := .ldhex) (v := u.withH g) r2 (execLdhex_some (hs.trans e)) rfl r2.sched r2.bv r2.wf
    refine ⟨_, _, codeOk, Reach.trans r1 a, b, ?_, rfl, rfl, rfl⟩
    show u.status.complete _ = _
    unfold Status.complete; rw [show u.status.bv = false from r2.bv]

/-- WRTAIL of the tail of `x`, then WRLEN of a consistent length: PAD's and FINAL's operands (R222, R232, R234). -/
theorem reach_operands {s : State} {x : List Byte} {n : Nat} {p} (hn : n < 2 ^ 64) (h8 : n % 8 = 0)
    (hx : n / 8 % 64 = x.length % 64) (h : Ready s (expand (.wrTail (tailOf x)) ++ (expand (.wrLen n) ++ p))) :
    ∃ k t, Reach k s t ∧ Ready t p ∧ t.h = s.h ∧ t.host.got = s.host.got ∧ t.tailLen.toNat ≤ 63 ∧
      t.length = BitVec.ofNat 64 n ∧ t.length.toNat % 8 = 0 ∧ t.length.toNat / 8 % 64 = t.tailLen.toNat ∧ t.tail = tailOf x := by
  obtain ⟨t, c1, c2, c3, c4, c5, c6⟩ := reach_tail (by rw [tailOf_length]; omega) h
  obtain ⟨d1, d2⟩ := reach_wrLen n t _ c2
  have ln : (BitVec.ofNat 64 n).toNat = n := by rw [BitVec.toNat_ofNat]; omega
  rw [tailOf_length] at c5
  refine ⟨_, _, Reach.trans c1 d1, d2, c3, c4, ?_, rfl, ?_, ?_, ?_⟩
  · show t.tailLen.toNat ≤ 63
    omega
  · show (BitVec.ofNat 64 n).toNat % 8 = 0
    omega
  · show (BitVec.ofNat 64 n).toNat / 8 % 64 = t.tailLen.toNat
    omega
  · apply List.ext_getElem
    · rw [tail_length, tailOf_length]; exact c5
    · intro k hk hk2
      simp only [State.tail, List.getElem_map, List.getElem_range]
      have := c6 k hk2
      rw [List.getD_eq_getElem _ _ hk2] at this
      exact this

/-- The padding of the tail of a sequence with a consistent length is 0, 1 or 2 blocks. -/
theorem forgePadding_tail_length {r : List Byte} {n : Length} (hr : r.length ≤ 63) (h : n.toNat / 8 % 64 = r.length)
    (h8 : n.toNat % 8 = 0) : (forgePadding r n).length % 64 = 0 ∧ (forgePadding r n).length ≤ 128 := by
  cases e : exempt n with
  | true =>
    rw [exempt_iff] at e
    rw [forgePadding_of_exempt ((exempt_iff n).2 e)]
    omega
  | false =>
    rw [forgePadding_of_not_exempt e, List.length_append, paddingBytes_length, zeroFill, h]
    omega

/-- `extend`'s step 2 (R232): the padding of the base's tail, read from PADBUF after PADBLKS. -/
theorem reach_gluePad {s : State} {b : List Byte} (hb : b.length < 2 ^ 61) (hg : s.host.got = [])
    (h : Ready s ((gluePadProgram b).flatMap expand)) :
    ∃ k t, Reach k s t ∧ Ready t [] ∧ t.h = s.h ∧
      padBytesRead t = forgePadding (tailOf b) (BitVec.ofNat 64 (8 * b.length)) ∧
      t.status = ⟨false, true, false, 0⟩ ∧ t.host.polled = 0x02 := by
  have h : Ready s (expand (.wrTail (tailOf b)) ++ (expand (.wrLen (8 * b.length)) ++
      (.wr addrCmd (encodeByte .pad) :: .waitOk :: [.rdPad]))) := by
    have := h
    simp only [gluePadProgram, List.flatMap_cons, List.flatMap_nil, List.append_nil] at this
    exact this
  obtain ⟨k1, w, a1, a2, a3, a4, a5, a6, a7, a8, a9⟩ := reach_operands (by omega) (by omega) (by omega) h
  obtain ⟨t, b1, b2, b3, b4, b5, b6, b7, b8⟩ := reach_pad a2 a5 a7 a8
  have ln : (forgePadding w.tail w.length).length % 64 = 0 ∧ (forgePadding w.tail w.length).length ≤ 128 :=
    forgePadding_tail_length (by rw [tail_length]; exact a5) (by rw [tail_length]; exact a8) a7
  rw [a9, a6] at b5 b6 ln
  obtain ⟨k2, c1⟩ := reach_rdPad (x := forgePadding (tailOf b) (BitVec.ofNat 64 (8 * b.length))) b2 (by omega) (by omega) b6
  refine ⟨_, _, Reach.trans (Reach.trans a1 b1) c1, ⟨rfl, b2.pend, b2.busy, b2.bv, b2.sched, b2.stop, b2.wf⟩, b3.trans a3, ?_, b7, b8⟩
  unfold padBytesRead
  show (t.host.got ++ _).drop 1 = _
  rw [b4, a4, hg]; rfl

/-- `extend`'s steps 4 to 6, and `hash` after INIT (R222, R234): the blocks of `x`, its padding with the bit length `n`, and the
digest. -/
theorem reach_continue {s : State} {x : List Byte} {n : Nat} (hn : n < 2 ^ 64) (h8 : n % 8 = 0)
    (hx : n / 8 % 64 = x.length % 64) (h : Ready s ((continueProgram x n).flatMap expand)) :
    ∃ k t, Reach k s t ∧ Ready t [] ∧ t.h = compressAll s.h (forgePadding x (BitVec.ofNat 64 n)) ∧
      t.host.got = s.host.got ++ hexOut t.h ∧ t.status = ⟨false, true, false, 0⟩ ∧ t.host.polled = 0x02 := by
  have h : Ready s (((chunk64 x).flatMap (fun b => [HostStmt.wrBlk b, .cmd .compress, .waitOk])).flatMap expand ++
      (expand (.wrTail (tailOf x)) ++ (expand (.wrLen n) ++
        (.wr addrCmd (encodeByte .final) :: .waitOk :: readRun hexOutBase 32)))) := by
    have := h
    simp only [continueProgram, compressBlocksProgram, List.flatMap_append, List.flatMap_cons, List.flatMap_nil,
      List.append_nil] at this
    exact this
  obtain ⟨t2, b1, b2, b3, b4⟩ := reach_blocks (chunk64 x) _ _ (fun b hb => length_of_mem_chunk64 hb) h
  obtain ⟨k3, w, c1, c2, c3, c4, c5, c6, c7, c8, c9⟩ := reach_operands hn h8 hx b2
  obtain ⟨t, d1, d2, d3, d4, d5, d6⟩ := reach_final c2 c5 c7 c8
  have e3 : Ready t ((List.range 32).map (fun k => HostOp.rd (addrAt hexOutBase k)) ++ []) := by
    rw [List.append_nil]; exact d2
  have f1 := reach_hex (List.range 32) t [] e3 (fun k hk => List.mem_range.1 hk)
  refine ⟨_, _, Reach.trans (Reach.trans (Reach.trans b1 c1) d1) f1,
    ⟨rfl, d2.pend, d2.busy, d2.bv, d2.sched, d2.stop, d2.wf⟩, ?_, ?_, d5, d6⟩
  · show t.h = _
    rw [d3, c3, b3, c9, c6]
    have : chunk64 (headOf x) = chunk64 x := by
      conv_rhs => rw [← headOf_append_tailOf x, chunk64_append _ (by rw [headOf_length]; omega),
        chunk64_of_short (x := tailOf x) (by rw [tailOf_length]; omega), List.append_nil]
    have ca : (chunk64 x).foldl (fun g b => compress g (blockByte b)) s.h = compressAll s.h (headOf x) := by
      rw [compressAll, this]
    rw [ca, ← compressAll_append _ _ (by rw [headOf_length]; omega), ← forgePadding_append, headOf_append_tailOf]
  · show t.host.got ++ _ = _
    rw [d4, c4, b4]; rfl

/-- INIT and its WAITOK (R222). -/
theorem reach_init {s : State} {p} (h : Ready s (.wr addrCmd (encodeByte .init) :: .waitOk :: p)) :
    ∃ t, Reach 3 s t ∧ Ready t p ∧ t.h = initialState ∧ t.host.got = s.host.got := by
  obtain ⟨a, b⟩ := reach_cmd (v := ((s.issue (encodeByte .init)).withProg (.waitOk :: p)).withH initialState) h rfl rfl
    h.sched h.bv h.wf
  exact ⟨_, a, b, rfl, rfl⟩

/-! ## Lines that are well formed, and polls -/

theorem hashProgram_eq (m : List Byte) :
    hashProgram m = [.cmd .init, .waitOk] ++ continueProgram m (8 * m.length) := by
  simp [hashProgram, continueProgram]

theorem continueProgram_wf {x : List Byte} {n : Nat} (hn : n < 2 ^ 64) : hostProgramWf (continueProgram x n) = true := by
  unfold hostProgramWf
  rw [List.all_eq_true]
  intro l hl
  simp only [continueProgram, compressBlocksProgram, List.mem_append, List.mem_cons, List.mem_flatMap, List.not_mem_nil,
    or_false] at hl
  rcases hl with ⟨b, hb, rfl | rfl | rfl⟩ | rfl | rfl | rfl | rfl | rfl
  · have := length_of_mem_chunk64 hb; simp [HostStmt.wf, this]
  · rfl
  · rfl
  · simp [HostStmt.wf]; omega
  · simp only [HostStmt.wf, decide_eq_true_eq]; exact hn
  · rfl
  · rfl
  · rfl

theorem assemble_of_wf {p : List HostStmt} (h : hostProgramWf p = true) : assemble p = some (p.flatMap expand) := by
  rw [assemble, if_pos h]

/-- Writes that do not reach CMD need no poll. -/
theorem pollsAfterCommands_writeRunOps (l : List Byte) : ∀ (base : Nat) (p), 0 < base → base + l.length ≤ 512 →
    pollsAfterCommands (writeRunOps base l ++ p) = pollsAfterCommands p := by
  induction l with
  | nil => intro _ _ _ _; rfl
  | cons v l ih =>
    intro base p hb hl
    simp only [List.length_cons] at hl
    have ne : addrAt base 0 ≠ 0x000 := fun e => by
      have := congrArg BitVec.toNat e
      rw [addrAt_toNat (by omega)] at this
      simp at this; omega
    show ((decide (addrAt base 0 ≠ 0x000) || _) && pollsAfterCommands (writeRunOps (base + 1) l ++ p)) = _
    rw [ih _ _ (by omega) (by omega), decide_eq_true ne]
    rfl

/-- A command and its WAITOK. -/
theorem pollsAfterCommands_cmd (i : Instr) (p) :
    pollsAfterCommands (expand (.cmd i) ++ (expand .waitOk ++ p)) = pollsAfterCommands p := by
  show ((_ || true) && pollsAfterCommands p) = _
  rw [Bool.or_true, Bool.true_and]

theorem pollsAfterCommands_wrTail {l : List Byte} (hl : l.length < 64) (p) :
    pollsAfterCommands (expand (.wrTail l) ++ p) = pollsAfterCommands p := by
  simp only [expand, List.append_assoc]
  rw [pollsAfterCommands_writeRunOps _ _ _ (by decide) (by simp only [blkBase]; omega)]
  show ((decide (addrTailLen ≠ 0x000) || _) && _) = _
  rw [decide_eq_true (by decide), Bool.true_or]; rfl

theorem pollsAfterCommands_wrLen (n : Nat) (p) : pollsAfterCommands (expand (.wrLen n) ++ p) = pollsAfterCommands p := by
  simp only [expand, memWriteOps]
  exact pollsAfterCommands_writeRunOps _ _ _ (by decide) (by simp [lengthBase])

theorem pollsAfterCommands_continue (x : List Byte) (n : Nat) :
    pollsAfterCommands ((continueProgram x n).flatMap expand) = true := by
  simp only [continueProgram, compressBlocksProgram, List.flatMap_append]
  apply pollsAfterCommands_append_of_polled
  · have all := fun b (hb : b ∈ chunk64 x) => length_of_mem_chunk64 hb
    generalize chunk64 x = bs at all
    induction bs with
    | nil => rfl
    | cons b bs ih =>
      simp only [List.flatMap_cons, List.flatMap_append, List.flatMap_nil, List.append_nil, List.append_assoc]
      rw [show expand (.wrBlk b) = writeRunOps blkBase b from rfl, pollsAfterCommands_writeRunOps _ _ _ (by decide)
        (by rw [all b (by simp)]; decide), pollsAfterCommands_cmd]
      exact ih (fun y hy => all y (by simp [hy]))
  · simp only [List.flatMap_cons, List.flatMap_nil, List.append_nil]
    rw [pollsAfterCommands_wrTail (by rw [tailOf_length]; omega), pollsAfterCommands_wrLen, pollsAfterCommands_cmd]
    rfl

theorem pollsAfterCommands_hash (m : List Byte) : pollsAfterCommands ((hashProgram m).flatMap expand) = true := by
  rw [hashProgram_eq]
  simp only [List.flatMap_append, List.flatMap_cons, List.flatMap_nil, List.append_nil, List.append_assoc]
  rw [pollsAfterCommands_cmd]
  exact pollsAfterCommands_continue _ _

theorem pollsAfterCommands_gluePad (b : List Byte) : pollsAfterCommands ((gluePadProgram b).flatMap expand) = true := by
  simp only [gluePadProgram, List.flatMap_cons, List.flatMap_nil, List.append_nil]
  rw [pollsAfterCommands_wrTail (by rw [tailOf_length]; omega), pollsAfterCommands_wrLen, pollsAfterCommands_cmd]
  rfl

theorem pollsAfterCommands_resume (d : List Byte) : pollsAfterCommands ((resumeProgram d).flatMap expand) = true := by
  simp only [resumeProgram, List.flatMap_cons, List.flatMap_nil, List.append_nil, expand, List.append_assoc]
  rw [pollsAfterCommands_writeRunOps _ _ _ (by decide) (by simp [hexInBase]; omega)]
  rfl

/-! ## A part, under every schedule without a reset -/

/-- A part that ends from the idle core ends so under the turns scheduled as well (R60, R103). -/
theorem runProgram_of_reach {s t : State} {p : List HostStmt} {k} (hp : s.pend = none) (hb : s.status.busy = false)
    (hr : Turn.reset ∉ s.sched) (hw : hostProgramWf p = true) (hq : pollsAfterCommands (p.flatMap expand) = true)
    (r : Reach k (({ s with sched := [] } : State).loadProgram (p.flatMap expand)) t) (rt : Ready t []) :
    ∃ ts, Turn.reset ∉ ts ∧ runProgram s p = .next { t with sched := ts } := by
  have he : t.ended = true := (ended_iff t).2 ⟨rt.prog, rt.pend⟩
  have h := r 0
  rw [runToEnd_of_ended he] at h
  obtain ⟨ts, a, b⟩ := runProgram_onSchedule hp hb hr (assemble_of_wf hw) hq h he
  rw [rt.stop] at b
  exact ⟨ts, a, b⟩

/-- The idle core with a part loaded is where its `reach_` lemmas start. -/
theorem ready_loadProgram {s : State} (hp : s.pend = none) (hb : s.status.busy = false) (hv : s.status.bv = false)
    (hwf : s.mem.wf = true) (p : List HostOp) : Ready (({ s with sched := [] } : State).loadProgram p) p :=
  ⟨rfl, hp, hb, hv, rfl, rfl, hwf⟩

/-- What a part goes on with, once it has ended. -/
theorem afterPart_of_ended {α : Type} {o : Host.Outcome State Fault Refusal} {t : State} (h : o = .next t)
    (he : t.ended = true) (f : State → Host.Outcome (State × ProcResult α) Fault Refusal) : afterPart o f = f t := by
  rw [h, afterPart, if_pos he]

theorem pad_eq_headOf (b : List Byte) : headOf b ++ forgePadding (tailOf b) (BitVec.ofNat 64 (8 * b.length)) = pad b := by
  rw [← forgePadding_append, headOf_append_tailOf, pad]

/-- `pad` gives whole blocks (R152). -/
theorem pad_length_mod {b : List Byte} (h : b.length < 2 ^ 61) : (pad b).length % 64 = 0 := by
  have a := (forgePadding_tail_length (r := tailOf b) (n := BitVec.ofNat 64 (8 * b.length)) (by rw [tailOf_length]; omega)
    (by rw [bitLength_toNat h, tailOf_length]; omega) (by rw [bitLength_toNat h]; omega)).1
  rw [← pad_eq_headOf, List.length_append, headOf_length]
  omega

end Sys2Proof.Machine
end

