-- ==== Sys2Proof/Laws/Sequencer.lean ====
section
/-! SUPPORT. The reference sequencer tick by tick: how ticks compose, what the 66 ticks of a block do, and that STATUS and the
pending command wait for DONE. A proof that computes with `rounds _ _ 64` should name its value first (as `R` below), so that
nothing compares it with another term by unrolling it. -/

namespace Sys2Proof.Machine

theorem seqTicks_zero (s : State) : s.seqTicks 0 = s := rfl

theorem seqTicks_succ (s : State) (n : Nat) : s.seqTicks (n + 1) = (s.seqTicks n).seqTick := rfl

theorem seqTicks_one (s : State) : s.seqTicks 1 = s.seqTick := rfl

theorem seqTicks_add (s : State) (m n : Nat) : s.seqTicks (m + n) = (s.seqTicks m).seqTicks n := by
  induction n with
  | zero => rfl
  | succ n ih => rw [← Nat.add_assoc, seqTicks_succ, ih, seqTicks_succ]

theorem seqTick_some {s : State} {op : Byte} (h : s.pend = some op) : s.seqTick = s.tickOf op := by
  simp [State.seqTick, h]

theorem seqTick_none {s : State} (h : s.pend = none) : s.seqTick = s := by simp [State.seqTick, h]

/-- One step of the round function, step 63 apart. -/
theorem seqTick_round {s : State} {op : Byte} (hp : s.pend = some op) (hph : s.phase = .round)
    (hi : s.work.i.toNat < 63) : s.seqTick =
      s.withWork { s.work with v := roundStep s.work.i.toNat s.work.v s.work.w, i := s.work.i + 1 } := by
  rw [seqTick_some hp]
  simp only [State.tickOf, hph, State.tickRound]
  rw [if_neg (by omega), ← hph]
  rfl

/-- Step 63. -/
theorem seqTick_lastRound {s : State} {op : Byte} (hp : s.pend = some op) (hph : s.phase = .round)
    (hi : s.work.i.toNat = 63) : s.seqTick =
      (s.withWork { s.work with v := roundStep 63 s.work.v s.work.w, i := 0 }).goto .ffwd := by
  have h0 : s.work.i + 1 = 0 := by
    apply BitVec.eq_of_toNat_eq
    rw [BitVec.toNat_add, hi]
    rfl
  rw [seqTick_some hp]
  simp only [State.tickOf, hph, State.tickRound]
  rw [if_pos hi, hi, h0]

/-- The first `n` of the 64 steps. -/
theorem seqTicks_rounds {s : State} {op : Byte} (hp : s.pend = some op) (hph : s.phase = .round) (hi : s.work.i = 0)
    {n : Nat} (hn : n < 64) : ∃ v i, v = rounds s.work.w s.work.v n ∧ i.toNat = n ∧
      s.seqTicks n = s.withWork { s.work with v := v, i := i } := by
  induction n with
  | zero => exact ⟨s.work.v, s.work.i, (rounds_zero _ _).symm, by rw [hi]; rfl, rfl⟩
  | succ n ih =>
    obtain ⟨v, i, hv, hn', e⟩ := ih (by omega)
    refine ⟨roundStep i.toNat v s.work.w, i + 1, by rw [rounds_succ, hv, hn'], ?_, ?_⟩
    · rw [BitVec.toNat_add, hn']
      simp
      omega
    · rw [seqTicks_succ, e, seqTick_round (s := s.withWork { s.work with v := v, i := i }) hp hph (by
        show i.toNat < 63; omega)]
      rfl

/-- All 64 steps. -/
theorem seqTicks_rounds_all {s : State} {op : Byte} (hp : s.pend = some op) (hph : s.phase = .round)
    (hi : s.work.i = 0) : ∃ R, R = rounds s.work.w s.work.v 64 ∧
      s.seqTicks 64 = (s.withWork { s.work with v := R, i := 0 }).goto .ffwd := by
  obtain ⟨v, i, hv, hn, e⟩ := seqTicks_rounds hp hph hi (n := 63) (by omega)
  have e2 := seqTicks_succ s 63
  rw [e, seqTick_lastRound (s := s.withWork { s.work with v := v, i := i }) hp hph hn] at e2
  refine ⟨roundStep 63 v s.work.w, ?_, e2⟩
  have r := rounds_succ s.work.w s.work.v 63
  rw [← hv] at r
  exact r.symm

/-- LOAD, the 64 steps and FFWD: the block compressed into `H`, then the next block of FINAL or DONE (R108). -/
theorem seqTicks_block {s : State} {op : Byte} (hp : s.pend = some op) (hph : s.phase = .load) :
    s.seqTicks 66 =
      if decodeByte op = .ok .final ∧ s.work.j.toNat + 1 < s.padBlks.toNat then
        ((s.withH (compress s.h (s.loadBlock op))).withWork
          { s.work.afterBlock s.h (s.loadBlock op) with j := s.work.j + 1 }).goto .load
      else ((s.withH (compress s.h (s.loadBlock op))).withWork (s.work.afterBlock s.h (s.loadBlock op))).goto .done := by
  rw [show 66 = 1 + 64 + 1 from rfl, seqTicks_succ s (1 + 64), seqTicks_add, seqTicks_one, seqTick_some hp]
  simp only [State.tickOf, hph]
  obtain ⟨R, hR, e⟩ := seqTicks_rounds_all (s := s.tickLoad op) hp rfl rfl
  have hR : R = rounds (blockWords (s.loadBlock op)) s.h 64 := hR
  rw [e, seqTick_some
    (s := ((s.tickLoad op).withWork { (s.tickLoad op).work with v := R, i := 0 }).goto .ffwd) (op := op) hp]
  rw [compress, Work.afterBlock, ← hR]
  clear hR e
  show State.tickFfwd (((s.tickLoad op).withWork { (s.tickLoad op).work with v := R, i := 0 }).goto .ffwd) op = _
  unfold State.tickFfwd
  show (if decodeByte op = .ok .final ∧ s.work.j.toNat + 1 < s.padBlks.toNat then _ else _) = _
  split <;> rfl

/-- A tick keeps the pending command, or ends it. -/
theorem seqTick_pend {s : State} {op : Byte} (hp : s.pend = some op ∨ s.pend = none) :
    s.seqTick.pend = some op ∨ s.seqTick.pend = none := by
  rcases hp with hp | hp
  · rw [seqTick_some hp]
    unfold State.tickOf
    cases h : s.phase <;> simp only
    · exact .inl hp
    · exact .inl hp
    · exact .inl hp
    · exact .inl hp
    · exact .inl hp
    · unfold State.tickFfwd; split <;> exact .inl hp
    · exact .inl hp
    · unfold State.tickDone; split <;> exact .inr rfl
  · rw [seqTick_none hp]
    exact .inr hp

/-- A tick that keeps the pending command keeps STATUS. -/
theorem seqTick_status {s : State} {op : Byte} (hp : s.pend = some op) (hn : s.seqTick.pend = some op) :
    s.seqTick.status = s.status := by
  rw [seqTick_some hp] at hn ⊢
  unfold State.tickOf at *
  cases h : s.phase <;> simp only [h] at hn ⊢
  · rfl
  · rfl
  · rfl
  · rfl
  · unfold State.tickFfwd; split <;> rfl
  · rfl
  · unfold State.tickDone at *
    rcases h : decodeByte op with _ | i
    · rw [h] at hn; simp at hn
    · cases i <;> rw [h] at hn <;> simp at hn

/-- While the command is still pending after `N` ticks, it was pending with the same STATUS after every tick before. -/
theorem seqTicks_busy {s : State} {op : Byte} (hp : s.pend = some op) {N : Nat} (hN : (s.seqTicks N).pend = some op) :
    ∀ n, n ≤ N → (s.seqTicks n).status = s.status ∧ (s.seqTicks n).pend = some op := by
  have hor : ∀ n, (s.seqTicks n).pend = some op ∨ (s.seqTicks n).pend = none := by
    intro n
    induction n with
    | zero => exact .inl hp
    | succ n ih => rw [seqTicks_succ]; exact seqTick_pend ih
  have hnone : ∀ n m, (s.seqTicks n).pend = none → (s.seqTicks (n + m)).pend = none := by
    intro n m h
    induction m with
    | zero => exact h
    | succ m ih => rw [← Nat.add_assoc, seqTicks_succ, seqTick_none ih]; exact ih
  have hsome : ∀ n, n ≤ N → (s.seqTicks n).pend = some op := by
    intro n hn
    rcases hor n with h | h
    · exact h
    · have := hnone n (N - n) h
      rw [show n + (N - n) = N by omega, hN] at this
      cases this
  intro n hn
  refine ⟨?_, hsome n hn⟩
  induction n with
  | zero => rfl
  | succ n ih =>
    rw [seqTicks_succ, seqTick_status (hsome n (by omega)) (by rw [← seqTicks_succ]; exact hsome _ hn), ih (by omega)]

end Sys2Proof.Machine
end

