-- ==== Sys2Proof/Tests/Slice0.lean ====
section
/-! SUPPORT. Tests: words written out from the encoding, ill-formed host lines, one-step vectors of 95_test_vectors.md (the
section is named at each), and for every obligation with hypotheses a state and operands that meet them. -/

namespace Sys2Proof.Tests

set_option Elab.async false

open Sys2Proof Sys2Proof.Machine

/-! ## States the tests start from -/

/-- `f` of the next state, or none where the machine stops. -/
def view {α : Type} (f : State → α) : Host.Outcome State Fault Refusal → Option α
  | .next t => some (f t)
  | .fault _ => none
  | .refused _ => none

/-- After reset, with BLK, TAILLEN and LENGTH as given. -/
def onTail (b : List Byte) (r : Byte) (n : Length) : State :=
  { State.reset with tailLen := r, length := n, mem := State.reset.mem.writeRun blkBase b }

/-- After reset, with HEXIN and HEXLEN as given. -/
def onHex (c : List Byte) (n : Byte) : State :=
  { State.reset with hexLen := n, mem := State.reset.mem.writeRun hexInBase c }

/-- After reset, with one operation for the host. -/
def onHost (o : HostOp) : State := { State.reset with host := ⟨[o], [], 0x00, none⟩ }

/-- After an accepted CMD write of `op`. -/
def onBusy (op : Byte) : State := State.reset.issue op

/-- A busy core and a host with one operation, the host to move next. -/
def onBusyHost (op : Byte) (o : HostOp) : State :=
  { State.reset.issue op with host := ⟨[o], [], 0x00, none⟩, sched := [.host] }

/-- The digest string of the empty message (95 section 1.2), in upper case. -/
def emptyDigestUpper : List Byte :=
  [0x44, 0x34, 0x31, 0x44, 0x38, 0x43, 0x44, 0x39, 0x38, 0x46, 0x30, 0x30, 0x42, 0x32, 0x30, 0x34] ++
  [0x45, 0x39, 0x38, 0x30, 0x30, 0x39, 0x39, 0x38, 0x45, 0x43, 0x46, 0x38, 0x34, 0x32, 0x37, 0x45]

/-- The state of the empty message's digest (95 section 1.2). -/
def emptyState : Quad := ⟨0xd98c1dd4, 0x04b2008f, 0x980980e9, 0x7e42f8ec⟩

/-! ## Decoding: the words of R81 written out, and what is no command -/

theorem test_decode_nop : decodeTableWord 8 0b00000000 = some .nop := by decide
theorem test_decode_init : decodeTableWord 8 0b00000001 = some .init := by decide
theorem test_decode_ldhex : decodeTableWord 8 0b00000010 = some .ldhex := by decide
theorem test_decode_compress : decodeTableWord 8 0b00000011 = some .compress := by decide
theorem test_decode_pad : decodeTableWord 8 0b00000100 = some .pad := by decide
theorem test_decode_final : decodeTableWord 8 0b00000101 = some .final := by decide

/-- R83: the first and last illegal opcodes, and one with a command's low bits. -/
theorem test_decode_illegal :
    decodeByte 0x06 = .error (.illegalOpcode 0x06) ∧ decodeByte 0xFF = .error (.illegalOpcode 0xFF) ∧
    decodeByte 0x81 = .error (.illegalOpcode 0x81) ∧ decode [] = .error .noByte := ⟨rfl, rfl, rfl, rfl⟩

/-- R80: exactly one byte is read. -/
theorem test_decode_leaves_rest : decode [0x03, 0x05] = .ok (.compress, [0x05]) := rfl

/-- No two rows of the opcode table fit one byte. -/
theorem test_rows_do_not_overlap :
    opcodeTable.Pairwise (fun r q => r.mask &&& q.mask &&& (r.pattern ^^^ q.pattern) ≠ 0) := by decide

/-! ## Well-formedness: R82, and each condition of R86 and R11 -/

theorem test_wf_commands : [Instr.nop, .init, .ldhex, .compress, .pad, .final].all Instr.wf = true := by decide
theorem test_wf_refuses_wrBlk : (HostStmt.wrBlk (List.replicate 63 0)).wf = false := by decide
theorem test_wf_refuses_wrTail : (HostStmt.wrTail (List.replicate 64 0)).wf = false := by decide
theorem test_wf_refuses_wrLen : (HostStmt.wrLen (2 ^ 64)).wf = false := by decide
theorem test_wf_refuses_wrHex : (HostStmt.wrHex (List.replicate 256 0)).wf = false := by decide +kernel
theorem test_wf_refuses_memRead : (HostStmt.memRead 0x1FF 2).wf = false := by decide
theorem test_wf_refuses_memWrite : (HostStmt.memWrite 0x1FF 2 0).wf = false := by decide
theorem test_wf_refuses_program : hostProgramWf [.wait, .wrBlk []] = false := by decide
theorem test_wf_accepts :
    hostProgramWf [.wrBlk (List.replicate 64 0), .wrTail (List.replicate 63 0), .wrLen (2 ^ 64 - 1), .rdPad] = true := by
  decide
theorem test_assemble_refuses : assemble [.cmd .init, .wrTail (List.replicate 64 0)] = none := by decide

/-! ## The text of a program (95 section 4, P1 to P3) -/

theorem test_text_cmd : programText [.cmd .init] [] = some ["W 000 01".toList] := by decide
theorem test_text_tail : 
    (programText [.wrTail (List.replicate 43 0x54)] []).map List.getLast? = some (some "W 002 2b".toList) := by decide
theorem test_text_len :
    (programText [.wrLen 344] []).map (List.take 2) = some ["W 008 58".toList, "W 009 01".toList] := by decide
theorem test_text_wrHex : (programText [.wrHex (List.replicate 33 0x36)] []).map List.length = some 33 := by decide

/-- A line that breaks a condition of R86 has no text, nor has a program that holds one (log 17). -/
theorem test_text_ill_formed :
    programText [.wrLen (2 ^ 64)] [] = none ∧ programText [.cmd .init, .wrBlk (List.replicate 65 0)] [] = none := by decide

/-- P3: RDPAD that reads PADBLKS 1 reads `100..13f`; the next RDPAD's byte is its own. -/
theorem test_text_rdPad :
    (programText [.rdPad] [0x01]).map List.length = some 65 ∧
    (programText [.rdPad] [0x01]).map (List.take 2) = some ["R 004".toList, "R 100".toList] ∧
    (programText [.rdPad] [0x01]).map List.getLast? = some (some "R 13f".toList) ∧
    programText [.rdPad, .waitOk, .rdPad] [0x00, 0x00] = some ["R 004".toList, "R 001".toList, "R 004".toList] := by
  decide +kernel

/-- R60, R86: a WAIT whose first poll finds the core busy polls again. -/
theorem test_text_polls :
    runText 4 ({ State.reset with sched := [.host, .host] }.loadProgram ((([.cmd .nop, .wait] : List HostStmt)).flatMap expand)) =
      ["W 000 00".toList, "R 001".toList, "R 001".toList] := by decide +kernel

/-- R11: MemWrite writes `v[8k+7:8k]` for `k < n`, whatever bits `v` has above them. -/
theorem test_memWrite_any_value :
    programText [.memWrite 0x008 1 0x358] [] = some ["W 008 58".toList] ∧
    programText [.memWrite 0x008 2 0x70158] [] = some ["W 008 58".toList, "W 009 01".toList] := by decide

/-- R239: a poll that sees BV counts, though a reset clears BV before the poll that ends the WAIT. -/
theorem test_violation_seen_before_reset :
    [[.host, .host, .reset], [.host, .reset], []].map (fun ts => programSeesViolation
      { State.reset with sched := ts, status := ⟨false, true, true, 0⟩ } [.cmd .nop, .wait]) = [true, false, true] := by
  decide +kernel

/-- R11: the bytes `58 01` of LENGTH are 344. -/
theorem test_memRead_value : memReadValue [0x58, 0x01, 0x00] = 344 := by decide

/-! ## The commands, one completion each (95 sections 2.1 to 2.5) -/

/-- 2.1: NOP clears ERR and nothing else. -/
theorem test_nop_clears_err :
    view (fun t => (t.status.toByte, t.h)) (exec .nop { State.reset with status := ⟨false, true, false, 3⟩, h := emptyState }) =
      some (0x02, emptyState) := by decide
/-- 2.1: NOP does not clear BV. -/
theorem test_nop_keeps_bv :
    view (fun t => t.status.toByte) (exec .nop { State.reset with status := ⟨false, true, true, 0⟩ }) = some 0x06 := by
  decide

/-- 2.1: INIT, with BLK unchanged. -/
theorem test_init :
    view (fun t => (t.h, t.blk 0, t.status.toByte)) (exec .init { onTail [0x5A] 0 0 with h := emptyState }) =
      some (⟨0x67452301, 0xefcdab89, 0x98badcfe, 0x10325476⟩, 0x5A, 0x02) := by decide +kernel

/-- 2.2: an upper-case digest loads. -/
theorem test_ldhex_upper :
    view (fun t => (t.h, t.status.toByte)) (exec .ldhex (onHex emptyDigestUpper 0x20)) = some (emptyState, 0x02) := by
  decide +kernel
/-- 2.2: `g` at index 5 is no hex digit. -/
theorem test_ldhex_rejects_g :
    view (fun t => (t.h, t.status.toByte)) (exec .ldhex (onHex (emptyDigestUpper.set 5 0x67) 0x20)) =
      some (⟨0x67452301, 0xefcdab89, 0x98badcfe, 0x10325476⟩, 0x12) := by decide +kernel

/-- 2.5: COMPRESS of `00 01 02 ... 3f` from IV. -/
theorem test_compress_counting :
    view (fun t => t.h) (exec .compress (onTail ((List.range 64).map (BitVec.ofNat 8)) 0 0)) =
      some ⟨0x9144d9ca, 0xd901e4c9, 0x72fc5b38, 0x625ff51e⟩ := by decide +kernel
/-- 2.5: COMPRESS of zeros from zero, whatever TAILLEN and LENGTH hold. -/
theorem test_compress_zeros :
    view (fun t => (t.h, t.status.toByte)) (exec .compress { onTail [] 0x40 7 with h := ⟨0, 0, 0, 0⟩ }) =
      some (⟨0xf7cd1c97, 0xa5483681, 0x2b68d832, 0xf90ca639⟩, 0x02) := by decide +kernel

/-- 2.3, L = 56: two blocks, `61 x 56 80 00 x 63 c0 01 00 x 6`. -/
theorem test_pad_two_blocks :
    view (fun t => (t.padBlks, (List.range 128).map t.padBuf)) (exec .pad (onTail (List.replicate 56 0x61) 56 448)) =
      some (0x02, List.replicate 56 0x61 ++ [0x80] ++ List.replicate 63 0x00 ++ [0xc0, 0x01] ++ List.replicate 6 0x00) := by
  decide +kernel
/-- 2.3: TAILLEN 3 with LENGTH 32 is inconsistent. -/
theorem test_pad_rejects :
    view (fun t => (t.padBlks, t.mem, t.status.toByte)) (exec .pad { onTail [] 3 32 with padBlks := 1 }) =
      some (0x01, [], 0x22) := by decide +kernel

/-- 2.3: FINAL on `abc`. -/
theorem test_final_abc :
    view (fun t => (t.h, t.padBlks)) (exec .final (onTail [0x61, 0x62, 0x63] 3 24)) =
      some (⟨0x98500190, 0xb04fd23c, 0x7d3f96d6, 0x727fe128⟩, 0x01) := by decide +kernel
/-- 2.3: FINAL on the exempt operands leaves `H`, PADBLKS 0 and PADBUF all zeros. -/
theorem test_final_exempt :
    view (fun t => (t.h, t.padBlks, t.mem)) (exec .final { onTail [] 0 512 with padBlks := 1, mem := [(0x100, 0x80)] }) =
      some (⟨0x67452301, 0xefcdab89, 0x98badcfe, 0x10325476⟩, 0x00, []) := by decide +kernel

/-- 2.1: an illegal opcode completes with STATUS 0x32. -/
theorem test_illegal_opcode :
    view (fun t => (t.status.toByte, t.pend)) (step (State.reset.withFetchWord 8 0x80)) = some (0x32, none) := by decide

/-- Each opcode as the first command after reset: STATUS at its completion (95 sections 2.1 to 2.3). -/
theorem test_first_command :
    [0x00, 0x01, 0x02, 0x03, 0x04, 0x05].map (fun w =>
      view (fun t => t.status.toByte) (step (State.reset.withFetchWord 8 w))) =
    [some 0x02, some 0x02, some 0x12, some 0x02, some 0x02, some 0x02] := by decide

/-! ## The datapath (95 section 2.5) -/

theorem test_rotation :
    rotl32 0x80000001 7 = 0x000000c0 ∧ rotl32 0x12345678 22 = 0x9e048d15 ∧ rotl32 0xffffffff 4 = 0xffffffff := by decide

theorem test_mixing :
    [0, 1, 2, 3].map (fun g => mix g 0xffffffff 0x0f0f0f0f 0x33333333) = [0x0f0f0f0f, 0x3f3f3f3f, 0xc3c3c3c3, 0xf0f0f0f0] ∧
    [0, 1, 2, 3].map (fun g => mix g 0x00000000 0x0f0f0f0f 0x33333333) = [0x33333333, 0x0c0c0c0c, 0x3c3c3c3c, 0xc3c3c3c3] := by
  decide

/-- The single steps of the table, `W[k(i)] = 0x11223344` and every other word zero. -/
theorem test_single_steps :
    [(0, 0), (16, 1), (32, 5), (48, 0)].map (fun p : Nat × Nat =>
      roundStep p.1 ⟨0x01234567, 0x89abcdef, 0xfedcba98, 0x76543210⟩
        ((Vector.replicate 16 0).set! p.2 0x11223344)) =
    [⟨0x76543210, 0xd017abe3, 0x89abcdef, 0xfedcba98⟩, ⟨0x76543210, 0xa730a0a1, 0x89abcdef, 0xfedcba98⟩,
     ⟨0x76543210, 0xbfdb4330, 0x89abcdef, 0xfedcba98⟩, ⟨0x76543210, 0x0330678e, 0x89abcdef, 0xfedcba98⟩] := by
  decide +kernel

/-- The step of the wrap-around example. -/
theorem test_step_wraps :
    (roundStep 0 ⟨0xffffffff, 0x00000000, 0x00000000, 0xffffffff⟩ ((Vector.replicate 16 0).set! 0 0xffffffff)).b =
      0xb5523aeb := by decide +kernel

/-! ## The bus (95 sections 2.2 and 2.7) -/

theorem test_state_window_write :
    (State.reset.busWrite 0x010 0xFF).h.a = 0x674523ff ∧ (State.reset.busWrite 0x017 0x00).h.b = 0x00cdab89 := by decide

theorem test_hexout_reads :
    [0x020, 0x02A, 0x03F].map State.reset.readByte = [0x30, 0x61, 0x30] := by decide

theorem test_length_byte_write :
    ({ State.reset with length := 0x0000000000000158 }.busWrite 0x008 0x18).length = 0x0000000000000118 := by decide

theorem test_reserved_reads :
    [0x005, 0x070, 0x1FF, 0x000].map { State.reset with h := emptyState }.readByte = [0x00, 0x00, 0x00, 0x00] := by decide

/-- The first and last address of every entry of the map (R52), and the reserved addresses beside them. -/
theorem test_address_map :
    [0x007, 0x008, 0x00F, 0x010, 0x01F, 0x020, 0x03F, 0x040, 0x05F, 0x060, 0x07F, 0x080, 0x0BF, 0x0C0, 0x0FF, 0x100,
      0x17F, 0x180].map regionOf =
    [.reserved, .length 0, .length 7, .state 0, .state 15, .hexOut 0, .hexOut 31, .hexIn 0, .hexIn 31, .reserved, .reserved,
      .blk 0, .blk 63, .reserved, .reserved, .padBuf 0, .padBuf 127, .reserved] := by decide

theorem test_busy_write_dropped :
    (onBusy 0x05).busWrite 0x080 0xFF = { onBusy 0x05 with status := ⟨true, false, true, 0⟩ } := by decide

/-- A host that writes at once after a CMD write meets a busy core, or a completed one, as the schedule says (P6). -/
theorem test_no_wait_both_outcomes :
    view (fun t => (t.blk 0, t.status.bv)) (step { onBusyHost 0x01 (.wr 0x080 0xFF) with sched := [.host] }) =
      some (0x00, true) ∧
    view (fun t => (t.h, t.status.bv)) (step { onBusyHost 0x01 (.wr 0x080 0xFF) with sched := [.core] }) =
      some (⟨0x67452301, 0xefcdab89, 0x98badcfe, 0x10325476⟩, false) := by decide

theorem test_codec_values :
    (List.range 16).map (fun n => hexChar (BitVec.ofNat 4 n)) =
      [0x30, 0x31, 0x32, 0x33, 0x34, 0x35, 0x36, 0x37, 0x38, 0x39, 0x61, 0x62, 0x63, 0x64, 0x65, 0x66] ∧
    [0x30, 0x39, 0x41, 0x46, 0x61, 0x66].map hexVal = [0, 9, 10, 15, 10, 15] ∧
    [0x2F, 0x3A, 0x40, 0x47, 0x60, 0x67].map isHex = [false, false, false, false, false, false] ∧
    le32 0x01 0x23 0x45 0x67 = 0x67452301 := by decide

theorem test_reset_memory_canonical : State.reset.mem.wf = true := by decide

/-- The host's step of R231: the 33-character literal writes HEXLEN 0x21 (95 section 1.5). -/
theorem test_wrHex_long : (expand (.wrHex (List.replicate 33 0x36))).getLast? = some (.wr 0x003 0x21) := by decide

/-! ## Witnesses: for every obligation with hypotheses, values that meet all of them together -/

/-- The tails at the edges of R158: 0 bytes, 55 (one block), 56 (two), 63 with the longest LENGTH, and the exempt one. -/
def edgeTails : List State :=
  [onTail [] 0 0, onTail (List.replicate 55 0x61) 55 440, onTail (List.replicate 56 0x61) 56 448,
   onTail (List.replicate 63 0x61) 63 0xfffffffffffffff8, onTail [] 0 512, onTail [] 0 0x8000000000000000]

/-- The hypotheses of R158, PadGen's checks. -/
def checks (s : State) : Bool :=
  decide (s.tailLen.toNat ≤ 63) && decide (s.length.toNat % 8 = 0) && decide (s.length.toNat / 8 % 64 = s.tailLen.toNat)

theorem test_witness_DispatchByWholeByte : [0x06, 0x80, 0xFF].all (fun op : Byte => decide (0x06 ≤ op.toNat)) = true := by
  decide

theorem test_witness_DecodeEncodeAgree :
    Instr.final.wf = true ∧ decodeByte 0x05 = .ok .final ∧ (∀ i, encodeByte i ≠ 0x06) ∧ (∀ i, encodeByte i ≠ 0xFF) :=
  ⟨rfl, rfl, by intro i; cases i <;> decide, by intro i; cases i <;> decide⟩

theorem test_witness_StepRunsPendingCommand :
    (onBusy 0x03).pend = some 0x03 ∧ decodeByte 0x03 = .ok .compress ∧ (onBusy 0x03).sched = [] ∧
    { onBusy 0x03 with sched := [.core, .host] }.sched = .core :: [.host] := ⟨rfl, rfl, rfl, rfl⟩

theorem test_witness_IdleCoreKeepsEverything :
    State.reset.pend = none ∧ State.reset.sched = [] ∧ State.reset.host.prog = [] := ⟨rfl, rfl, rfl⟩

theorem test_witness_HostTurnTakesItsNextOperation :
    (onHost (.wr 0x1FF 0xFF)).host.prog = .wr 0x1FF 0xFF :: [] ∧ (onHost (.rd 0x000)).host.prog = .rd 0x000 :: [] ∧
    (onHost .wait).host.prog = .wait :: [] ∧ (onHost .waitOk).host.prog = .waitOk :: [] ∧
    (onHost .rdPad).host.prog = .rdPad :: [] := ⟨rfl, rfl, rfl, rfl, rfl⟩

theorem test_witness_FailedCommandWritesOnlyStatus :
    view (fun t => decide (t.status.err ≠ 0)) ((onBusy 0x06).completion 0x06) = some true ∧
    view (fun t => decide (t.status.err ≠ 0)) (State.reset.completion 0x02) = some true ∧
    view (fun t => decide (t.status.err ≠ 0)) ((onTail [] 64 512).completion 0x05) = some true := by decide +kernel

theorem test_witness_OnlyPadAndFinalWritePadBuf :
    view (fun t => decide (t.mem ≠ State.reset.mem ∧ t.padBlks ≠ State.reset.padBlks)) (State.reset.completion 0x04) =
      some true := by decide +kernel

theorem test_witness_WritersOfTheChainingState :
    view (fun t => decide (t.h ≠ State.reset.h)) (step (onBusy 0x03)) = some true ∧
    view (fun t => decide (t.h ≠ State.reset.h)) (step (onHost (.wr 0x01F 0xAA))) = some true ∧
    view (fun t => decide (t.h ≠ emptyState)) (step { State.reset with h := emptyState, sched := [.reset] }) = some true := by
  decide +kernel

theorem test_witness_StatusByteAndItsWrite : (0x04 : Byte).getLsbD 2 = true ∧ (0xFB : Byte).getLsbD 2 = false := by decide

/-- An idle and a busy core, for every statement that asks for one (CmdWriteIssuesWhenIdle, BusyWriteIsDropped,
DoneFollowsIssueAndCompletion, ReadOnlyAndReservedIgnoreWrites, ReadsHaveNoSideEffect, BusyReadsAreFreeDraws with address
0x000, and the digest windows). -/
theorem test_witness_idle_and_busy :
    State.reset.status.busy = false ∧ (onBusy 0x01).status.busy = true ∧ (0x000 : Addr) ≠ 0x001 ∧ (0x002 : Addr) ≠ 0x001 := by
  decide

theorem test_witness_BusyChangesOnlyByIssueCompletionReset :
    view (fun t => t.status.busy) (step (onHost (.wr 0x000 0x00))) = some true ∧
    view (fun t => t.status.busy) (step (onBusy 0x00)) = some false ∧
    view (fun t => t.status.busy) (step { onBusy 0x00 with sched := [.reset] }) = some false := by decide

theorem test_witness_BvIsStickyAndSetByBusyWrites :
    view (fun t => t.status.bv) (step (onBusyHost 0x00 (.wr 0x1FF 0x00))) = some true ∧
    view (fun t => t.status.bv)
      (step { onHost (.wr 0x001 0x04) with status := ⟨false, true, true, 0⟩ }) = some false ∧
    view (fun t => t.status.bv)
      (step { State.reset with status := ⟨false, true, true, 0⟩, sched := [.reset] }) = some false := by decide

theorem test_witness_ErrHoldsTheOutcomeCode :
    { State.reset with status := ⟨false, true, false, 3⟩ }.status.err.toNat ≤ 3 ∧
    view (fun t => t.status.err) (step (onBusy 0x06)) = some 3 := by decide

/-- The first and last address of each range of IdleReadsFollowTheAddressMap and of ReadOnlyAndReservedIgnoreWrites. -/
theorem test_witness_reserved_addresses :
    [0x005, 0x007, 0x060, 0x07F, 0x0C0, 0x0FF, 0x180, 0x1FF].all (fun a : Addr =>
      decide ((0x005 ≤ a.toNat ∧ a.toNat ≤ 0x007) ∨ (0x060 ≤ a.toNat ∧ a.toNat ≤ 0x07F) ∨
        (0x0C0 ≤ a.toNat ∧ a.toNat ≤ 0x0FF) ∨ 0x180 ≤ a.toNat)) = true := by decide

/-- The first and last address of each range, and a byte beside it. -/
theorem test_witness_WritableBytesReadBack :
    [0x002, 0x003, 0x008, 0x01F, 0x040, 0x05F, 0x080, 0x0BF].all (fun a : Addr =>
      decide (a.toNat = 0x002 ∨ a.toNat = 0x003 ∨ (0x008 ≤ a.toNat ∧ a.toNat < 0x020) ∨
        (0x040 ≤ a.toNat ∧ a.toNat < 0x060) ∨ (0x080 ≤ a.toNat ∧ a.toNat < 0x0C0)) &&
      decide ((0x100 : Addr) ≠ a ∧
        ¬ ((0x010 ≤ a.toNat ∧ a.toNat < 0x020) ∧ (0x020 ≤ (0x100 : Addr).toNat ∧ (0x100 : Addr).toNat < 0x040))) &&
      !State.reset.status.busy && State.reset.mem.wf) = true := by decide

/-- The first and last read-only address of each range; the reserved ones and the cores stand above. -/
theorem test_witness_ReadOnlyAndReservedIgnoreWrites :
    [0x004, 0x020, 0x03F, 0x100, 0x17F].all (fun a : Addr =>
      decide (a.toNat = 0x004 ∨ (0x020 ≤ a.toNat ∧ a.toNat < 0x040) ∨ (0x100 ≤ a.toNat ∧ a.toNat < 0x180))) = true := by
  decide

theorem test_witness_digest_windows_of_iv :
    State.reset.status.busy = false ∧ State.reset.h = ⟨0x67452301, 0xefcdab89, 0x98badcfe, 0x10325476⟩ := by decide

theorem test_witness_DigestFormsAreBijections :
    (List.replicate 16 (0xFF : Byte)).length = 16 ∧ (List.replicate 16 [(0x30 : Byte), 0x66]).flatten.length = 32 ∧
    ∀ c ∈ (List.replicate 16 [(0x30 : Byte), 0x66]).flatten, (0x30 ≤ c ∧ c ≤ 0x39) ∨ (0x61 ≤ c ∧ c ≤ 0x66) := by decide

/-- For LdhexDecodesTheDigest and LdhexThenHexOutReturnsTheDigest. -/
theorem test_witness_LdhexDecodesTheDigest :
    (onHex emptyDigestUpper 32).hexLen = 32 ∧ ∀ k, k < 32 → isHex ((onHex emptyDigestUpper 32).hexIn k) = true := by
  decide +kernel

/-- Each clause on its own: lengths 31 and 33 of a good string, and a bad first and last byte at length 32. -/
theorem test_witness_LdhexRejectsMalformedDigest :
    (onHex emptyDigestUpper 31).hexLen ≠ 32 ∧ (onHex emptyDigestUpper 33).hexLen ≠ 32 ∧
    isHex ((onHex (emptyDigestUpper.set 0 0x2F) 32).hexIn 0) = false ∧
    isHex ((onHex (emptyDigestUpper.set 31 0x67) 32).hexIn 31) = false := by decide +kernel

/-- Steps 0, 15, 16, 31, 32, 47, 48 and 63 of R183's four cases; rotations by 1 and 31. -/
theorem test_witness_datapath_ranges :
    [0, 15, 16, 31, 32, 47, 48, 63].map (fun i => (msgIndex i).val) = [0, 15, 1, 12, 5, 2, 0, 9] ∧
    rotl32 0x80000001 1 = 0x00000003 ∧ rotl32 0x00000002 31 = 0x00000001 := by decide

/-- The words of BLK, the state and the steps that CompressRunsSixtyFourSteps asks for exist for every state. -/
theorem test_witness_CompressRunsSixtyFourSteps (s : State) :
    (∀ k : Fin 16, (blockWords s.blk).get k =
      le32 (s.blk (4 * k)) (s.blk (4 * k + 1)) (s.blk (4 * k + 2)) (s.blk (4 * k + 3))) ∧
    rounds (blockWords s.blk) s.h 0 = s.h ∧
    ∀ i, i < 64 → rounds (blockWords s.blk) s.h (i + 1) = roundStep i (rounds (blockWords s.blk) s.h i) (blockWords s.blk) :=
  ⟨fun k => by simp only [Vector.get_eq_getElem, blockWords, Vector.getElem_ofFn], rounds_zero _ _, fun i _ => rounds_succ _ _ i⟩

/-- Consistent and inconsistent lengths, exempt and not, at 0 and at 63 bytes past a boundary. -/
theorem test_witness_ForgedPaddingIsWholeBlocks :
    (0 : Length).toNat % 8 = 0 ∧ (0 : Length).toNat / 8 % 64 = ([] : List Byte).length % 64 ∧
    ¬ (0 < (0 : Length).toNat ∧ (0 : Length).toNat % 512 = 0) ∧
    (504 : Length).toNat % 8 = 0 ∧ (504 : Length).toNat / 8 % 64 = (List.replicate 63 (0x61 : Byte)).length % 64 ∧
    (0 < (512 : Length).toNat ∧ (512 : Length).toNat % 512 = 0) ∧ (512 : Length).toNat % 8 = 0 := by decide

theorem test_witness_PadGivesWholeBlocks :
    ([] : List Byte).length < 2 ^ 61 ∧ (List.replicate 64 (0x61 : Byte)).length < 2 ^ 61 ∧
    (List.replicate 64 (0x61 : Byte)).length % 64 = 0 := by decide

/-- For PadWritesThePaddedTail, FinalCompressesThePaddedTail, GluePaddingDependsOnLengthOnly and, with the theorem below,
FinalEqualsPadThenCompress. -/
theorem test_witness_PadWritesThePaddedTail : edgeTails.all (fun s => checks s && s.mem.wf) = true := by decide +kernel

theorem test_witness_PadWritesThePaddedTail_cases :
    edgeTails.map (fun s => (exempt s.length, decide (s.tailLen.toNat ≤ 55))) =
      [(false, true), (false, true), (false, false), (false, false), (true, true), (true, true)] := by decide +kernel

/-- Each check on its own (95 section 2.3). -/
theorem test_witness_PadAndFinalRejectInconsistentTail :
    63 < (onTail [] 64 512).tailLen.toNat ∧ (onTail [] 0 7).length.toNat % 8 ≠ 0 ∧
    (onTail [] 0 0xfffffffffffffff8).length.toNat / 8 % 64 ≠ (onTail [] 0 0xfffffffffffffff8).tailLen.toNat := by decide

/-- A run of COMPRESS commands over PADBUF's blocks exists from every state: the next state of each. -/
def compressed (p : State) : Nat → State
  | 0 => p
  | j + 1 => (view id (exec .compress ((compressed p j).copyPadBlock j))).getD p

theorem test_witness_FinalEqualsPadThenCompress (s p : State) (h : exec .pad s = .next p) :
    exec .pad s = .next p ∧ compressed p 0 = p ∧
    ∀ j, j < p.padBlks.toNat → exec .compress ((compressed p j).copyPadBlock j) = .next (compressed p (j + 1)) :=
  ⟨h, rfl, fun _ _ => rfl⟩

theorem test_witness_FinalEqualsPadThenCompress_runs : (view (fun p => p.padBlks) (exec .pad (onTail [] 0 0))) = some 1 := by
  decide +kernel

theorem test_witness_GluePaddingDependsOnLengthOnly :
    checks (onTail [0x61] 1 8) = true ∧ (onTail [0x61] 1 8).length = (onTail [0x62] 1 8).length ∧
    (onTail [0x62] 1 8).tailLen = (onTail [0x61] 1 8).tailLen ∧ (onTail [0x62] 1 8).mem.wf = true := by decide +kernel

theorem test_witness_ResetAbandonsTheCommand :
    { onBusy 0x05 with sched := [.reset, .host] }.sched = .reset :: [.host] := rfl

/-- A busy state, with a scheduled host, meets the invariant. -/
theorem test_witness_StepKeepsTheInvariant :
    (onBusy 0x05).Inv ∧ view (fun t => t.status.busy) (step { onBusy 0x05 with sched := [.host] }) = some true :=
  ⟨⟨by decide, by decide, by decide, by decide, by decide, by decide, by decide, by decide, fun _ _ _ => rfl⟩, by decide⟩

theorem test_witness_PendingCommandEnds : (onBusyHost 0x01 .wait).pend = some 0x01 := rfl

theorem test_witness_HazardKeepingHostMeetsNoHazard :
    (onBusyHost 0x01 .wait).hostKeepsHazard = true ∧ (onBusyHost 0x01 (.wr 0x001 0x00)).hostKeepsHazard = true ∧
    (onHost (.wr 0x080 0x00)).hostKeepsHazard = true ∧ (onBusyHost 0x01 .wait).status.bv = false ∧
    view (fun t => t.status.busy) (step (onBusyHost 0x01 .wait)) = some true := by decide

theorem test_witness_SequencerRefinesCompletion :
    [0x00, 0x01, 0x02, 0x03, 0x04, 0x05, 0x06].all (fun op =>
      decide ((onBusy op).pend = some op ∧ (onBusy op).phase = .decode)) = true := by decide

/-- The message `abc`. -/
theorem test_witness_FinalCompletesTheHash :
    let s := onTail [0x61, 0x62, 0x63] 3 24
    let m : List Byte := [0x61, 0x62, 0x63]
    s.mem.wf = true ∧ m.length < 2 ^ 61 ∧ s.tailLen.toNat = m.length % 64 ∧ s.length.toNat = 8 * m.length ∧
    (∀ k, k < m.length % 64 → s.blk k = (tailOf m).getD k 0) ∧ s.h = compressAll initialState (headOf m) := by
  decide +kernel

/-- The empty message. -/
theorem test_witness_FinalCompletesTheHash_empty :
    State.reset.mem.wf = true ∧ ([] : List Byte).length < 2 ^ 61 ∧
    State.reset.tailLen.toNat = ([] : List Byte).length % 64 ∧ State.reset.length.toNat = 8 * ([] : List Byte).length ∧
    (∀ k, k < ([] : List Byte).length % 64 → State.reset.blk k = (tailOf []).getD k 0) ∧
    State.reset.h = compressAll initialState (headOf []) := by
  decide +kernel

/-- An idle core after reset with turns scheduled in which polls meet a busy core, none a reset; and with a sticky BV. -/
def scheduled (v : Bool) : State :=
  { State.reset with sched := [.host, .host, .core, .host], status := ⟨false, true, v, 0⟩ }

/-- Of the first clause with BV 0; of the second with BV 1, which the first shuts out. -/
theorem test_witness_HashProgramReadsTheDigest :
    Config.Params.wf ⟨1000⟩ ∧ (List.replicate 64 (0x61 : Byte)).length ≤ (⟨1000⟩ : Config.Params).maxMsgBytes ∧
    [false, true].all (fun v => (scheduled v).mem.wf && decide ((scheduled v).pend = none) && !(scheduled v).status.busy &&
      decide ((scheduled v).status.bv = v) && decide (Turn.reset ∉ (scheduled v).sched)) = true := by decide

/-- The procedure's lengths, met with equality and not met by one byte; and digests for each clause: 32 hexadecimal characters,
31 and 33 and 255 of them, one bad character, 256 characters. -/
theorem test_witness_ExtendProgramComputesExtend :
    Config.Params.wf ⟨100⟩ ∧ (scheduled false).status.bv = false ∧
    ((List.replicate 10 (0x61 : Byte)).length + 64 + (List.replicate 26 (0x61 : Byte)).length ≤ 100 ∧
      (pad (List.replicate 10 (0x61 : Byte)) ++ List.replicate 26 (0x61 : Byte)).length < 2 ^ 61) ∧
    ¬ ((List.replicate 10 (0x61 : Byte)).length + 64 + (List.replicate 27 (0x61 : Byte)).length ≤ 100) ∧
    emptyDigestUpper.length = 32 ∧ (∀ k, k < 32 → isHex (emptyDigestUpper.getD k 0) = true) ∧
    [31, 33, 255].all (fun n => decide (n ≤ 255 ∧ n ≠ 32)) = true ∧
    isHex ((emptyDigestUpper.set 31 0x67).getD 31 0) = false ∧ 255 < (List.replicate 256 (0x61 : Byte)).length := by
  decide +kernel

theorem test_witness_LengthExtensionForgesTheHash :
    ([0, 0] : List Byte).length = ([1, 2] : List Byte).length ∧
    ([0, 0] : List Byte).length + 64 + ([3] : List Byte).length < 2 ^ 61 := by decide

theorem test_witness_ExtendDependsOnBaseLengthOnly : ([0, 0] : List Byte).length = ([1, 2] : List Byte).length := rfl

end Sys2Proof.Tests
end

section
/-! The little-endian codecs (00_scope.md R12): what `le32`, `bytes32` and `le64` are, byte by byte, and O27 from it. -/

namespace Sys2Proof.Machine

/-- A word is the `LE32` of its own four bytes: the two agree in every byte (R12). -/
theorem le32_byteAt (w : Word) : le32 (byteAt w 0) (byteAt w 1) (byteAt w 2) (byteAt w 3) = w := by
  apply word_ext_of_bytes
  intro k hk
  rw [byteAt_le32 _ _ _ _ k hk]
  interval_cases k <;> rfl

theorem bytes32_le32 (b0 b1 b2 b3 : Byte) : bytes32 (le32 b0 b1 b2 b3) = [b0, b1, b2, b3] := by
  simp [bytes32, byteAt_le32]

/-- Byte `k` of `LE64`, least significant first (R12). -/
theorem le64_getD (n : Length) {k : Nat} (hk : k < 8) : (le64 n).getD k 0 = byteAt n k := by
  simp [le64, hk]

/-- Settles O27: both inverses follow from the bytes of `LE32` (`byteAt_le32`), a word being its four bytes. -/
theorem littleEndianCodecInverts : Obligations.LittleEndianCodecInverts := by
  unfold Obligations.LittleEndianCodecInverts
  exact ⟨le32_byteAt, bytes32_le32, fun n => ⟨le64_length n, fun _ hk => le64_getD n hk⟩⟩

end Sys2Proof.Machine
end

section
/-! What a bus write, a command's completion and a step can do to each register of the core: the layer under the
statements about STATUS, the chaining state and the invariant (10_state.md R21, R29 to R35). -/

namespace Sys2Proof.Machine

/-! ## Where the writable entries lie -/

/-- The address `n` is the one R52 gives the entry's byte, for the three entries of more than one byte that hold `H` or
a buffer and take writes; of any other entry nothing is said. -/
def Region.liesAt (n : Nat) : Region → Bool
  | .state j => decide (n = stateBase + j ∧ j < 16)
  | .hexIn k => decide (n = hexInBase + k ∧ k < 32)
  | .blk k => decide (n = blkBase + k ∧ k < 64)
  | _ => true

theorem regionOf_liesAt : ∀ a : Addr, (regionOf a).liesAt a.toNat = true := by decide +kernel

theorem regionOf_state_bounds {a : Addr} {j : Nat} (h : regionOf a = .state j) :
    0x010 ≤ a.toNat ∧ a.toNat < 0x020 := by
  have hl : a.toNat = stateBase + j ∧ j < 16 := by simpa [h, Region.liesAt] using regionOf_liesAt a
  rw [stateBase] at hl
  omega

theorem regionOf_hexIn_lt {a : Addr} {k : Nat} (h : regionOf a = .hexIn k) : k < 32 := by
  have hl : a.toNat = hexInBase + k ∧ k < 32 := by simpa [h, Region.liesAt] using regionOf_liesAt a
  exact hl.2

theorem regionOf_blk_lt {a : Addr} {k : Nat} (h : regionOf a = .blk k) : k < 64 := by
  have hl : a.toNat = blkBase + k ∧ k < 64 := by simpa [h, Region.liesAt] using regionOf_liesAt a
  exact hl.2

theorem isBufferAddr_iff (a : Nat) : isBufferAddr a = true ↔
    (0x040 ≤ a ∧ a < 0x060) ∨ (0x080 ≤ a ∧ a < 0x0C0) ∨ (0x100 ≤ a ∧ a < 0x180) := by
  simp [isBufferAddr, or_assoc]

theorem isBufferAddr_padBuf {k : Nat} (hk : k < 128) : isBufferAddr (padBufBase + k) = true := by
  rw [isBufferAddr_iff, padBufBase]; omega

/-! ## A bus write, register by register -/

/-- A STATUS write, BUSY or not (R31). -/
theorem busWrite_addrStatus (s : State) (v : Byte) :
    s.busWrite addrStatus v = { s with status := s.status.hostWrite v } := by
  rcases busWrite_cases s addrStatus v with ⟨_, e⟩ | ⟨h, _⟩ | ⟨h, _⟩ | ⟨_, h, _⟩
  · exact e
  · exact absurd rfl h
  · exact absurd h (by decide)
  · exact absurd rfl h

/-- A bus write and STATUS, the pending command and the phase: R31's write, R58's dropped write, R100's issue, or
nothing. -/
theorem busWrite_control_cases (s : State) (a : Addr) (v : Byte) :
    (a = 0x001 ∧ (s.busWrite a v).status = s.status.hostWrite v ∧
      (s.busWrite a v).pend = s.pend ∧ (s.busWrite a v).phase = s.phase) ∨
    (a ≠ 0x001 ∧ s.status.busy = true ∧ (s.busWrite a v).status = s.status.violate ∧
      (s.busWrite a v).pend = s.pend ∧ (s.busWrite a v).phase = s.phase) ∨
    (a = 0x000 ∧ s.status.busy = false ∧ (s.busWrite a v).status = s.status.issue ∧
      (s.busWrite a v).pend = some v ∧ (s.busWrite a v).phase = .decode) ∨
    ((s.busWrite a v).status = s.status ∧
      (s.busWrite a v).pend = s.pend ∧ (s.busWrite a v).phase = s.phase) := by
  rcases busWrite_cases s a v with ⟨ha, e⟩ | ⟨ha, hb, e⟩ | ⟨ha, hb, e⟩ | ⟨h0, h1, _, e⟩
  · exact .inl ⟨ha, by rw [e], by rw [e], by rw [e]⟩
  · exact .inr (.inl ⟨ha, hb, by rw [e], by rw [e], by rw [e]⟩)
  · exact .inr (.inr (.inl ⟨ha, hb, by rw [e]; rfl, by rw [e]; rfl, by rw [e]; rfl⟩))
  · refine .inr (.inr (.inr ?_))
    rw [e, writeRegion_frame s v h0 h1]
    exact ⟨rfl, rfl, rfl⟩

/-- A bus write that changes the chaining state is to the STATE window of an idle core (R21, R122). -/
theorem busWrite_h_cases (s : State) (a : Addr) (v : Byte) :
    (s.busWrite a v).h = s.h ∨ (s.status.busy = false ∧ 0x010 ≤ a.toNat ∧ a.toNat < 0x020) := by
  rcases busWrite_cases s a v with ⟨_, e⟩ | ⟨_, _, e⟩ | ⟨_, _, e⟩ | ⟨_, _, hb, e⟩
  · exact .inl (by rw [e])
  · exact .inl (by rw [e])
  · exact .inl (by rw [e]; rfl)
  · rw [e]
    cases hr : regionOf a with
    | state j => exact .inr ⟨hb, regionOf_state_bounds hr⟩
    | _ => exact .inl rfl

/-- A bus write to the buffers writes one byte of HEXIN or BLK (R24, R27), never of PADBUF (R53). -/
theorem busWrite_mem_cases (s : State) (a : Addr) (v : Byte) :
    (s.busWrite a v).mem = s.mem ∨
    ∃ b, isBufferAddr b = true ∧ b < padBufBase ∧ (s.busWrite a v).mem = s.mem.write b v := by
  rcases busWrite_cases s a v with ⟨_, e⟩ | ⟨_, _, e⟩ | ⟨_, _, e⟩ | ⟨_, _, _, e⟩
  · exact .inl (by rw [e])
  · exact .inl (by rw [e])
  · exact .inl (by rw [e]; rfl)
  · rw [e]
    cases hr : regionOf a with
    | hexIn k =>
      have hk := regionOf_hexIn_lt hr
      exact .inr ⟨hexInBase + k, by rw [isBufferAddr_iff, hexInBase]; omega, by rw [hexInBase, padBufBase]; omega, rfl⟩
    | blk k =>
      have hk := regionOf_blk_lt hr
      exact .inr ⟨blkBase + k, by rw [isBufferAddr_iff, blkBase]; omega, by rw [blkBase, padBufBase]; omega, rfl⟩
    | _ => exact .inl rfl

/-! ## A step, on the core alone -/

/-- Taking the turn off the schedule is another schedule for the same state. -/
theorem nextTurn_state_onSchedule (s : State) : s.nextTurn.2 = s.onSchedule s.nextTurn.2.sched s.host.polled :=
  nextTurn_state s

/-- All a step can do to the core: what lies outside it (the host, the schedule, the draw counter) apart, a step leaves
reset's values, one bus write, the completion of the pending command, or the core as it was. -/
theorem step_core_cases {s t : State} (h : step s = .next t) :
    ∃ (u : State) (g : HostAgent) (ts : List Turn) (n : Nat), t = { u with host := g, sched := ts, draws := n } ∧
      ((s.nextTurn.1 = .reset ∧ u = State.reset) ∨
       (s.nextTurn.1 = .host ∧ ∃ a v p, s.host.prog = .wr a v :: p ∧ u = s.busWrite a v) ∨
       (s.nextTurn.1 = .core ∧ ∃ op, s.pend = some op ∧ s.completion op = .next u) ∨
       u = s) := by
  have hn := nextTurn_state_onSchedule s
  generalize s.nextTurn.2.sched = ts at hn
  rcases step_cases h with ⟨ht, rfl⟩ | ⟨ht, rfl⟩ | ⟨_, _, rfl⟩ | ⟨ht, op, hp, hc⟩
  · exact ⟨State.reset, _, _, _, rfl, .inl ⟨ht, rfl⟩⟩
  · rw [hn]
    rcases hostTurn_cases (s.onSchedule ts s.host.polled) with ⟨a, v, p, hp, e⟩ | ⟨g, n, e⟩
    · refine ⟨s.busWrite a v, { (s.busWrite a v).host with prog := p, polled := s.host.polled }, ts,
        (s.busWrite a v).draws, ?_, .inr (.inl ⟨ht, a, v, p, hp, rfl⟩)⟩
      rw [e, busWrite_onSchedule]
      rfl
    · exact ⟨s, g, ts, n, e, .inr (.inr (.inr rfl))⟩
  · exact ⟨s, s.host, ts, s.draws, hn, .inr (.inr (.inr rfl))⟩
  · obtain ⟨u, hu, hu'⟩ := completion_onSchedule s op ts s.host.polled
    rw [hn, hu'] at hc
    exact ⟨u, _, _, _, (Host.Outcome.next.inj hc).symm, .inr (.inr (.inl ⟨ht, op, hp, hu⟩))⟩

end Sys2Proof.Machine
end

section
/-! The invariant, in two halves: what it says of the buffers and PADBLKS (R29, R30, R52), and what it says of STATUS, the
pending command and the phase (R32, R33, R35, R108). No operation of the core mixes the two, so each rule below is about
one half; O51 puts them together along `step_core_cases`. -/

namespace Sys2Proof.Machine

/-- The half of the invariant about the buffers and PADBLKS. -/
structure BuffersInv (m : Memory) (q : Byte) : Prop where
  wf : m.wf = true
  inside : m.inBuffers = true
  blksLegal : q.toNat ≤ 2
  tailZero : ∀ k, 64 * q.toNat ≤ k → k < 128 → m.read (padBufBase + k) = 0x00

/-- The half of the invariant about STATUS, the pending command and the phase. -/
structure ControlInv (st : Status) (pend : Option Byte) (ph : Phase) : Prop where
  busyPend : st.busy = pend.isSome
  phasePend : ph = if pend.isSome then .decode else .idle
  doneIdle : st.busy = true → st.done = false
  errDone : st.err ≠ 0 → st.done = true
  errLegal : st.err.toNat ≤ 3

theorem inv_iff (s : State) :
    s.Inv ↔ BuffersInv s.mem s.padBlks ∧ ControlInv s.status s.pend s.phase := by
  constructor
  · rintro ⟨wf, inside, busyPend, phasePend, doneIdle, errDone, errLegal, blksLegal, tailZero⟩
    exact ⟨⟨wf, inside, blksLegal, tailZero⟩, ⟨busyPend, phasePend, doneIdle, errDone, errLegal⟩⟩
  · rintro ⟨⟨wf, inside, blksLegal, tailZero⟩, ⟨busyPend, phasePend, doneIdle, errDone, errLegal⟩⟩
    exact ⟨wf, inside, busyPend, phasePend, doneIdle, errDone, errLegal, blksLegal, tailZero⟩

/-! ## The buffers -/

/-- A write below PADBUF leaves PADBUF's bytes, and so R29's zeros, alone. -/
theorem BuffersInv.write {m : Memory} {q : Byte} (h : BuffersInv m q) {b : Nat} (hb : isBufferAddr b = true)
    (hlt : b < padBufBase) (v : Byte) : BuffersInv (m.write b v) q where
  wf := Memory.write_wf h.wf b v
  inside := Memory.write_inBuffers h.inside hb v
  blksLegal := h.blksLegal
  tailZero k hk hk' := by
    rw [Memory.read_write_other m b v (by omega)]
    exact h.tailZero k hk hk'

theorem BuffersInv.busWrite {s : State} (h : BuffersInv s.mem s.padBlks) (a : Addr) (v : Byte) :
    BuffersInv (s.busWrite a v).mem (s.busWrite a v).padBlks := by
  obtain ⟨_, _, _, hq, _⟩ := busWrite_frame s a v
  rw [hq]
  rcases busWrite_mem_cases s a v with e | ⟨b, hb, hlt, e⟩
  · rwa [e]
  · rw [e]; exact h.write hb hlt v

/-- After the checks the padded tail is as many whole blocks as PADBLKS says, two at most (R158). -/
theorem paddedTail_length_eq_blocks {s : State} (h : s.tailLen.toNat ≤ 63) :
    s.paddedTail.length = 64 * s.padGen.padBlks.toNat ∧ s.padGen.padBlks.toNat ≤ 2 := by
  rw [padGen_padBlks h, paddedTail_length h]
  split
  · decide
  · split <;> decide

/-- The padding generator fills PADBUF: whole blocks of padded tail, then zeros (R29, R158). -/
theorem BuffersInv.padGen {s : State} (h : BuffersInv s.mem s.padBlks) (hp : s.padChecksPass = true) :
    BuffersInv s.padGen.mem s.padGen.padBlks := by
  have ht : s.tailLen.toNat ≤ 63 := ((padChecksPass_iff s).1 hp).1
  obtain ⟨hlen, hq⟩ := paddedTail_length_eq_blocks ht
  have himage : (padImage s.paddedTail).length = 128 := padImage_length (by omega)
  refine ⟨Memory.writeRun_wf h.wf _ _, ?_, hq, ?_⟩
  · exact Memory.writeRun_inBuffers h.inside _ _ fun k hk => isBufferAddr_padBuf (himage ▸ hk)
  · intro k hk hk'
    have hread : s.padGen.padBuf k = s.paddedTail.getD k 0 := padGen_padBuf h.wf ht hk'
    exact hread.trans (List.getD_eq_default _ _ (by omega))

/-! ## STATUS, the pending command and the phase -/

/-- An accepted CMD write, whatever was there before (R100). -/
theorem ControlInv.of_issue (st : Status) (op : Byte) : ControlInv st.issue (some op) .decode :=
  ⟨rfl, rfl, fun _ => rfl, fun h => absurd rfl h, by simp⟩

/-- A completion with a legal code, whatever was there before (R102). -/
theorem ControlInv.of_complete (st : Status) {c : Code} (hc : c.toNat ≤ 3) : ControlInv (st.complete c) none .idle :=
  ⟨rfl, rfl, fun h => absurd h (by simp), fun _ => rfl, hc⟩

/-- BV is in no clause, so whatever changes BV alone keeps them all. -/
theorem ControlInv.of_bv {st st' : Status} {p : Option Byte} {ph : Phase} (h : ControlInv st p ph)
    (e : st' = { st with bv := st'.bv }) : ControlInv st' p ph := by
  rw [e]
  exact ⟨h.busyPend, h.phasePend, h.doneIdle, h.errDone, h.errLegal⟩

theorem ControlInv.busWrite {s : State} (h : ControlInv s.status s.pend s.phase) (a : Addr) (v : Byte) :
    ControlInv (s.busWrite a v).status (s.busWrite a v).pend (s.busWrite a v).phase := by
  rcases busWrite_control_cases s a v with
    ⟨_, hst, hp, hph⟩ | ⟨_, _, hst, hp, hph⟩ | ⟨_, _, hst, hp, hph⟩ | ⟨hst, hp, hph⟩ <;> rw [hst, hp, hph]
  · exact h.of_bv rfl
  · exact h.of_bv rfl
  · exact .of_issue s.status v
  · exact h

/-! ## The events of a step -/

/-- Right after reset (R281). -/
theorem reset_inv : State.reset.Inv :=
  ⟨rfl, rfl, rfl, rfl, fun _ => rfl, fun h => absurd rfl h, by decide, by decide, fun _ _ _ => rfl⟩

theorem busWrite_inv {s : State} (h : s.Inv) (a : Addr) (v : Byte) : (s.busWrite a v).Inv := by
  obtain ⟨hbuf, hctl⟩ := (inv_iff s).1 h
  exact (inv_iff _).2 ⟨hbuf.busWrite a v, hctl.busWrite a v⟩

/-- A completion writes the buffers through the padding generator alone. -/
theorem BuffersInv.completion {s t : State} (h : BuffersInv s.mem s.padBlks) {op : Byte}
    (hc : s.completion op = .next t) : BuffersInv t.mem t.padBlks := by
  rcases completion_cases s op with e | ⟨_, _, g, k, e⟩ | ⟨_, hp, ⟨_, k, e⟩ | ⟨_, g, k, e⟩⟩ <;>
    cases hc.symm.trans e
  · exact h
  · exact h
  · exact h.padGen hp
  · exact h.padGen hp

theorem completion_inv {s t : State} (h : s.Inv) {op : Byte} (hc : s.completion op = .next t) : t.Inv := by
  obtain ⟨u, hu, hst, hp, hph⟩ := completion_status s op
  cases hu.symm.trans hc
  refine (inv_iff t).2 ⟨((inv_iff s).1 h).1.completion hc, ?_⟩
  rw [hst, hp, hph]
  exact .of_complete s.status (outcomeCode_le s op)

/-- The invariant is about the core alone. -/
theorem inv_outside_core {s : State} (h : s.Inv) (g : HostAgent) (ts : List Turn) (n : Nat) :
    State.Inv { s with host := g, sched := ts, draws := n } := (inv_iff _).2 ((inv_iff s).1 h)

/-- Settles O51: each of the events a step is one of keeps the invariant. -/
theorem stepKeepsTheInvariant : Obligations.StepKeepsTheInvariant := by
  unfold Obligations.StepKeepsTheInvariant
  intro s t hs hstep
  obtain ⟨u, g, ts, n, rfl, hu⟩ := step_core_cases hstep
  refine inv_outside_core ?_ g ts n
  rcases hu with ⟨_, rfl⟩ | ⟨_, a, v, p, _, rfl⟩ | ⟨_, op, _, hc⟩ | rfl
  · exact reset_inv
  · exact busWrite_inv hs a v
  · exact completion_inv hs hc
  · exact hs

end Sys2Proof.Machine
end

section
/-! The events that change each register of the core: PADBUF and PADBLKS (R29, R30), the chaining state (R21), and the
fields of STATUS (R31 to R35). -/

namespace Sys2Proof.Machine

/-! ## PADBUF and the chaining state -/

/-- Settles O13: only PAD and FINAL, past their checks, reach the padding generator. -/
theorem onlyPadAndFinalWritePadBuf : Obligations.OnlyPadAndFinalWritePadBuf := by
  unfold Obligations.OnlyPadAndFinalWritePadBuf
  intro op s
  rcases completion_cases s op with e | ⟨_, _, g, k, e⟩ | ⟨_, hp, ⟨ho, k, e⟩ | ⟨ho, g, k, e⟩⟩ <;>
    refine ⟨_, e, ?_, ?_⟩
  · exact fun _ _ => rfl
  · rintro (h | h) <;> exact absurd rfl h
  · exact fun _ _ => rfl
  · rintro (h | h) <;> exact absurd rfl h
  · exact fun _ ha => padGen_read_outside ((padChecksPass_iff s).1 hp).1 ha
  · exact fun _ => ⟨.inl ho, rfl⟩
  · exact fun _ ha => padGen_read_outside ((padChecksPass_iff s).1 hp).1 ha
  · exact fun _ => ⟨.inr ho, rfl⟩

/-- A completion that changes the chaining state is that of INIT, LDHEX, COMPRESS or FINAL (R21). -/
theorem completion_h_cases {s t : State} {op : Byte} (hc : s.completion op = .next t) :
    t.h = s.h ∨ op = 0x01 ∨ op = 0x02 ∨ op = 0x03 ∨ op = 0x05 := by
  rcases completion_cases s op with e | ⟨_, ho, g, k, e⟩ | ⟨_, _, ⟨_, k, e⟩ | ⟨ho, g, k, e⟩⟩ <;>
    cases hc.symm.trans e
  · exact .inl rfl
  · rcases ho with rfl | rfl | rfl <;> simp
  · exact .inl rfl
  · exact .inr (.inr (.inr (.inr ho)))

/-- Settles O14, event by event of a step. -/
theorem writersOfTheChainingState : Obligations.WritersOfTheChainingState := by
  unfold Obligations.WritersOfTheChainingState
  intro s t hstep hne
  obtain ⟨u, g, ts, n, rfl, hu⟩ := step_core_cases hstep
  replace hne : u.h ≠ s.h := hne
  rcases hu with ⟨ht, _⟩ | ⟨ht, a, v, p, hp, rfl⟩ | ⟨ht, op, hp, hc⟩ | rfl
  · exact .inr (.inr ht)
  · obtain ⟨hb, ha⟩ := (busWrite_h_cases s a v).resolve_left hne
    exact .inr (.inl ⟨ht, hb, a, v, p, hp, ha⟩)
  · exact .inl ⟨ht, op, hp, (completion_h_cases hc).resolve_left hne⟩
  · exact absurd rfl hne

/-! ## STATUS -/

/-- The STATUS byte bit by bit (R31). -/
theorem toByte_fields (s : Status) : s.toByte.getLsbD 0 = s.busy ∧ s.toByte.getLsbD 1 = s.done ∧
    s.toByte.getLsbD 2 = s.bv ∧ s.toByte.getLsbD 3 = false ∧ s.toByte.extractLsb' 4 4 = s.err := by
  obtain ⟨busy, done, bv, err⟩ := s
  revert busy done bv err
  decide

theorem status_hostWrite_of_bit {v : Byte} (hv : v.getLsbD 2 = true) (s : Status) :
    s.hostWrite v = { s with bv := false } := by
  simp only [Status.hostWrite, hv, Bool.not_true, Bool.and_false]

theorem status_hostWrite_of_not_bit {v : Byte} (hv : v.getLsbD 2 = false) (s : Status) : s.hostWrite v = s := by
  simp only [Status.hostWrite, hv, Bool.not_false, Bool.and_true]

/-- Settles O15: the byte's layout, and R31's write by the value of its bit 2. -/
theorem statusByteAndItsWrite : Obligations.StatusByteAndItsWrite := by
  unfold Obligations.StatusByteAndItsWrite
  refine ⟨toByte_fields, fun s v hv => ?_, fun s v hv => ?_⟩
  · exact (busWrite_addrStatus s v).trans (by rw [status_hostWrite_of_bit hv])
  · exact (busWrite_addrStatus s v).trans (by rw [status_hostWrite_of_not_bit hv])

/-- What an accepted CMD write leaves in STATUS (R100). -/
theorem busWrite_cmd_status {s : State} (h : s.status.busy = false) (v : Byte) :
    (s.busWrite 0x000 v).status = s.status.issue := congrArg State.status (busWrite_cmd h v)

/-- All a step can do to STATUS: reset clears it, the host writes or is refused or issues a command, a completion writes a
legal outcome code, and any other step leaves it alone (R31 to R35). -/
theorem step_status_cases {s t : State} (h : step s = .next t) :
    (s.nextTurn.1 = .reset ∧ t.status = State.reset.status) ∨
    (s.nextTurn.1 = .host ∧ ∃ a v p, s.host.prog = .wr a v :: p ∧
      ((a = 0x001 ∧ t.status = s.status.hostWrite v) ∨
       (a ≠ 0x001 ∧ s.status.busy = true ∧ t.status = s.status.violate) ∨
       (a = 0x000 ∧ s.status.busy = false ∧ t.status = s.status.issue))) ∨
    (s.nextTurn.1 = .core ∧ ∃ op, s.pend = some op ∧ t.status = s.status.complete (s.outcomeCode op)) ∨
    t.status = s.status := by
  obtain ⟨u, g, ts, n, rfl, hu⟩ := step_core_cases h
  rcases hu with ⟨ht, rfl⟩ | ⟨ht, a, v, p, hp, rfl⟩ | ⟨ht, op, hp, hc⟩ | rfl
  · exact .inl ⟨ht, rfl⟩
  · rcases busWrite_control_cases s a v with ⟨ha, e, _⟩ | ⟨ha, hb, e, _⟩ | ⟨ha, hb, e, _⟩ | ⟨e, _⟩
    · exact .inr (.inl ⟨ht, a, v, p, hp, .inl ⟨ha, e⟩⟩)
    · exact .inr (.inl ⟨ht, a, v, p, hp, .inr (.inl ⟨ha, hb, e⟩)⟩)
    · exact .inr (.inl ⟨ht, a, v, p, hp, .inr (.inr ⟨ha, hb, e⟩)⟩)
    · exact .inr (.inr (.inr e))
  · obtain ⟨w, hw, hst, _⟩ := completion_status s op
    cases hw.symm.trans hc
    exact .inr (.inr (.inl ⟨ht, op, hp, hst⟩))
  · exact .inr (.inr (.inr rfl))

/-- Settles O18: of the events a step can be, only issue, completion and reset give BUSY another value. -/
theorem busyChangesOnlyByIssueCompletionReset : Obligations.BusyChangesOnlyByIssueCompletionReset := by
  unfold Obligations.BusyChangesOnlyByIssueCompletionReset
  refine ⟨fun s v hb => ?_, fun s op => ?_, fun s => ⟨_, rfl, rfl⟩, fun s t hstep hne => ?_⟩
  · rw [busWrite_cmd_status hb, status_issue_busy]
  · obtain ⟨t, ht, hst, _⟩ := completion_status s op
    exact ⟨t, ht, by rw [hst, status_complete_busy]⟩
  · rcases step_status_cases hstep with ⟨ht, _⟩ | ⟨ht, a, v, p, hp, hw⟩ | ⟨ht, op, hp, _⟩ | e
    · exact .inr (.inr ht)
    · rcases hw with ⟨_, e⟩ | ⟨_, _, e⟩ | ⟨rfl, hb, _⟩
      · exact absurd (by rw [e, status_hostWrite_busy]) hne
      · exact absurd (by rw [e, status_violate_busy]) hne
      · exact .inl ⟨hb, ht, v, p, hp⟩
    · exact .inr (.inl ⟨ht, op, hp⟩)
    · exact absurd (by rw [e]) hne

/-- Settles O19: STATUS after an accepted CMD write, after a completion and after reset. -/
theorem doneFollowsIssueAndCompletion : Obligations.DoneFollowsIssueAndCompletion := by
  unfold Obligations.DoneFollowsIssueAndCompletion
  refine ⟨fun s v hb => ?_, fun s op => ?_, fun s => ⟨_, rfl, rfl⟩⟩
  · rw [busWrite_cmd_status hb, status_issue_done]
  · obtain ⟨t, ht, hst, _⟩ := completion_status s op
    exact ⟨t, ht, by rw [hst, status_complete_done]⟩

/-- A dropped write of a busy core sets BV (R58). -/
theorem busWrite_busy_bv {s : State} (hb : s.status.busy = true) {a : Addr} (ha : a ≠ 0x001) (v : Byte) :
    (s.busWrite a v).status.bv = true := by
  rcases busWrite_cases s a v with ⟨h, _⟩ | ⟨_, _, e⟩ | ⟨_, h, _⟩ | ⟨_, _, h, _⟩
  · exact absurd h ha
  · rw [e]; rfl
  · simp [hb] at h
  · simp [hb] at h

/-- Settles O20: of the events a step can be, only a dropped write sets BV, and only a STATUS write and reset clear it. -/
theorem bvIsStickyAndSetByBusyWrites : Obligations.BvIsStickyAndSetByBusyWrites := by
  unfold Obligations.BvIsStickyAndSetByBusyWrites
  refine ⟨fun s a v hb ha => busWrite_busy_bv hb ha v, fun s t hstep h0 h1 => ?_, fun s v hv => ?_,
    fun s => ⟨_, rfl, rfl⟩, fun s t hstep h1 h0 => ?_⟩
  · rcases step_status_cases hstep with ⟨_, e⟩ | ⟨ht, a, v, p, hp, hw⟩ | ⟨_, op, _, e⟩ | e
    · simp [e, State.reset] at h1
    · rcases hw with ⟨_, e⟩ | ⟨ha, hb, _⟩ | ⟨_, _, e⟩
      · simp [e, h0] at h1
      · exact ⟨ht, hb, a, v, p, hp, ha⟩
      · simp [e, h0] at h1
    · simp [e, h0] at h1
    · simp [e, h0] at h1
  · refine (congrArg (fun u : State => u.status.bv) (busWrite_addrStatus s v)).trans ?_
    rw [status_hostWrite_of_bit hv]
  · rcases step_status_cases hstep with ⟨ht, _⟩ | ⟨ht, a, v, p, hp, hw⟩ | ⟨_, op, _, e⟩ | e
    · exact .inl ht
    · rcases hw with ⟨rfl, e⟩ | ⟨_, _, e⟩ | ⟨_, _, e⟩
      · exact .inr ⟨ht, v, p, hp, by simpa [e, h1] using h0⟩
      · simp [e] at h0
      · simp [e, h1] at h0
    · simp [e, h1] at h0
    · simp [e, h1] at h0

/-- Settles O21: reset and issue write 0, a completion an outcome code, and every other event keeps ERR. -/
theorem errHoldsTheOutcomeCode : Obligations.ErrHoldsTheOutcomeCode := by
  unfold Obligations.ErrHoldsTheOutcomeCode
  refine ⟨fun s v hb => ?_, fun s op => ?_, fun s => ⟨_, rfl, rfl⟩, fun s t hs hstep => ?_⟩
  · rw [busWrite_cmd_status hb, status_issue_err]
  · obtain ⟨t, ht, hst, _⟩ := completion_status s op
    have he : t.status.err = s.outcomeCode op := by rw [hst, status_complete_err]
    exact ⟨t, ht, he, he ▸ outcomeCode_le s op⟩
  · rcases step_status_cases hstep with ⟨_, e⟩ | ⟨_, a, v, p, _, hw⟩ | ⟨_, op, _, e⟩ | e
    · rw [e]; decide
    · rcases hw with ⟨_, e⟩ | ⟨_, _, e⟩ | ⟨_, _, e⟩ <;> rw [e]
      · exact hs
      · exact hs
      · exact Nat.zero_le 3
    · rw [e]; exact outcomeCode_le s op
    · rwa [e]

end Sys2Proof.Machine
end

section
/-! The hidden working words (R38): every event of the machine commutes with replacing them, up to the working words it
leaves itself, so they reach nothing a host can observe (R263, R281). -/

namespace Sys2Proof.Machine

/-- What a host can learn of a state has no working word in it. -/
@[simp] theorem visible_withWork (s : State) (k : Work) : (s.withWork k).visible = s.visible := rfl

/-! ## The host's turn -/

theorem busWrite_withWork (s : State) (k : Work) (a : Addr) (v : Byte) :
    (s.withWork k).busWrite a v = (s.busWrite a v).withWork k := by
  unfold State.busWrite
  rw [withWork_status]
  split
  · rfl
  · cases regionOf a <;> rfl

theorem afterRead_withWork (s : State) (k : Work) (a : Addr) :
    (s.withWork k).afterRead a = (s.afterRead a).withWork k := by
  unfold State.afterRead
  rw [show (s.withWork k).readsFree a = s.readsFree a from rfl]
  split <;> rfl

theorem readByte_withWork (s : State) (k : Work) (a : Addr) : (s.withWork k).readByte a = s.readByte a := by
  unfold State.readByte State.windowByte
  rw [show (s.withWork k).readsFree a = s.readsFree a from rfl]
  cases regionOf a <;> rfl

theorem hostRead_withWork (s : State) (k : Work) (a : Addr) (p : List HostOp) :
    (s.withWork k).hostRead a p = (s.hostRead a p).withWork k := by
  simp only [State.hostRead, afterRead_withWork, readByte_withWork]
  rfl

theorem hostWait_withWork (s : State) (k : Work) (p : List HostOp) :
    (s.withWork k).hostWait p = (s.hostWait p).withWork k := by
  unfold State.hostWait
  rw [withWork_status]
  split <;> rfl

theorem hostWaitOk_withWork (s : State) (k : Work) (p : List HostOp) :
    (s.withWork k).hostWaitOk p = (s.hostWaitOk p).withWork k := by
  unfold State.hostWaitOk
  rw [withWork_status]
  split
  · rfl
  · split <;> rfl

theorem hostTurn_withWork (s : State) (k : Work) : (s.withWork k).hostTurn = s.hostTurn.withWork k := by
  unfold State.hostTurn
  rw [withWork_host]
  cases s.host.prog with
  | nil => rfl
  | cons o p =>
    cases o with
    | wr a v => simp only [busWrite_withWork]; rfl
    | rd a => exact hostRead_withWork s k a p
    | wait => exact hostWait_withWork s k p
    | waitOk => exact hostWaitOk_withWork s k p
    | rdPad => simp only [readByte_withWork, hostRead_withWork]

/-! ## The commands -/

theorem padGen_withWork (s : State) (k : Work) : (s.withWork k).padGen = s.padGen.withWork k := rfl

/-- FINAL's blocks read the chaining state and PADBUF, and no working word. -/
theorem compressPadBlocks_withWork (s : State) (k : Work) (q : Nat) :
    ∃ l, (s.withWork k).compressPadBlocks q = (s.compressPadBlocks q).withWork l := by
  induction q with
  | zero => exact ⟨k, rfl⟩
  | succ q ih =>
    obtain ⟨l, e⟩ := ih
    rw [compressPadBlocks_succ, compressPadBlocks_succ, e]
    generalize s.compressPadBlocks q = u
    unfold State.compressPadBlock
    rw [withWork_h, withWork_padBlock, withWork_withH, withWork_withWork]
    exact ⟨_, (withWork_withWork _ _ _).symm⟩

theorem complete_withWork (s : State) (k : Work) (c : Code) : (s.withWork k).complete c = (s.complete c).withWork k := rfl

/-- A command answers the same but for the working words it leaves. -/
theorem exec_withWork (i : Instr) (s : State) (k : Work) :
    ∃ t l, exec i s = .next t ∧ exec i (s.withWork k) = .next (t.withWork l) := by
  cases i with
  | nop => exact ⟨_, k, rfl, rfl⟩
  | init => exact ⟨_, k, rfl, rfl⟩
  | ldhex =>
    show ∃ t l, execLdhex s = .next t ∧ execLdhex (s.withWork k) = .next (t.withWork l)
    cases h : s.hexDigest with
    | none => exact ⟨_, k, execLdhex_none h, execLdhex_none (s := s.withWork k) h⟩
    | some g => exact ⟨_, k, execLdhex_some h, execLdhex_some (s := s.withWork k) h⟩
  | compress =>
    refine ⟨_, k.afterBlock s.h s.blk, execCompress_eq s, (execCompress_eq _).trans ?_⟩
    rw [withWork_h, withWork_blk, withWork_work, withWork_withH, withWork_withWork, ← complete_withWork,
      withWork_withWork]
  | pad =>
    show ∃ t l, execPad s = .next t ∧ execPad (s.withWork k) = .next (t.withWork l)
    cases h : s.padChecksPass with
    | false => exact ⟨_, k, execPad_fail h, execPad_fail (s := s.withWork k) h⟩
    | true => exact ⟨_, { k with j := 0 }, execPad_pass h, execPad_pass (s := s.withWork k) h⟩
  | final =>
    show ∃ t l, execFinal s = .next t ∧ execFinal (s.withWork k) = .next (t.withWork l)
    cases h : s.padChecksPass with
    | false => exact ⟨_, k, execFinal_fail h, execFinal_fail (s := s.withWork k) h⟩
    | true =>
      obtain ⟨l, e⟩ := compressPadBlocks_withWork (s.padGen.withWork { s.work with j := 0 }) { k with j := 0 }
        (s.paddedTail.length / 64)
      refine ⟨_, l, execFinal_pass h, (execFinal_pass (s := s.withWork k) h).trans ?_⟩
      rw [withWork_withWork] at e
      rw [padGen_withWork, withWork_work, withWork_withWork, ← complete_withWork, ← e]
      rfl

theorem completion_withWork (s : State) (k : Work) (op : Byte) :
    ∃ t l, s.completion op = .next t ∧ (s.withWork k).completion op = .next (t.withWork l) := by
  unfold State.completion
  cases decodeByte op with
  | ok i => exact exec_withWork i s k
  | error e => exact ⟨_, k, rfl, rfl⟩

/-! ## The step -/

theorem takeTurn_withWork (s : State) (k : Work) (x : Turn) :
    ∃ t l, s.takeTurn x = .next t ∧ (s.withWork k).takeTurn x = .next (t.withWork l) := by
  cases x with
  | host => exact ⟨_, k, rfl, congrArg Host.Outcome.next (hostTurn_withWork s k)⟩
  | reset => exact ⟨_, State.reset.work, rfl, rfl⟩
  | core =>
    show ∃ t l, s.coreTurn = .next t ∧ (s.withWork k).coreTurn = .next (t.withWork l)
    cases h : s.pend with
    | none => exact ⟨s, k, coreTurn_none h, coreTurn_none (s := s.withWork k) h⟩
    | some op =>
      rw [coreTurn_some h, coreTurn_some (s := s.withWork k) h]
      exact completion_withWork s k op

/-- No working word decides whose turn it is. -/
theorem nextTurn_withWork (s : State) (k : Work) :
    (s.withWork k).nextTurn = (s.nextTurn.1, s.nextTurn.2.withWork k) := by
  unfold State.nextTurn
  rw [withWork_sched]
  cases s.sched <;> rfl

/-- Settles O54: the same turn is taken, and it commutes with replacing the working words. -/
theorem hiddenWordsNeverObserved : Obligations.HiddenWordsNeverObserved := by
  unfold Obligations.HiddenWordsNeverObserved
  intro s k
  obtain ⟨t, l, ht, hr⟩ := takeTurn_withWork s.nextTurn.2 k s.nextTurn.1
  refine ⟨t, t.withWork l, ht, ?_, visible_withWork t l⟩
  rw [← withWork_eq, step_eq, nextTurn_withWork]
  exact hr

end Sys2Proof.Machine
end

section
/-! The bus window (20_memory.md R52 to R59): what a read returns and leaves, and what a write to each kind of entry leaves,
of a busy and of an idle core. -/

namespace Sys2Proof.Machine

/-! ## Reads -/

/-- STATUS is never a free read (R59). -/
theorem readsFree_addrStatus (s : State) : s.readsFree addrStatus = false := by
  simp [State.readsFree, (regionOf_status_iff addrStatus).2 rfl]

/-- Every other read of a busy core is one (R59). -/
theorem readsFree_busy {s : State} (hb : s.status.busy = true) {a : Addr} (ha : a ≠ 0x001) : s.readsFree a = true := by
  rw [State.readsFree, hb, Bool.true_and, decide_eq_true_eq]
  exact mt (regionOf_status_iff a).1 ha

/-- A STATUS read returns the STATUS byte, BUSY or not (R59). -/
theorem readByte_addrStatus (s : State) : s.readByte addrStatus = s.status.toByte := by
  rw [State.readByte, readsFree_addrStatus]; rfl

theorem afterRead_addrStatus (s : State) : s.afterRead addrStatus = s := by
  rw [State.afterRead, readsFree_addrStatus]; rfl

@[simp] theorem afterRead_host (s : State) (a : Addr) : (s.afterRead a).host = s.host := by
  rw [afterRead_frame]

/-- Settles O25: a read moves the draw counter at most, and a read of an idle core or of STATUS not even that. -/
theorem readsHaveNoSideEffect : Obligations.ReadsHaveNoSideEffect := by
  unfold Obligations.ReadsHaveNoSideEffect
  refine fun s a => ⟨⟨_, afterRead_frame s a⟩, fun hb => ?_, readByte_addrStatus s, afterRead_addrStatus s⟩
  have e := afterRead_idle hb a
  exact ⟨e, by rw [e]⟩

/-- Settles O26: such a read is free, so it returns the draw and moves the counter. -/
theorem busyReadsAreFreeDraws : Obligations.BusyReadsAreFreeDraws := by
  unfold Obligations.BusyReadsAreFreeDraws
  intro s a hb ha
  have hf := readsFree_busy hb ha
  exact ⟨by rw [State.readByte, if_pos hf], by rw [State.afterRead, if_pos hf]⟩

/-! ## Reads of an idle core, entry by entry -/

theorem readByte_cmd {s : State} (h : s.status.busy = false) : s.readByte addrCmd = 0x00 := by
  rw [readByte_idle h]; rfl

theorem readByte_tailLen {s : State} (h : s.status.busy = false) : s.readByte addrTailLen = s.tailLen := by
  rw [readByte_idle h]; rfl

theorem readByte_hexLen {s : State} (h : s.status.busy = false) : s.readByte addrHexLen = s.hexLen := by
  rw [readByte_idle h]; rfl

/-- A byte of a multi-byte entry, by the map's lemma for the entry's range. -/
theorem readByte_addrAt {s : State} (h : s.status.busy = false) {base k : Nat} {r : Region} (hn : base + k < 512)
    (hr : regionAt (base + k) = r) : s.readByte (addrAt base k) = s.regionByte r := by
  rw [readByte_idle h, addrAt_toNat hn, hr]

theorem readByte_length {s : State} (h : s.status.busy = false) {k : Nat} (hk : k < 8) :
    s.readByte (addrAt lengthBase k) = byteAt s.length k :=
  readByte_addrAt h (by omega) (regionAt_length k hk)

theorem readByte_hexIn {s : State} (h : s.status.busy = false) {k : Nat} (hk : k < 32) :
    s.readByte (addrAt hexInBase k) = s.hexIn k :=
  readByte_addrAt h (by omega) (regionAt_hexIn k hk)

theorem readByte_blk {s : State} (h : s.status.busy = false) {k : Nat} (hk : k < 64) :
    s.readByte (addrAt blkBase k) = s.blk k :=
  readByte_addrAt h (by omega) (regionAt_blk k hk)

/-- A reserved address of an idle core reads 0x00 (R53). -/
theorem readByte_reserved {s : State} (h : s.status.busy = false) {a : Addr}
    (ha : (0x005 ≤ a.toNat ∧ a.toNat ≤ 0x007) ∨ (0x060 ≤ a.toNat ∧ a.toNat ≤ 0x07F) ∨
      (0x0C0 ≤ a.toNat ∧ a.toNat ≤ 0x0FF) ∨ 0x180 ≤ a.toNat) : s.readByte a = 0x00 := by
  rw [readByte_idle h, regionAt_reserved a.toNat a.isLt ha]; rfl

/-- Settles O22, entry by entry of the map. -/
theorem idleReadsFollowTheAddressMap : Obligations.IdleReadsFollowTheAddressMap := by
  unfold Obligations.IdleReadsFollowTheAddressMap
  exact fun s h => ⟨readByte_cmd h, readByte_addrStatus s, readByte_tailLen h, readByte_hexLen h, readByte_padBlks h,
    fun _ hk => readByte_length h hk, fun _ hk => readByte_hexIn h hk, fun _ hk => readByte_blk h hk,
    fun _ hk => readByte_padBuf h hk, fun _ ha => readByte_reserved h ha⟩

/-! ## Writes that no register takes -/

/-- A busy core drops a write, STATUS apart, and sets BV (R58). -/
theorem busWrite_busy {s : State} (hb : s.status.busy = true) {a : Addr} (ha : a ≠ 0x001) (v : Byte) :
    s.busWrite a v = { s with status := { s.status with bv := true } } := by
  rcases busWrite_cases s a v with ⟨h, _⟩ | ⟨_, _, e⟩ | ⟨_, h, _⟩ | ⟨_, _, h, _⟩
  · exact absurd h ha
  · exact e
  · simp [hb] at h
  · simp [hb] at h

/-- R31's write as a choice by bit 2. -/
theorem status_hostWrite_eq_ite (s : Status) (v : Byte) :
    s.hostWrite v = { s with bv := if v.getLsbD 2 then false else s.bv } := by
  cases hv : v.getLsbD 2
  · exact status_hostWrite_of_not_bit hv s
  · exact status_hostWrite_of_bit hv s

/-- Settles O17: the dropped write, and R31's, which BUSY does not stop. -/
theorem busyWriteIsDropped : Obligations.BusyWriteIsDropped := by
  unfold Obligations.BusyWriteIsDropped
  intro s v hb
  exact ⟨fun a ha => busWrite_busy hb ha v, (busWrite_addrStatus s v).trans (by rw [status_hostWrite_eq_ite])⟩

/-- An R/W entry of the map (R52). -/
def Region.writable : Region → Bool
  | .tailLen | .hexLen | .length _ | .state _ | .hexIn _ | .blk _ => true
  | .cmd | .status | .padBlks | .hexOut _ | .padBuf _ | .reserved => false

/-- Where the R/W entries lie (R52). -/
theorem regionOf_writable_iff : ∀ a : Addr, (regionOf a).writable = true ↔
    a.toNat = 0x002 ∨ a.toNat = 0x003 ∨ (0x008 ≤ a.toNat ∧ a.toNat < 0x020) ∨
      (0x040 ≤ a.toNat ∧ a.toNat < 0x060) ∨ (0x080 ≤ a.toNat ∧ a.toNat < 0x0C0) := by decide +kernel

/-- CMD and STATUS apart, an idle core ignores a write to what is not writable (R53, R54). -/
theorem busWrite_ignored {s : State} (hb : s.status.busy = false) {a : Addr} (h2 : 0x002 ≤ a.toNat)
    (hw : ¬ (regionOf a).writable = true) (v : Byte) : s.busWrite a v = s := by
  rw [busWrite_idle hb, ← regionOf]
  cases hr : regionOf a with
  | cmd => rw [(regionOf_cmd_iff a).1 hr] at h2; simp at h2
  | status => rw [(regionOf_status_iff a).1 hr] at h2; simp at h2
  | tailLen | hexLen | length k | state j | hexIn k | blk k => rw [hr] at hw; exact absurd rfl hw
  | padBlks | hexOut k | padBuf k | reserved => rfl

/-- Settles O24: neither range holds a writable entry, CMD or STATUS. -/
theorem readOnlyAndReservedIgnoreWrites : Obligations.ReadOnlyAndReservedIgnoreWrites := by
  unfold Obligations.ReadOnlyAndReservedIgnoreWrites
  refine ⟨fun s hb => ⟨fun a v ha => ?_, readByte_cmd hb⟩, fun s a v ha => ⟨fun hb => ⟨?_, readByte_reserved hb ha⟩,
    fun hb => busWrite_busy hb ?_ v⟩⟩
  · exact busWrite_ignored hb (by omega) (by rw [regionOf_writable_iff]; omega) v
  · exact busWrite_ignored hb (by omega) (by rw [regionOf_writable_iff]; omega) v
  · rintro rfl; simp at ha

/-! ## Writes that a register or a buffer takes -/

/-- The region is the entry that R52 puts at the address `n`, with its offset inside the entry; where the reserved addresses
lie is not said. -/
def Region.isAt (n : Nat) : Region → Prop
  | .cmd => n = 0x000
  | .status => n = 0x001
  | .tailLen => n = 0x002
  | .hexLen => n = 0x003
  | .padBlks => n = 0x004
  | .length k => n = lengthBase + k ∧ k < 8
  | .state j => n = stateBase + j ∧ j < 16
  | .hexOut k => n = hexOutBase + k ∧ k < 32
  | .hexIn k => n = hexInBase + k ∧ k < 32
  | .blk k => n = blkBase + k ∧ k < 64
  | .padBuf k => n = padBufBase + k ∧ k < 128
  | .reserved => True

/-- The addresses of a range of the map are `base + k`, so what holds at each of these holds in the range. -/
theorem isAt_of_range {base len n : Nat} {r : Nat → Region} (hr : ∀ k, k < len → regionAt (base + k) = r k)
    (hat : ∀ k, k < len → (r k).isAt (base + k)) (h : base ≤ n ∧ n < base + len) : (regionAt n).isAt n := by
  obtain ⟨k, rfl⟩ := Nat.exists_eq_add_of_le h.1
  have hk : k < len := by omega
  rw [hr k hk]
  exact hat k hk

theorem regionOf_isAt (a : Addr) : (regionOf a).isAt a.toNat := by
  rw [regionOf]
  rcases window_cases a.toNat a.isLt with h | h | h | h | h | h | h | h | h | h | h | h
  · rw [h]; rfl
  · rw [h]; rfl
  · rw [h]; rfl
  · rw [h]; rfl
  · rw [h]; rfl
  · exact isAt_of_range regionAt_length (fun _ hk => ⟨rfl, hk⟩) h
  · exact isAt_of_range regionAt_state (fun _ hk => ⟨rfl, hk⟩) h
  · exact isAt_of_range regionAt_hexOut (fun _ hk => ⟨rfl, hk⟩) h
  · exact isAt_of_range regionAt_hexIn (fun _ hk => ⟨rfl, hk⟩) h
  · exact isAt_of_range regionAt_blk (fun _ hk => ⟨rfl, hk⟩) h
  · exact isAt_of_range regionAt_padBuf (fun _ hk => ⟨rfl, hk⟩) h
  · rw [h]; trivial

/-- A byte written to a writable entry is what the entry then holds (R52). -/
theorem regionByte_writeRegion_same {s : State} (hm : s.mem.wf = true) {r : Region} (hw : r.writable = true) {n : Nat}
    (hn : r.isAt n) (v : Byte) : (s.writeRegion r v).regionByte r = v := by
  cases r with
  | tailLen | hexLen => rfl
  | length k => exact (byteAt_setByteAt _ _ _ _ (by have := hn.2; omega)).trans (if_pos rfl)
  | state j => exact (digestByte_setDigestByte _ _ _ _ hn.2 hn.2).trans (if_pos rfl)
  | hexIn k | blk k => exact Memory.read_write_same hm _ v
  | cmd | status | padBlks | hexOut k | padBuf k | reserved => cases hw

/-- A buffer write changes no entry but the one at its own address. -/
theorem regionByte_memWrite (s : State) {r : Region} {n b : Nat} (hb : r.isAt b) (hne : b ≠ n) (v : Byte) :
    ({ s with mem := s.mem.write n v } : State).regionByte r = s.regionByte r := by
  cases r with
  | hexIn k | blk k | padBuf k => exact Memory.read_write_other _ _ _ (hb.1 ▸ hne)
  | _ => rfl

/-- A write to a writable entry changes no other entry, HEXOUT apart when it is to STATE, of which it is a view
(R121, R123). -/
theorem regionByte_writeRegion_other (s : State) {r q : Region} (hw : r.writable = true) {a b : Nat} (ha : r.isAt a)
    (hb : q.isAt b) (hne : b ≠ a) (hv : ∀ j k, r = .state j → q ≠ .hexOut k) (v : Byte) :
    (s.writeRegion r v).regionByte q = s.regionByte q := by
  cases r with
  | tailLen => cases q with
    | tailLen => exact absurd (hb.trans ha.symm) hne
    | _ => rfl
  | hexLen => cases q with
    | hexLen => exact absurd (hb.trans ha.symm) hne
    | _ => rfl
  | length k => cases q with
    | length i =>
      have hik : i ≠ k := by rintro rfl; exact hne (hb.1.trans ha.1.symm)
      exact (byteAt_setByteAt _ _ _ _ (by have := ha.2; omega)).trans (if_neg hik)
    | _ => rfl
  | state j => cases q with
    | state i =>
      have hij : i ≠ j := by rintro rfl; exact hne (hb.1.trans ha.1.symm)
      exact (digestByte_setDigestByte _ _ _ _ ha.2 hb.2).trans (if_neg hij)
    | hexOut k => exact absurd rfl (hv j k rfl)
    | _ => rfl
  | hexIn k | blk k => exact regionByte_memWrite s hb (ha.1 ▸ hne) v
  | cmd | status | padBlks | hexOut k | padBuf k | reserved => cases hw

/-- A write to a writable entry touches neither STATUS nor the pending command. -/
theorem writeRegion_writable_control (s : State) {r : Region} (hw : r.writable = true) (v : Byte) :
    (s.writeRegion r v).status = s.status ∧ (s.writeRegion r v).pend = s.pend := by
  cases r with
  | cmd | status => cases hw
  | _ => exact ⟨rfl, rfl⟩

/-- Settles O23: the core stays idle, so both reads go through the map, at entries that differ when the addresses do. -/
theorem writableBytesReadBack : Obligations.WritableBytesReadBack := by
  unfold Obligations.WritableBytesReadBack
  intro s a v hb hm ha
  have hw := (regionOf_writable_iff a).2 ha
  have hwrite : s.busWrite a v = s.writeRegion (regionOf a) v := busWrite_idle hb a v
  obtain ⟨hst, hp⟩ := writeRegion_writable_control s hw v
  have hidle : (s.writeRegion (regionOf a) v).status.busy = false := by rw [hst, hb]
  rw [hwrite]
  refine ⟨?_, hst, hp, fun b hne hview => ?_⟩
  · rw [readByte_idle hidle]
    exact regionByte_writeRegion_same hm hw (regionOf_isAt a) v
  · rw [readByte_idle hidle, readByte_idle hb]
    refine regionByte_writeRegion_other s hw (regionOf_isAt a) (regionOf_isAt b) (mt BitVec.eq_of_toNat_eq hne) ?_ v
    intro j k hj hk
    have hbk := regionOf_isAt b
    rw [hk] at hbk
    obtain ⟨hbk, hk32⟩ := hbk
    rw [hexOutBase] at hbk
    exact hview ⟨regionOf_state_bounds hj, by omega⟩

end Sys2Proof.Machine
end

section
/-! The host's turn, operation by operation (20_memory.md R60, 30_encoding.md R85, R86). -/

namespace Sys2Proof.Machine

theorem takeTurn_host (s : State) : s.takeTurn .host = .next s.hostTurn := rfl

theorem hostTurn_wr {s : State} {a : Addr} {v : Byte} {p : List HostOp} (h : s.host.prog = .wr a v :: p) :
    s.hostTurn = (s.busWrite a v).withProg p := by simp only [State.hostTurn, h]

theorem hostTurn_rd {s : State} {a : Addr} {p : List HostOp} (h : s.host.prog = .rd a :: p) :
    s.hostTurn = s.hostRead a p := by simp only [State.hostTurn, h]

theorem hostTurn_wait {s : State} {p : List HostOp} (h : s.host.prog = .wait :: p) : s.hostTurn = s.hostWait p := by
  simp only [State.hostTurn, h]

theorem hostTurn_waitOk {s : State} {p : List HostOp} (h : s.host.prog = .waitOk :: p) :
    s.hostTurn = s.hostWaitOk p := by simp only [State.hostTurn, h]

theorem hostTurn_rdPad {s : State} {p : List HostOp} (h : s.host.prog = .rdPad :: p) :
    s.hostTurn = s.hostRead addrPadBlks (readRun padBufBase (64 * (s.readByte addrPadBlks).toNat) ++ p) := by
  simp only [State.hostTurn, h]

/-- A bus write leaves the host agent alone, so putting the rest of its program there is an update of the host before. -/
theorem busWrite_withProg (s : State) (a : Addr) (v : Byte) (p : List HostOp) :
    (s.busWrite a v).withProg p = { s.busWrite a v with host := { s.host with prog := p } } := by
  rw [State.withProg, (busWrite_frame s a v).1]

/-- The same for a read. -/
theorem hostRead_eq (s : State) (a : Addr) (p : List HostOp) :
    s.hostRead a p =
      { s.afterRead a with host := { s.host with prog := p, got := s.host.got ++ [s.readByte a] } } := by
  simp only [State.hostRead, afterRead_host]

/-- A poll of a WAIT whose program begins at it, whether BUSY is 1 or 0 (R86). -/
theorem hostWait_eq {s : State} {p : List HostOp} (h : s.host.prog = .wait :: p) :
    s.hostWait p = { s with
      host := { s.host with prog := if s.status.busy then .wait :: p else p, polled := s.status.toByte } } := by
  cases hb : s.status.busy
  · exact hostWait_idle hb p
  · rw [hostWait_busy hb, if_pos rfl, ← h]; rfl

/-- A poll of a WAITOK: BUSY, done, or stopped (R86). -/
theorem hostWaitOk_eq (s : State) (p : List HostOp) :
    s.hostWaitOk p = { s with
      host := if s.status.busy then { s.host with polled := s.status.toByte }
        else if s.status.err = 0 then { s.host with prog := p, polled := s.status.toByte }
        else { s.host with prog := [], polled := s.status.toByte, stopped := some s.status.err } } := by
  cases hb : s.status.busy
  · by_cases he : s.status.err = 0
    · rw [hostWaitOk_ok hb he, if_neg Bool.false_ne_true, if_pos he]; rfl
    · rw [hostWaitOk_error hb he, if_neg Bool.false_ne_true, if_neg he]; rfl
  · exact hostWaitOk_busy hb p

/-- Settles O7, operation by operation. -/
theorem hostTurnTakesItsNextOperation : Obligations.HostTurnTakesItsNextOperation := by
  unfold Obligations.HostTurnTakesItsNextOperation
  intro s p
  simp only [takeTurn_host]
  refine ⟨fun a v h => ?_, fun a h => ?_, fun h => ?_, fun h => ?_, fun h => ?_⟩
  · rw [hostTurn_wr h, busWrite_withProg]
  · rw [hostTurn_rd h, hostRead_eq]
  · rw [hostTurn_wait h, hostWait_eq h]
  · rw [hostTurn_waitOk h, hostWaitOk_eq]
  · rw [hostTurn_rdPad h, hostRead_eq]
    rfl

end Sys2Proof.Machine
end

section
/-! The command encoding (30_encoding.md R80, R81, R83): `decodeByte` inverts `encodeByte` and accepts nothing else; O2 and
O3 from it. -/

namespace Sys2Proof.Machine

@[simp] theorem decodeByte_encodeByte (i : Instr) : decodeByte (encodeByte i) = .ok i := by cases i <;> rfl

/-- What a byte decodes to, through the encoder: a command whose opcode it is, or nothing, as an illegal opcode (R81, R83). -/
theorem decodeByte_encoded_or_illegal (op : Byte) :
    (∃ i, encodeByte i = op) ∨ decodeByte op = .error (.illegalOpcode op) := by
  obtain ⟨h, -⟩ | ⟨h, -⟩ | ⟨h, -⟩ | ⟨h, -⟩ | ⟨h, -⟩ | ⟨h, -⟩ | ⟨-, e⟩ := decodeByte_cases op
  · exact .inl ⟨.nop, h.symm⟩
  · exact .inl ⟨.init, h.symm⟩
  · exact .inl ⟨.ldhex, h.symm⟩
  · exact .inl ⟨.compress, h.symm⟩
  · exact .inl ⟨.pad, h.symm⟩
  · exact .inl ⟨.final, h.symm⟩
  · exact .inr e

theorem decodeByte_illegal {op : Byte} (h : ∀ i, encodeByte i ≠ op) : decodeByte op = .error (.illegalOpcode op) :=
  (decodeByte_encoded_or_illegal op).resolve_left (fun ⟨i, hi⟩ => h i hi)

theorem encodeByte_of_decodeByte {op : Byte} {i : Instr} (h : decodeByte op = .ok i) : encodeByte i = op := by
  obtain ⟨j, rfl⟩ | e := decodeByte_encoded_or_illegal op
  · rw [decodeByte_encodeByte] at h
    cases h
    rfl
  · rw [e] at h
    cases h

theorem decode_cons (op : Byte) (rest : List Byte) :
    decode (op :: rest) = (decodeByte op).map (fun i => (i, rest)) := rfl

theorem decode_encode (i : Instr) (rest : List Byte) : decode (encode i ++ rest) = .ok (i, rest) := by
  rw [encode, List.singleton_append, decode_cons, decodeByte_encodeByte]
  rfl

/-- Settles O2: the decoder inverts the encoder, and a byte that is no command's opcode is illegal. -/
theorem decodeEncodeAgree : Obligations.DecodeEncodeAgree := by
  unfold Obligations.DecodeEncodeAgree
  exact ⟨fun i rest _ => decode_encode i rest, fun _ _ => encodeByte_of_decodeByte, fun _ => decodeByte_illegal, rfl⟩

/-- The number of a byte, laid out as a table word of 8 bits, decodes as the byte does. -/
theorem decodeTableWord_toNat (op : Byte) : decodeTableWord 8 op.toNat = (decodeByte op).toOption := by
  have hbyte : commandByte 8 op.toNat = op := by simp [commandByte, Nat.mod_eq_of_lt op.isLt]
  rw [decodeTableWord, hbyte, decode_cons]
  cases decodeByte op <;> rfl

theorem decodeTableWord_encodeByte (i : Instr) : decodeTableWord 8 (encodeByte i).toNat = some i := by
  rw [decodeTableWord_toNat, decodeByte_encodeByte]
  rfl

theorem decodeTableWord_illegal {op : Byte} (h : ∀ i, encodeByte i ≠ op) : decodeTableWord 8 op.toNat = none := by
  rw [decodeTableWord_toNat, decodeByte_illegal h]
  rfl

/-- Settles O3: each word is the number of its command's opcode, the last two of no command's. -/
theorem writtenOutWordsDecode : Obligations.WrittenOutWordsDecode := by
  unfold Obligations.WrittenOutWordsDecode
  exact ⟨decodeTableWord_encodeByte .nop, decodeTableWord_encodeByte .init, decodeTableWord_encodeByte .ldhex,
    decodeTableWord_encodeByte .compress, decodeTableWord_encodeByte .pad, decodeTableWord_encodeByte .final,
    decodeTableWord_illegal (op := 0b00000110) (fun i => by cases i <;> decide),
    decodeTableWord_illegal (op := 0b10000011) (fun i => by cases i <;> decide)⟩

end Sys2Proof.Machine
end

section
/-! The text of a bus transaction (30_encoding.md R87): a digit, an address and a byte read back, and O4 from them. -/

namespace Sys2Proof.Machine

theorem hexDigitValue_hexDigitChar : ∀ n : Nat, n < 16 → hexDigitValue (hexDigitChar n) = some n := by decide

/-- The three digits of an address read back as the address; the first is at most 1, the window being of 512 bytes. -/
theorem addrOfDigits_hexDigitChar (a : Addr) :
    addrOfDigits (hexDigitChar (a.toNat / 256)) (hexDigitChar (a.toNat / 16 % 16)) (hexDigitChar (a.toNat % 16)) =
      some a := by
  have hhigh : a.toNat / 256 < 2 := by omega
  have hsum : 256 * (a.toNat / 256) + 16 * (a.toNat / 16 % 16) + a.toNat % 16 = a.toNat := by omega
  simp only [addrOfDigits, hexDigitValue_hexDigitChar _ (show a.toNat / 256 < 16 by omega),
    hexDigitValue_hexDigitChar _ (Nat.mod_lt _ (Nat.succ_pos 15)), if_pos hhigh, hsum, BitVec.ofNat_toNat,
    BitVec.setWidth_eq]

theorem txnOfText_read (x y z : Char) : txnOfText ['R', ' ', x, y, z] = (addrOfDigits x y z).map .read := rfl

theorem txnOfText_write {x y z u v : Char} {a : Addr} {p q : Nat} (ha : addrOfDigits x y z = some a)
    (hp : hexDigitValue u = some p) (hq : hexDigitValue v = some q) :
    txnOfText ['W', ' ', x, y, z, ' ', u, v] = some (.write a (BitVec.ofNat 8 (16 * p + q))) := by
  simp only [txnOfText, ha, hp, hq]

/-- Settles O4: the digits of the address and of the byte read back. -/
theorem transactionTextReadsBack : Obligations.TransactionTextReadsBack := by
  unfold Obligations.TransactionTextReadsBack
  intro t
  cases t with
  | read a => rw [txnText, txnOfText_read, addrOfDigits_hexDigitChar]; rfl
  | write a v =>
    have hhigh : hexDigitValue (hexDigitChar (v.toNat / 16)) = some (v.toNat / 16) :=
      hexDigitValue_hexDigitChar _ (by omega)
    have hlow : hexDigitValue (hexDigitChar (v.toNat % 16)) = some (v.toNat % 16) :=
      hexDigitValue_hexDigitChar _ (by omega)
    rw [txnText, txnOfText_write (addrOfDigits_hexDigitChar a) hhigh hlow, Nat.div_add_mod, BitVec.ofNat_toNat,
      BitVec.setWidth_eq]

end Sys2Proof.Machine
end

section
/-! Issue, dispatch and completion (40_control.md R100 to R106): what a CMD write leaves, which completion a byte selects,
and the whole state after NOP, INIT and an illegal opcode. -/

namespace Sys2Proof.Machine

/-! ## Issue -/

/-- Settles O16: a CMD write is one more dropped write of a busy core, and an issue on an idle one. -/
theorem cmdWriteIssuesWhenIdle : Obligations.CmdWriteIssuesWhenIdle := by
  unfold Obligations.CmdWriteIssuesWhenIdle
  exact fun s v => ⟨fun hb => busWrite_busy hb (by decide) v, fun hb => busWrite_cmd hb v⟩

/-! ## Dispatch -/

/-- A byte that decodes completes as its command (R104). -/
theorem completion_of_decode {op : Byte} {i : Instr} (h : decodeByte op = .ok i) (s : State) :
    s.completion op = exec i s := by
  simp only [State.completion, h]

/-- A byte that does not decode raises IllegalCommand (R83, R104). -/
theorem completion_of_illegal {op : Byte} {r : DecodeReject} (h : decodeByte op = .error r) (s : State) :
    s.completion op = .next (s.complete codeIllegalCommand) := by
  simp only [State.completion, h, State.raiseError]

/-- The opcodes are the bytes below 0x06 (R81, R83). -/
theorem decodeByte_of_six_le {op : Byte} (h : 6 ≤ op.toNat) : decodeByte op = .error (.illegalOpcode op) := by
  refine decodeByte_illegal fun i hi => ?_
  rw [← hi] at h
  cases i <;> exact absurd h (by decide)

/-- Settles O1: each opcode by its own command, and the bytes from 0x06 on by the decoder's rejection. -/
theorem dispatchByWholeByte : Obligations.DispatchByWholeByte := by
  unfold Obligations.DispatchByWholeByte
  intro s
  have command (i : Instr) : s.completion (encodeByte i) = exec i s := completion_of_decode (decodeByte_encodeByte i) s
  refine ⟨command .nop, command .init, command .ldhex, command .compress, command .pad, command .final, fun op h => ?_⟩
  rw [completion_of_illegal (decodeByte_of_six_le h), complete_eq]
  rfl

/-! ## Completion -/

theorem exec_nop (s : State) : exec .nop s = .next (s.complete codeOk) := rfl

theorem exec_init (s : State) : exec .init s = .next ((s.withH initialState).complete codeOk) := rfl

/-- Settles O8: NOP is a bare completion with code 0. -/
theorem nopOnlyUpdatesStatus : Obligations.NopOnlyUpdatesStatus := by
  unfold Obligations.NopOnlyUpdatesStatus
  intro s
  rw [exec_nop, complete_eq]
  rfl

/-- Settles O9: INIT is a completion with code 0 of the state with `H = IV`. -/
theorem initLoadsInitialValue : Obligations.InitLoadsInitialValue := by
  unfold Obligations.InitLoadsInitialValue
  intro s
  rw [exec_init, complete_eq, withH_eq]
  rfl

/-- Settles O10: a command is the completion of its opcode, and that updates STATUS as R102 says. -/
theorem everyCommandCompletes : Obligations.EveryCommandCompletes := by
  unfold Obligations.EveryCommandCompletes
  intro i s
  obtain ⟨t, ht, hst, hpend, hphase⟩ := completion_status s (encodeByte i)
  refine ⟨t, (exec_eq_completion i s).trans ht, ?_, ?_, ?_, hpend, hphase⟩ <;> rw [hst]
  · exact status_complete_busy _ _
  · exact status_complete_done _ _
  · exact status_complete_bv _ _

end Sys2Proof.Machine
end

section
/-! Whose turn it is and what becomes of a pending command (40_control.md R102, R103; log 1): the core's turns of O5 and
O6, and the end of every pending command, by induction on the schedule. -/

namespace Sys2Proof.Machine

/-! ## One step, by the head of the schedule -/

theorem step_of_cons {s : State} {x : Turn} {ts : List Turn} (h : s.sched = x :: ts) :
    step s = ({ s with sched := ts } : State).takeTurn x := by
  rw [step_eq, nextTurn_of_cons h]

/-- A scheduled core turn completes the pending command. -/
theorem step_of_core_cons {s : State} {op : Byte} {ts : List Turn} (h : s.sched = .core :: ts) (hp : s.pend = some op) :
    step s = ({ s with sched := ts } : State).completion op :=
  (step_of_cons h).trans (coreTurn_some (s := { s with sched := ts }) hp)

theorem hostTurn_of_nil {s : State} (h : s.host.prog = []) : s.hostTurn = s := by simp only [State.hostTurn, h]

/-- Settles O5: the schedule gives the core the turn, or its end does, and the pending byte completes as its command. -/
theorem stepRunsPendingCommand : Obligations.StepRunsPendingCommand := by
  unfold Obligations.StepRunsPendingCommand
  intro s op i hp hd
  refine ⟨fun h => ?_, fun ts h => ?_⟩
  · rw [core_step h hp, completion_of_decode hd]
  · rw [step_of_core_cons h hp, completion_of_decode hd]

/-- Settles O6: an idle core waits on its own turn, and an idle host on its. -/
theorem idleCoreKeepsEverything : Obligations.IdleCoreKeepsEverything := by
  unfold Obligations.IdleCoreKeepsEverything
  refine fun s hp => ⟨coreTurn_none hp, fun hs hprog => ?_⟩
  rw [host_step hs hp, hostTurn_of_nil hprog]

/-! ## The end of a pending command -/

/-- No turn of the host ends a command or touches the schedule: a bus write leaves what is pending or, by a CMD write,
puts another command there. -/
theorem hostTurn_keeps_pending {s : State} (h : s.pend.isSome) :
    s.hostTurn.pend.isSome ∧ s.hostTurn.sched = s.sched := by
  rcases hostTurn_cases s with ⟨a, v, p, _, e⟩ | ⟨g, n, e⟩
  · obtain ⟨_, hsched, _⟩ := busWrite_frame s a v
    rw [e, withProg_pend, withProg_sched]
    refine ⟨?_, hsched⟩
    rcases busWrite_control_cases s a v with
      ⟨_, _, hp, _⟩ | ⟨_, _, _, hp, _⟩ | ⟨_, _, _, hp, _⟩ | ⟨_, hp, _⟩ <;> rw [hp]
    · exact h
    · exact h
    · rfl
    · exact h
  · rw [e]; exact ⟨h, rfl⟩

theorem steps_one {s t : State} (h : step s = .next t) : steps 1 s = .next t := by simp only [steps, h]

theorem steps_succ_of_next {s t : State} (h : step s = .next t) (k : Nat) : steps (k + 1) s = steps k t := by
  simp only [steps, h]

/-- A scheduled core turn or reset ends the command, a host turn leaves one pending with a turn less scheduled, and once the
schedule is used up the core moves. -/
theorem pending_ends_on_schedule (ts : List Turn) : ∀ s : State, s.sched = ts → s.pend.isSome →
    ∃ k t, k ≤ ts.length + 1 ∧ steps k s = .next t ∧ t.pend = none := by
  induction ts with
  | nil =>
    intro s hs hp
    obtain ⟨op, hop⟩ := Option.isSome_iff_exists.1 hp
    obtain ⟨t, ht, _, hend, _⟩ := completion_status s op
    exact ⟨1, t, by simp, steps_one ((core_step hs hop).trans ht), hend⟩
  | cons x ts ih =>
    intro s hs hp
    cases x with
    | core =>
      obtain ⟨op, hop⟩ := Option.isSome_iff_exists.1 hp
      obtain ⟨t, ht, _, hend, _⟩ := completion_status { s with sched := ts } op
      exact ⟨1, t, by simp, steps_one ((step_of_core_cons hs hop).trans ht), hend⟩
    | reset => exact ⟨1, _, by simp, steps_one (step_of_cons hs), rfl⟩
    | host =>
      obtain ⟨hpend, hsched⟩ := hostTurn_keeps_pending (s := { s with sched := ts }) hp
      obtain ⟨k, t, hk, ht, hend⟩ := ih _ hsched hpend
      refine ⟨k + 1, t, ?_, (steps_succ_of_next (step_of_cons hs) k).trans ht, hend⟩
      rw [List.length_cons]
      omega

/-- Settles O52, by induction on the schedule. -/
theorem pendingCommandEnds : Obligations.PendingCommandEnds := by
  unfold Obligations.PendingCommandEnds
  exact fun s op hp => pending_ends_on_schedule s.sched s rfl (by rw [hp]; rfl)

end Sys2Proof.Machine
end

section
/-! The reference sequencer against the command's completion (40_control.md R108): for each command the ticks that bring it
from DECODE to DONE, then the last tick, which is the completion; O55 from them. -/

namespace Sys2Proof.Machine

/-! ## The phases before the first block -/

theorem seqTick_decode {s : State} {op : Byte} (hp : s.pend = some op) (h : s.phase = .decode) :
    s.seqTick = s.goto (State.afterDecode op) := by
  rw [seqTick_some hp]; simp only [State.tickOf, h]

theorem seqTick_check {s : State} {op : Byte} (hp : s.pend = some op) (h : s.phase = .check) :
    s.seqTick = s.goto (s.afterCheck op) := by
  rw [seqTick_some hp]; simp only [State.tickOf, h]

theorem seqTick_padgen {s : State} {op : Byte} (hp : s.pend = some op) (h : s.phase = .padgen) :
    s.seqTick = s.tickPadgen op := by
  rw [seqTick_some hp]; simp only [State.tickOf, h]

theorem seqTick_done {s : State} {op : Byte} (hp : s.pend = some op) (h : s.phase = .done) :
    s.seqTick = s.tickDone op := by
  rw [seqTick_some hp]; simp only [State.tickOf, h]

/-- DONE without a write of `H` (R102). -/
theorem tickDone_eq_complete {op : Byte} (hi : decodeByte op ≠ .ok .init) (hl : decodeByte op ≠ .ok .ldhex) (u : State) :
    u.tickDone op = u.complete (u.outcomeCode op) := by
  unfold State.tickDone
  split
  · exact absurd ‹_› hi
  · exact absurd ‹_› hl
  all_goals rfl

/-- DECODE and CHECK write nothing, so CHECK decides on the operands of the start. -/
theorem seqTicks_two_of_check {s : State} {op : Byte} (hp : s.pend = some op) (h : s.phase = .decode)
    (hd : State.afterDecode op = .check) : s.seqTicks 2 = s.goto (s.afterCheck op) := by
  rw [seqTicks_succ, seqTicks_one, seqTick_decode hp h, hd, seqTick_check (s := s.goto .check) hp rfl, goto_goto]
  rfl

/-- PADGEN after passing checks: the padding generator's writes, `j <- 0`, and for FINAL the first block if there is one. -/
theorem seqTicks_three_of_padgen {s : State} {op : Byte} (hp : s.pend = some op) (h : s.phase = .decode)
    (hd : State.afterDecode op = .check) (hc : s.afterCheck op = .padgen) :
    s.seqTicks 3 = (s.padGen.withWork { s.work with j := 0 }).goto
      (if decodeByte op = .ok .final ∧ 0 < s.padGen.padBlks.toNat then .load else .done) := by
  rw [seqTicks_succ, seqTicks_two_of_check hp h hd, hc, seqTick_padgen (s := s.goto .padgen) hp rfl]
  rfl

/-! ## FINAL's blocks -/

/-- The sequencer about to load block `n` of FINAL, when it began the first in `u`. -/
def State.atPadBlock (u : State) (n : Nat) : State :=
  ((u.compressPadBlocks n).withWork { (u.compressPadBlocks n).work with j := BitVec.ofNat 1 n }).goto .load

theorem atPadBlock_zero {u : State} (hph : u.phase = .load) (hj : u.work.j = 0) : u.atPadBlock 0 = u := by
  obtain ⟨h, tailLen, hexLen, padBlks, length, mem, status, pend, phase, ⟨v, i, j, w⟩, host, sched, draws⟩ := u
  cases hph
  cases hj
  rfl

/-- Blocks of PADBUF change neither the pending command nor PADBLKS. -/
theorem compressPadBlocks_control (u : State) (n : Nat) :
    (u.compressPadBlocks n).pend = u.pend ∧ (u.compressPadBlocks n).padBlks = u.padBlks := by
  rw [compressPadBlocks_frame]; exact ⟨rfl, rfl⟩

theorem compressPadBlocks_goto (u : State) (p : Phase) (n : Nat) :
    (u.goto p).compressPadBlocks n = (u.compressPadBlocks n).goto p := by
  induction n with
  | zero => rfl
  | succ n ih =>
    rw [compressPadBlocks_succ, compressPadBlocks_succ, ih, State.compressPadBlock, State.compressPadBlock, goto_h,
      goto_work, goto_padBlock, goto_withH, goto_withWork]

/-- The 66 ticks of block `n`: the next block, or DONE after the last (R108). -/
theorem seqTicks_atPadBlock {u : State} {op : Byte} (hp : u.pend = some op) (hd : decodeByte op = .ok .final)
    {n : Nat} (hn : n < 2) :
    (u.atPadBlock n).seqTicks 66 =
      if n + 1 < u.padBlks.toNat then u.atPadBlock (n + 1) else (u.compressPadBlocks (n + 1)).goto .done := by
  obtain ⟨hpend, hblks⟩ := compressPadBlocks_control u n
  have hj : (u.atPadBlock n).work.j.toNat = n := (BitVec.toNat_ofNat n 1).trans (Nat.mod_eq_of_lt hn)
  have hblock : (u.atPadBlock n).loadBlock op = (u.compressPadBlocks n).padBlock n := by
    rw [State.loadBlock, if_pos hd, hj]; rfl
  have hnext : (u.atPadBlock n).work.j + 1 = BitVec.ofNat 1 (n + 1) := (BitVec.ofNat_add n 1).symm
  have hleft : (decodeByte op = .ok .final ∧ (u.atPadBlock n).work.j.toNat + 1 < (u.atPadBlock n).padBlks.toNat) ↔
      n + 1 < u.padBlks.toNat := by
    rw [hj, ← hblks]; exact and_iff_right hd
  rw [seqTicks_block (s := u.atPadBlock n) (hpend.trans hp) rfl, if_congr hleft rfl rfl, hblock, hnext]
  simp only [State.atPadBlock, compressPadBlocks_succ, State.compressPadBlock, Work.afterBlock, goto_h, withWork_h]
  generalize compress (u.compressPadBlocks n).h _ = g
  generalize rounds _ (u.compressPadBlocks n).h 64 = R
  split <;> rfl

/-- The ticks of the blocks before block `n`. -/
theorem seqTicks_to_atPadBlock {u : State} {op : Byte} (hp : u.pend = some op) (hd : decodeByte op = .ok .final)
    (hph : u.phase = .load) (hj : u.work.j = 0) (hq : u.padBlks.toNat ≤ 2) {n : Nat} (hn : n < u.padBlks.toNat) :
    u.seqTicks (66 * n) = u.atPadBlock n := by
  induction n with
  | zero => exact (atPadBlock_zero hph hj).symm
  | succ n ih =>
    rw [Nat.mul_succ, seqTicks_add, ih (by omega), seqTicks_atPadBlock hp hd (by omega), if_pos hn]

/-- The ticks of all the blocks. -/
theorem seqTicks_padBlocks {u : State} {op : Byte} (hp : u.pend = some op) (hd : decodeByte op = .ok .final)
    (hph : u.phase = .load) (hj : u.work.j = 0) (hq : u.padBlks.toNat ≤ 2) (h0 : 0 < u.padBlks.toNat) :
    u.seqTicks (66 * u.padBlks.toNat) = (u.compressPadBlocks u.padBlks.toNat).goto .done := by
  obtain ⟨n, hn⟩ : ∃ n, u.padBlks.toNat = n + 1 := ⟨u.padBlks.toNat - 1, by omega⟩
  rw [hn, Nat.mul_succ, seqTicks_add, seqTicks_to_atPadBlock hp hd hph hj hq (by omega),
    seqTicks_atPadBlock hp hd (by omega), if_neg (by omega)]

/-! ## From DECODE to DONE, command by command -/

/-- The sequencer reaches DONE, with the command still pending, one tick before R296's count, and DONE's tick is the
completion. -/
structure SequencerReachesDone (s : State) (op : Byte) (n : Nat) (u : State) : Prop where
  ticks : s.referenceTicks op = n + 1
  reached : s.seqTicks n = u
  phase : u.phase = .done
  pend : u.pend = some op
  completes : s.completion op = .next (u.tickDone op)

/-- That is all R108 asks: STATUS waits for DONE. -/
theorem SequencerReachesDone.refines {s u : State} {op : Byte} {n : Nat} (h : SequencerReachesDone s op n u)
    (hp : s.pend = some op) :
    s.completion op = .next (s.seqTicks (s.referenceTicks op)) ∧
    ∀ m, m < s.referenceTicks op → (s.seqTicks m).status = s.status ∧ (s.seqTicks m).pend = some op := by
  obtain ⟨ticks, rfl, phase, pend, completes⟩ := h
  rw [ticks]
  refine ⟨?_, fun m hm => seqTicks_busy hp pend m (by omega)⟩
  rw [seqTicks_succ, seqTick_done pend phase, completes]

section
variable {s : State} {op : Byte} (hp : s.pend = some op) (hph : s.phase = .decode)
include hp hph

/-- The commands that go from DECODE to DONE at once. -/
theorem reaches_done_from_decode (ht : s.referenceTicks op = 2) (hd : State.afterDecode op = .done)
    (hc : s.completion op = .next ((s.goto .done).tickDone op)) : SequencerReachesDone s op 1 (s.goto .done) :=
  ⟨ht, by rw [seqTicks_one, seqTick_decode hp hph, hd], rfl, hp, hc⟩

/-- The commands that go from CHECK to DONE. -/
theorem reaches_done_from_check (ht : s.referenceTicks op = 3) (hd : State.afterDecode op = .check)
    (hk : s.afterCheck op = .done) (hc : s.completion op = .next ((s.goto .done).tickDone op)) :
    SequencerReachesDone s op 2 (s.goto .done) :=
  ⟨ht, by rw [seqTicks_two_of_check hp hph hd, hk], rfl, hp, hc⟩

theorem illegal_reaches_done {r : DecodeReject} (hd : decodeByte op = .error r) :
    SequencerReachesDone s op 1 (s.goto .done) := by
  refine reaches_done_from_decode hp hph (by simp only [State.referenceTicks, hd])
    (by simp only [State.afterDecode, hd]) ?_
  rw [completion_of_illegal hd]
  simp only [State.tickDone, State.outcomeCode, hd, goto_complete]

theorem nop_reaches_done (hd : decodeByte op = .ok .nop) : SequencerReachesDone s op 1 (s.goto .done) := by
  refine reaches_done_from_decode hp hph (by simp only [State.referenceTicks, hd])
    (by simp only [State.afterDecode, hd]) ?_
  rw [completion_of_decode hd, exec_nop]
  simp only [State.tickDone, State.outcomeCode, hd, goto_complete]

theorem init_reaches_done (hd : decodeByte op = .ok .init) : SequencerReachesDone s op 1 (s.goto .done) := by
  refine reaches_done_from_decode hp hph (by simp only [State.referenceTicks, hd])
    (by simp only [State.afterDecode, hd]) ?_
  rw [completion_of_decode hd, exec_init]
  simp only [State.tickDone, hd, goto_withH, goto_complete]

/-- LDHEX, well formed or not: HEXIN and HEXLEN are still there in DONE. -/
theorem ldhex_reaches_done (hd : decodeByte op = .ok .ldhex) : SequencerReachesDone s op 2 (s.goto .done) := by
  refine reaches_done_from_check hp hph (by simp only [State.referenceTicks, hd])
    (by simp only [State.afterDecode, hd]) (by simp [State.afterCheck, hd]) ?_
  have hdig : (s.goto .done).hexDigest = s.hexDigest := rfl
  rw [completion_of_decode hd]
  simp only [State.tickDone, State.outcomeCode, hd, hdig]
  cases h : s.hexDigest with
  | none => exact execLdhex_none h
  | some g => exact execLdhex_some h

/-- COMPRESS: LOAD's block is BLK, and it is the only one. (`pend` goes by the field lemmas: by `rfl` the kernel would
compare the two chaining states and unroll the 64 steps.) -/
theorem compress_reaches_done (hd : decodeByte op = .ok .compress) :
    SequencerReachesDone s op 67
      (((s.withH (compress s.h s.blk)).withWork (s.work.afterBlock s.h s.blk)).goto .done) where
  ticks := by simp only [State.referenceTicks, hd]
  reached := by
    have hblock : (s.goto .load).loadBlock op = s.blk := by simp [State.loadBlock, hd]
    rw [show 67 = 1 + 66 from rfl, seqTicks_add, seqTicks_one, seqTick_decode hp hph]
    simp only [State.afterDecode, hd]
    rw [seqTicks_block (s := s.goto .load) hp rfl, hblock, if_neg (by simp [hd]), goto_h, goto_work, goto_withH,
      goto_withWork, goto_goto]
  phase := rfl
  pend := by rw [goto_pend, withWork_pend, withH_pend, hp]
  completes := by
    rw [completion_of_decode hd, tickDone_eq_complete (by simp [hd]) (by simp [hd]), goto_complete]
    simp only [State.outcomeCode, hd]
    exact execCompress_eq s

/-- PAD and FINAL with a failing check go from CHECK to DONE. -/
theorem pad_final_reach_done_of_fail (hd : decodeByte op = .ok .pad ∨ decodeByte op = .ok .final)
    (hc : s.padChecksPass = false) : SequencerReachesDone s op 2 (s.goto .done) := by
  have hcode : s.outcomeCode op = codeInvalidBlockSize := by
    rcases hd with hd | hd <;> simp only [State.outcomeCode, hd, hc] <;> rfl
  have hpass : (s.goto .done).padChecksPass = false := hc
  refine reaches_done_from_check hp hph ?_ ?_ (by rw [State.afterCheck, hcode, if_pos (by decide)]) ?_
  · rcases hd with hd | hd <;> simp only [State.referenceTicks, hd, hc] <;> rfl
  · rcases hd with hd | hd <;> simp only [State.afterDecode, hd]
  · rcases hd with hd | hd <;>
      simp only [completion_of_decode hd, State.tickDone, State.outcomeCode, hd, hpass, goto_complete]
    · exact execPad_fail hc
    · exact execFinal_fail hc

/-- PAD and FINAL with passing checks: PADGEN follows. -/
theorem seqTicks_three_of_pass (hd : decodeByte op = .ok .pad ∨ decodeByte op = .ok .final)
    (hc : s.padChecksPass = true) :
    s.seqTicks 3 = (s.padGen.withWork { s.work with j := 0 }).goto
      (if decodeByte op = .ok .final ∧ 0 < s.padGen.padBlks.toNat then .load else .done) := by
  have hcode : s.outcomeCode op = codeOk := by
    rcases hd with hd | hd <;> simp only [State.outcomeCode, hd, hc] <;> rfl
  refine seqTicks_three_of_padgen hp hph ?_ ?_
  · rcases hd with hd | hd <;> simp only [State.afterDecode, hd]
  · rw [State.afterCheck, hcode, if_neg (by simp), if_pos hd]

theorem pad_reaches_done_of_pass (hd : decodeByte op = .ok .pad) (hc : s.padChecksPass = true) :
    SequencerReachesDone s op 3 ((s.padGen.withWork { s.work with j := 0 }).goto .done) where
  ticks := by simp only [State.referenceTicks, hd, hc, if_true]
  reached := by rw [seqTicks_three_of_pass hp hph (.inl hd) hc, if_neg (by simp [hd])]
  phase := rfl
  pend := hp
  completes := by
    have hpass : ((s.padGen.withWork { s.work with j := 0 }).goto .done).padChecksPass = true := hc
    rw [completion_of_decode hd]
    simp only [State.tickDone, State.outcomeCode, hd, hpass, goto_complete]
    exact execPad_pass hc

/-- FINAL with passing checks: PADGEN, then 66 ticks for each block of the padded tail, of which there may be none. -/
theorem final_reaches_done_of_pass (hd : decodeByte op = .ok .final) (hc : s.padChecksPass = true) :
    SequencerReachesDone s op (3 + 66 * (s.paddedTail.length / 64))
      (((s.padGen.withWork { s.work with j := 0 }).compressPadBlocks (s.paddedTail.length / 64)).goto .done) := by
  have ht : s.tailLen.toNat ≤ 63 := ((padChecksPass_iff s).1 hc).1
  have hq : s.padGen.padBlks.toNat = s.paddedTail.length / 64 := padGen_padBlks ht
  have hle : s.paddedTail.length / 64 ≤ 2 := paddedTail_blocks_le ht
  rw [← hq] at hle
  have hstart := seqTicks_three_of_pass hp hph (.inr hd) hc
  generalize hu : s.padGen.withWork { s.work with j := 0 } = u at hstart ⊢
  have hpend : u.pend = some op := by rw [← hu]; exact hp
  have hblks : u.padBlks = s.padGen.padBlks := by rw [← hu]; rfl
  rw [← hblks] at hstart hle hq
  rw [← hq]
  refine ⟨?_, ?_, rfl, (compressPadBlocks_control u _).1.trans hpend, ?_⟩
  · simp only [State.referenceTicks, hd, hc, if_true]
    rw [← hq]
    omega
  · rw [seqTicks_add, hstart]
    by_cases h0 : 0 < u.padBlks.toNat
    · rw [if_pos ⟨hd, h0⟩, ← goto_padBlks u .load,
        seqTicks_padBlocks (u := u.goto .load) hpend hd rfl (by rw [← hu]; rfl) hle h0, compressPadBlocks_goto, goto_goto]
    · rw [if_neg (fun h => h0 h.2), Nat.eq_zero_of_not_pos h0]
      rfl
  · have hpass : ((u.compressPadBlocks u.padBlks.toNat).goto .done).padChecksPass = true := by
      rw [compressPadBlocks_frame, ← hu]; exact hc
    rw [completion_of_decode hd, tickDone_eq_complete (by simp [hd]) (by simp [hd]), goto_complete]
    simp only [State.outcomeCode, hd, hpass, if_true]
    refine (execFinal_pass hc).trans ?_
    rw [hu, ← hq]

/-- Every byte reaches DONE. -/
theorem sequencer_reaches_done : ∃ n u, SequencerReachesDone s op n u := by
  cases hd : decodeByte op with
  | error r => exact ⟨_, _, illegal_reaches_done hp hph hd⟩
  | ok i =>
    cases i with
    | nop => exact ⟨_, _, nop_reaches_done hp hph hd⟩
    | init => exact ⟨_, _, init_reaches_done hp hph hd⟩
    | ldhex => exact ⟨_, _, ldhex_reaches_done hp hph hd⟩
    | compress => exact ⟨_, _, compress_reaches_done hp hph hd⟩
    | pad =>
      cases hc : s.padChecksPass with
      | false => exact ⟨_, _, pad_final_reach_done_of_fail hp hph (.inl hd) hc⟩
      | true => exact ⟨_, _, pad_reaches_done_of_pass hp hph hd hc⟩
    | final =>
      cases hc : s.padChecksPass with
      | false => exact ⟨_, _, pad_final_reach_done_of_fail hp hph (.inr hd) hc⟩
      | true => exact ⟨_, _, final_reaches_done_of_pass hp hph hd hc⟩

end

/-- Settles O55: every byte's ticks reach DONE, and DONE's tick is the completion. -/
theorem sequencerRefinesCompletion : Obligations.SequencerRefinesCompletion := by
  unfold Obligations.SequencerRefinesCompletion
  intro s op hp hph
  obtain ⟨n, u, h⟩ := sequencer_reaches_done hp hph
  exact h.refines hp

end Sys2Proof.Machine
end

section
/-! The digest bytes of a chaining state (41_codec.md R120): `digestBytes` is the list form of `digestByte`, and a state is
given by those sixteen bytes. O28 from it. -/

namespace Sys2Proof.Machine

theorem digestBytes_eq_map (h : Quad) : digestBytes h = (List.range 16).map (digestByte h) := rfl

@[simp] theorem digestBytes_length (h : Quad) : (digestBytes h).length = 16 := rfl

theorem digestBytes_getD (h : Quad) {j : Nat} (hj : j < 16) : (digestBytes h).getD j 0 = digestByte h j := by
  simp [digestBytes_eq_map, hj]

theorem quadGet_eq_getD (q : Quad) {w : Nat} (hw : w < 4) : quadGet q w = [q.a, q.b, q.c, q.d].getD w 0 := by
  interval_cases w <;> rfl

theorem digestBytes_eq_map_of_digestByte {h : Quad} {e : Nat → Byte} (he : ∀ j, j < 16 → digestByte h j = e j) :
    digestBytes h = (List.range 16).map e :=
  (digestBytes_eq_map h).trans (List.map_congr_left fun j hj => he j (List.mem_range.1 hj))

theorem digestBytes_injective {g h : Quad} (e : digestBytes g = digestBytes h) : g = h :=
  quad_ext_of_digest fun j hj => by rw [← digestBytes_getD g hj, e, digestBytes_getD h hj]

/-- A byte sequence by its index form, as the codec's functions take one. -/
theorem map_range_getD {n : Nat} {l : List Byte} (h : l.length = n) : (List.range n).map (fun j => l.getD j 0) = l := by
  subst h
  exact List.ext_getElem (by simp) fun j _ hj => by simp [hj]

/-- Settles O28: byte `j` of the list is digest byte `j`, and that is a byte of word `j / 4`. -/
theorem digestBytesOfTheState : Obligations.DigestBytesOfTheState := by
  unfold Obligations.DigestBytesOfTheState
  refine fun h => ⟨rfl, digestBytes_length h, fun j hj => ?_⟩
  rw [digestBytes_getD h hj, digestByte, quadGet_eq_getD h (by omega), byteAt]

end Sys2Proof.Machine
end

section
/-! The STATE window and HEXOUT, the two views of the chaining state (41_codec.md R121 to R123). -/

namespace Sys2Proof.Machine

/-! ## Reads -/

/-- The sixteen bytes a host reads at STATE (R121). -/
theorem readState_eq_digestBytes {s : State} (h : s.status.busy = false) :
    (List.range 16).map (fun j => s.readByte (addrAt stateBase j)) = digestBytes s.h :=
  List.map_congr_left fun _ hj => readByte_state h (List.mem_range.1 hj)

/-- The thirty-two characters a host reads at HEXOUT (R123). -/
theorem readHexOut_eq_hexOut {s : State} (h : s.status.busy = false) :
    (List.range 32).map (fun k => s.readByte (addrAt hexOutBase k)) = hexOut s.h :=
  List.map_congr_left fun _ hk => readByte_hexOut h (List.mem_range.1 hk)

theorem hexOutChar_even (h : Quad) (j : Nat) : hexOutChar h (2 * j) = hexChar ((digestByte h j).extractLsb' 4 4) := by
  rw [hexOutChar, if_pos (by omega), Nat.mul_div_cancel_left j (by omega)]

theorem hexOutChar_odd (h : Quad) (j : Nat) : hexOutChar h (2 * j + 1) = hexChar ((digestByte h j).extractLsb' 0 4) := by
  rw [hexOutChar, if_neg (by omega), show (2 * j + 1) / 2 = j by omega]

/-- Settles O29: the window reads the digest bytes, whose value on the rule's example is computed. -/
theorem stateWindowReadsTheDigest : Obligations.StateWindowReadsTheDigest := by
  unfold Obligations.StateWindowReadsTheDigest
  refine fun s hb => ⟨fun j hj => ?_, fun hh => ?_⟩
  · exact (readByte_state hb hj).trans (digestBytes_getD s.h hj).symm
  · refine (readState_eq_digestBytes hb).trans ?_
    rw [hh]
    decide

theorem busWrite_hexOut {s : State} (h : s.status.busy = false) {k : Nat} (hk : k < 32) (v : Byte) :
    s.busWrite (addrAt hexOutBase k) v = s := by
  rw [busWrite_idle h, addrAt_toNat (by simp only [hexOutBase]; omega), hexOutBase, regionAt_hexOut k hk]
  rfl

/-- Settles O31: an even character is the high nibble's and an odd one the low nibble's; HEXOUT is no writable entry. -/
theorem hexOutReadsLowercaseDigest : Obligations.HexOutReadsLowercaseDigest := by
  unfold Obligations.HexOutReadsLowercaseDigest
  refine fun s hb => ⟨fun j hj => ⟨?_, ?_⟩, fun k v hk => busWrite_hexOut hb hk v, fun hh => ?_⟩
  · rw [digestBytes_getD s.h hj, ← hexOutChar_even]
    exact readByte_hexOut hb (by omega)
  · rw [digestBytes_getD s.h hj, ← hexOutChar_odd]
    exact readByte_hexOut hb (by omega)
  · refine (readHexOut_eq_hexOut hb).trans ?_
    rw [hh]
    decide

/-! ## Writes -/

/-- The word that holds digest byte `j` once that byte is set (R122). -/
theorem quadGet_setDigestByte (h : Quad) {j : Nat} (hj : j < 16) (v : Byte) :
    quadGet (setDigestByte h j v) (j / 4) = setByteAt (quadGet h (j / 4)) (j % 4) v := by
  rw [setDigestByte, quadGet_quadSet _ _ _ _ (by omega) (by omega), if_pos rfl]

/-- Writing the first `n` bytes of STATE in order sets those digest bytes and nothing beside `H`. -/
theorem foldl_busWrite_state {s : State} (hb : s.status.busy = false) (d : Nat → Byte) {n : Nat} (hn : n ≤ 16) :
    ∃ g, (List.range n).foldl (fun u j => u.busWrite (addrAt stateBase j) (d j)) s = s.withH g ∧
      ∀ j, j < n → digestByte g j = d j := by
  induction n with
  | zero => exact ⟨s.h, rfl, fun _ hj => absurd hj (by omega)⟩
  | succ n ih =>
    obtain ⟨g, hfold, hg⟩ := ih (by omega)
    refine ⟨setDigestByte g n (d n), ?_, fun j hj => ?_⟩
    · rw [List.range_succ, List.foldl_append, hfold, List.foldl_cons, List.foldl_nil,
        busWrite_state (s := s.withH g) hb (by omega)]
      rfl
    · rw [digestByte_setDigestByte _ _ _ _ (by omega) (by omega)]
      split
      · next hjn => rw [hjn]
      · next hjn => exact hg j (by omega)

/-- Settles O30: one write sets one digest byte, and all sixteen, by induction on their number, every digest byte. -/
theorem stateWindowWritesOneDigestByte : Obligations.StateWindowWritesOneDigestByte := by
  unfold Obligations.StateWindowWritesOneDigestByte
  refine fun s hb => ⟨fun j v hj => ⟨setDigestByte s.h j v, busWrite_state hb hj v,
    quadGet_setDigestByte s.h hj v, ?_, fun k hk hkj => ?_⟩, fun d => ?_⟩
  · rw [digestBytes_getD _ hj, digestByte_setDigestByte _ _ _ _ hj hj, if_pos rfl]
  · rw [digestBytes_getD _ hk, digestBytes_getD _ hk, digestByte_setDigestByte _ _ _ _ hj hk, if_neg hkj]
  · obtain ⟨g, hfold, hg⟩ := foldl_busWrite_state hb d (Nat.le_refl 16)
    exact ⟨g, digestBytes_eq_map_of_digestByte hg, hfold⟩

end Sys2Proof.Machine
end

section
/-! The hexadecimal form (00_scope.md R13, 41_codec.md R124, R125): decoding two characters and encoding the byte again
gives the characters in lowercase, and encoding a digest and decoding it gives the digest. Both digest forms are then
bijections. -/

namespace Sys2Proof.Machine

/-! ## Characters and nibbles -/

theorem hexVal_lt : ∀ c : Byte, isHex c = true → (hexVal c).toNat < 16 := by decide +kernel

/-- The character of a hex digit's value is the digit in lowercase (R13, D14). -/
theorem hexChar_hexVal : ∀ c : Byte, isHex c = true → hexChar ((hexVal c).extractLsb' 0 4) = lowerHex c := by
  decide +kernel

theorem isHex_of_lowercase : ∀ c : Byte, (0x30 ≤ c ∧ c ≤ 0x39) ∨ (0x61 ≤ c ∧ c ≤ 0x66) →
    isHex c = true ∧ lowerHex c = c := by decide +kernel

section
variable {c : Nat → Byte} {j : Nat} (hh : isHex (c (2 * j)) = true) (hl : isHex (c (2 * j + 1)) = true)
include hh hl

/-- The two digits of a byte fill its two nibbles: their values do not overlap (R125). -/
theorem byteOfHex_toNat : (byteOfHex c j).toNat = 16 * (hexVal (c (2 * j))).toNat + (hexVal (c (2 * j + 1))).toNat := by
  have hx := hexVal_lt _ hh
  have hy := hexVal_lt _ hl
  rw [byteOfHex, BitVec.toNat_or, BitVec.toNat_shiftLeft, Nat.mod_eq_of_lt (by rw [Nat.shiftLeft_eq]; omega),
    ← Nat.shiftLeft_add_eq_or_of_lt hy, Nat.shiftLeft_eq]
  omega

theorem byteOfHex_high_nibble : (byteOfHex c j).extractLsb' 4 4 = (hexVal (c (2 * j))).extractLsb' 0 4 := by
  have hy := hexVal_lt _ hl
  apply BitVec.eq_of_toNat_eq
  simp only [BitVec.extractLsb'_toNat, byteOfHex_toNat hh hl, Nat.shiftRight_eq_div_pow]
  omega

theorem byteOfHex_low_nibble : (byteOfHex c j).extractLsb' 0 4 = (hexVal (c (2 * j + 1))).extractLsb' 0 4 := by
  apply BitVec.eq_of_toNat_eq
  simp only [BitVec.extractLsb'_toNat, byteOfHex_toNat hh hl, Nat.shiftRight_eq_div_pow]
  omega

end

/-! ## Whole digests -/

/-- Encoding what 32 hex digits decode to gives them in lowercase (R124, R126). -/
theorem hexOutChar_quadOfBytes_byteOfHex {c : Nat → Byte} (hc : ∀ k, k < 32 → isHex (c k) = true) {k : Nat}
    (hk : k < 32) : hexOutChar (quadOfBytes (byteOfHex c)) k = lowerHex (c k) := by
  obtain ⟨j, rfl | rfl⟩ := k.even_or_odd'
  all_goals
    have hh := hc (2 * j) (by omega)
    have hl := hc (2 * j + 1) (by omega)
  · rw [hexOutChar_even, digestByte_quadOfBytes _ _ (by omega), byteOfHex_high_nibble hh hl, hexChar_hexVal _ hh]
  · rw [hexOutChar_odd, digestByte_quadOfBytes _ _ (by omega), byteOfHex_low_nibble hh hl, hexChar_hexVal _ hl]

/-- Decoding the two characters of a digest byte gives the byte (R124). -/
theorem byteOfHex_hexOutChar (h : Quad) (j : Nat) : byteOfHex (hexOutChar h) j = digestByte h j := by
  obtain ⟨_, _, e⟩ := hexVal_hexChars (digestByte h j)
  rw [byteOfHex, hexOutChar_even, hexOutChar_odd, e]

theorem hexOut_injective {g h : Quad} (e : hexOut g = hexOut h) : g = h := by
  have hchar : ∀ k, k < 32 → hexOutChar g k = hexOutChar h k := fun k hk =>
    List.map_inj_left.1 e k (List.mem_range.2 hk)
  refine quad_ext_of_digest fun j hj => ?_
  rw [← byteOfHex_hexOutChar g, ← byteOfHex_hexOutChar h, byteOfHex, byteOfHex, hchar _ (by omega), hchar _ (by omega)]

theorem hexOut_surjective {d : List Byte} (hd : d.length = 32)
    (hc : ∀ c ∈ d, (0x30 ≤ c ∧ c ≤ 0x39) ∨ (0x61 ≤ c ∧ c ≤ 0x66)) : ∃ h, hexOut h = d := by
  have hlow : ∀ k, k < 32 → isHex (d.getD k 0) = true ∧ lowerHex (d.getD k 0) = d.getD k 0 := fun k hk =>
    isHex_of_lowercase _ (hc _ (by rw [List.getD_eq_getElem _ _ (by omega)]; exact List.getElem_mem _))
  refine ⟨quadOfBytes (byteOfHex fun k => d.getD k 0), Eq.trans (List.map_congr_left fun k hk => ?_) (map_range_getD hd)⟩
  have hk := List.mem_range.1 hk
  exact (hexOutChar_quadOfBytes_byteOfHex (fun i hi => (hlow i hi).1) hk).trans (hlow k hk).2

/-- Settles O32: `quadOfBytes` gives a state with any sixteen digest bytes, and the hexadecimal form goes through it. -/
theorem digestFormsAreBijections : Obligations.DigestFormsAreBijections := by
  unfold Obligations.DigestFormsAreBijections
  refine ⟨fun _ _ => digestBytes_injective, fun e he => ⟨quadOfBytes fun j => e.getD j 0, ?_⟩,
    fun _ _ => hexOut_injective, fun _ => hexOut_surjective⟩
  exact (digestBytes_eq_map_of_digestByte (digestByte_quadOfBytes _)).trans (map_range_getD he)

end Sys2Proof.Machine
end

section
/-! LDHEX (41_codec.md R125, R126): what it decodes from HEXLEN and HEXIN, and what it then leaves. -/

namespace Sys2Proof.Machine

theorem allHex_iff (c : Nat → Byte) : allHex c = true ↔ ∀ k, k < 32 → isHex (c k) = true := by simp [allHex]

theorem stateFromDigest_of_hex {c : Nat → Byte} (hc : ∀ k, k < 32 → isHex (c k) = true) :
    stateFromDigest 32 c = some (quadOfBytes (byteOfHex c)) := if_pos ⟨rfl, (allHex_iff c).2 hc⟩

theorem stateFromDigest_of_malformed {n : Nat} {c : Nat → Byte} (h : n ≠ 32 ∨ ∃ k, k < 32 ∧ isHex (c k) = false) :
    stateFromDigest n c = none := by
  rcases h with hn | ⟨k, hk, hck⟩
  · exact stateFromDigest_of_length c hn
  · refine if_neg fun ⟨_, hall⟩ => ?_
    rw [(allHex_iff c).1 hall k hk] at hck
    cases hck

theorem exec_ldhex_of_hex {s : State} (hlen : s.hexLen = 32) (hc : ∀ k, k < 32 → isHex (s.hexIn k) = true) :
    exec .ldhex s = .next ((s.withH (quadOfBytes (byteOfHex s.hexIn))).complete codeOk) := by
  refine execLdhex_some ?_
  rw [State.hexDigest, hlen]
  exact stateFromDigest_of_hex hc

theorem exec_ldhex_of_malformed {s : State} (h : s.hexLen ≠ 32 ∨ ∃ k, k < 32 ∧ isHex (s.hexIn k) = false) :
    exec .ldhex s = .next (s.complete codeInvalidDigestFormat) :=
  execLdhex_none (stateFromDigest_of_malformed (h.imp_left fun hn e => hn (BitVec.eq_of_toNat_eq e)))

/-- Settles O33: the decoded state's digest byte `j` is the byte of characters `2j` and `2j+1`. -/
theorem ldhexDecodesTheDigest : Obligations.LdhexDecodesTheDigest := by
  unfold Obligations.LdhexDecodesTheDigest
  refine fun s hlen hc => ⟨quadOfBytes (byteOfHex s.hexIn), exec_ldhex_of_hex hlen hc, fun j hj => ?_⟩
  rw [digestBytes_getD _ hj, digestByte_quadOfBytes _ j hj]
  exact byteOfHex_toNat (hc _ (by omega)) (hc _ (by omega))

/-- Settles O34: nothing is decoded, so LDHEX is a bare completion with code 1. -/
theorem ldhexRejectsMalformedDigest : Obligations.LdhexRejectsMalformedDigest := by
  unfold Obligations.LdhexRejectsMalformedDigest
  exact fun s h => exec_ldhex_of_malformed h

/-- Settles O35: the completed core is idle, so HEXOUT encodes what LDHEX decoded. -/
theorem ldhexThenHexOutReturnsTheDigest : Obligations.LdhexThenHexOutReturnsTheDigest := by
  unfold Obligations.LdhexThenHexOutReturnsTheDigest
  refine fun s hlen hc => ⟨_, exec_ldhex_of_hex hlen hc, fun k hk => ?_⟩
  refine (readByte_hexOut (s := (s.withH _).complete codeOk) rfl hk).trans ?_
  exact hexOutChar_quadOfBytes_byteOfHex hc hk

end Sys2Proof.Machine
end

section
/-! The padding of a sequence (42_padding.md R150 to R155): the bytes of what is appended, the length of the whole, and O40,
O41 and O42 from them. -/

namespace Sys2Proof.Machine

theorem exempt_eq_false_iff (n : Length) : exempt n = false ↔ ¬ (0 < n.toNat ∧ n.toNat % 512 = 0) := by
  rw [← exempt_iff, Bool.not_eq_true]

/-! ## What is appended -/

theorem paddingBytes_eq_cons (q : Nat) (n : Length) :
    paddingBytes q n = 0x80 :: (List.replicate (zeroFill q) 0x00 ++ le64 n) := rfl

theorem zeroFill_lt (q : Nat) : zeroFill q < 64 := Nat.mod_lt _ (by decide)

/-- The zeros lie between 0x80 and the length field. -/
theorem paddingBytes_getD_fill {q i : Nat} (n : Length) (d : Byte) (h0 : 0 < i) (hi : i ≤ zeroFill q) :
    (paddingBytes q n).getD i d = 0x00 := by
  obtain ⟨i, rfl⟩ := Nat.exists_eq_succ_of_ne_zero (Nat.ne_of_gt h0)
  rw [paddingBytes_eq_cons, List.getD_cons_succ, List.getD_append _ _ _ _ (by simpa using hi)]
  exact List.getD_replicate _ hi

/-- The length field is the last eight bytes. -/
theorem paddingBytes_drop (q : Nat) (n : Length) : (paddingBytes q n).drop (zeroFill q + 1) = le64 n := by
  rw [paddingBytes_eq_cons, List.drop_succ_cons, List.drop_left' (by simp)]

theorem paddingBytes_getD_length {i : Nat} (q : Nat) (n : Length) (hi : i < 8) :
    (paddingBytes q n).getD (zeroFill q + 1 + i) 0 = byteAt n i := by
  rw [← le64_getD n hi, ← paddingBytes_drop q n]
  simp [List.getD]

/-- Every byte of the padding, 0 past its end (R158). -/
theorem paddingBytes_getD (q : Nat) (n : Length) (i : Nat) : (paddingBytes q n).getD i 0 =
    if i = 0 then 0x80
    else if zeroFill q + 1 ≤ i ∧ i < zeroFill q + 9 then byteAt n (i - (zeroFill q + 1))
    else 0x00 := by
  split
  · next h => rw [h]; rfl
  · next h =>
    split
    · next hi =>
      rw [← paddingBytes_getD_length q n (by omega), Nat.add_sub_cancel' hi.1]
    · next hi =>
      rcases Nat.lt_or_ge (zeroFill q) i with hfill | hfill
      · exact List.getD_eq_default _ _ (by rw [paddingBytes_length]; omega)
      · exact paddingBytes_getD_fill n 0 (Nat.pos_of_ne_zero h) hfill

/-! ## The padded sequence -/

theorem forgePadding_length_of_not_exempt {n : Length} (h : exempt n = false) (x : List Byte) :
    (forgePadding x n).length = x.length + zeroFill (n.toNat / 8 % 64) + 9 := by
  rw [forgePadding_of_not_exempt h, List.length_append, paddingBytes_length, Nat.add_assoc]

/-- Whole blocks exactly for a consistent length: the padding of a tail of `q` bytes ends on a boundary (R152). -/
theorem forgePadding_wholeBlocks_iff (x : List Byte) {n : Length} (h8 : n.toNat % 8 = 0) :
    (forgePadding x n).length % 64 = 0 ↔ n.toNat / 8 % 64 = x.length % 64 := by
  cases h : exempt n with
  | true =>
    rw [forgePadding_of_exempt h]
    have := (exempt_iff n).1 h
    omega
  | false =>
    rw [forgePadding_length_of_not_exempt h, zeroFill]
    omega

/-- Settles O40: the layout is that of `paddingBytes` after the sequence, with `z` its zero fill. -/
theorem forgedPaddingIsWholeBlocks : Obligations.ForgedPaddingIsWholeBlocks := by
  unfold Obligations.ForgedPaddingIsWholeBlocks
  refine fun x n h8 => ⟨forgePadding_wholeBlocks_iff x h8, fun h => forgePadding_of_exempt ((exempt_iff n).2 h), ?_⟩
  intro h hq
  have he : exempt n = false := (exempt_eq_false_iff n).2 h
  have hlen := forgePadding_length_of_not_exempt he x
  rw [forgePadding_of_not_exempt he, hq] at hlen ⊢
  refine ⟨zeroFill (x.length % 64), zeroFill_lt _, by omega, ?_, List.take_left, ?_, ?_, ?_⟩
  · rw [zeroFill]; omega
  · rw [List.getD_append_right _ _ _ _ le_rfl, Nat.sub_self]; rfl
  · intro k hk hk'
    rw [List.getD_append_right _ _ _ _ (by omega)]
    exact paddingBytes_getD_fill n _ (by omega) (by omega)
  · rw [Nat.add_assoc, List.drop_append, List.drop_eq_nil_of_le (by omega), List.nil_append, ← paddingBytes_drop]
    congr 1
    omega

theorem exempt_bitLength_iff {m : List Byte} (h : m.length < 2 ^ 61) :
    exempt (BitVec.ofNat 64 (8 * m.length)) = true ↔ 0 < m.length ∧ m.length % 64 = 0 := by
  rw [exempt_iff, bitLength_toNat h]
  omega

/-- A message of whole blocks is its own padding (R153, R154). -/
theorem pad_of_wholeBlocks {m : List Byte} (h : m.length < 2 ^ 61) (hm : 0 < m.length ∧ m.length % 64 = 0) : pad m = m :=
  forgePadding_of_exempt ((exempt_bitLength_iff h).2 hm)

/-- Every other message gets 0x80 and the length field at least (R154). -/
theorem pad_length_ge {m : List Byte} (h : m.length < 2 ^ 61) (hm : ¬ (0 < m.length ∧ m.length % 64 = 0)) :
    m.length + 9 ≤ (pad m).length := by
  have he : exempt (BitVec.ofNat 64 (8 * m.length)) = false :=
    Bool.eq_false_iff.2 fun e => hm ((exempt_bitLength_iff h).1 e)
  have := forgePadding_length_of_not_exempt he m
  rw [pad]
  omega

/-- Settles O41: whole blocks by `pad_length_mod`, and never none, since an exempt message is not empty. -/
theorem padGivesWholeBlocks : Obligations.PadGivesWholeBlocks := by
  unfold Obligations.PadGivesWholeBlocks
  intro m h
  have hmod := pad_length_mod h
  refine ⟨hmod, ?_, pad_length_ge h, fun h0 h64 => pad_of_wholeBlocks h ⟨h0, h64⟩⟩
  by_cases hm : 0 < m.length ∧ m.length % 64 = 0
  · rw [pad_of_wholeBlocks h hm]; omega
  · have := pad_length_ge h hm
    omega

/-- Settles O42: padding only appends, and the head is whole blocks. -/
theorem paddingActsOnTheTail : Obligations.PaddingActsOnTheTail := by
  unfold Obligations.PaddingActsOnTheTail
  intro x n
  have e : forgePadding x n = headOf x ++ forgePadding (tailOf x) n := by
    rw [← forgePadding_append, headOf_append_tailOf]
  refine ⟨e, ?_⟩
  rw [e, chunk64_append _ (by rw [headOf_length, Nat.mul_mod_right])]

end Sys2Proof.Machine
end

section
/-! PAD and FINAL (42_padding.md R156 to R161): what the padding generator leaves in PADBLKS and PADBUF, what each command
completes with, and O43 to O47 from it. -/

namespace Sys2Proof.Machine

/-! ## The padded tail and PADBUF -/

theorem paddedTail_of_exempt {s : State} (h : exempt s.length = true) : s.paddedTail = [] := if_pos h

theorem paddedTail_of_not_exempt {s : State} (h : exempt s.length = false) :
    s.paddedTail = s.tail ++ paddingBytes s.tailLen.toNat s.length := if_neg (by simp [h])

theorem tail_getD (s : State) {k : Nat} (hk : k < s.tailLen.toNat) : s.tail.getD k 0 = s.blk k := by
  simp [State.tail, List.getD, hk]

theorem paddedTail_getD_tail {s : State} (h : exempt s.length = false) {k : Nat} (hk : k < s.tailLen.toNat) :
    s.paddedTail.getD k 0 = s.blk k := by
  rw [paddedTail_of_not_exempt h, List.getD_append _ _ _ _ (by simpa using hk), tail_getD s hk]

/-- Past the tail stands the padding, in which no byte of the tail occurs (R161). -/
theorem paddedTail_getD_padding {s : State} (h : exempt s.length = false) {k : Nat} (hk : s.tailLen.toNat ≤ k) :
    s.paddedTail.getD k 0 = (paddingBytes s.tailLen.toNat s.length).getD (k - s.tailLen.toNat) 0 := by
  rw [paddedTail_of_not_exempt h, List.getD_append_right _ _ _ _ (by simpa using hk), tail_length]

theorem padGen_wf {s : State} (hm : s.mem.wf = true) : s.padGen.mem.wf = true := Memory.writeRun_wf hm _ _

theorem padGen_padBlks_of_exempt {s : State} (h : exempt s.length = true) : s.padGen.padBlks = 0 := by
  rw [State.padGen, withPad_padBlks, paddedTail_of_exempt h]; rfl

theorem padGen_padBlks_of_not_exempt {s : State} (ht : s.tailLen.toNat ≤ 63) (h : exempt s.length = false) :
    s.padGen.padBlks = if s.tailLen.toNat ≤ 55 then 1 else 2 := by
  rw [State.padGen, withPad_padBlks, paddedTail_length ht, if_neg (by simp [h])]
  split <;> rfl

/-- The blocks end with the padding (R158). -/
theorem padGen_end_of_not_exempt {s : State} (ht : s.tailLen.toNat ≤ 63) (h : exempt s.length = false) :
    64 * s.padGen.padBlks.toNat = s.tailLen.toNat + zeroFill s.tailLen.toNat + 9 := by
  rw [← (paddedTail_length_eq_blocks ht).1, paddedTail_of_not_exempt h, List.length_append, tail_length,
    paddingBytes_length, Nat.add_assoc]

theorem padGen_padBuf_of_exempt {s : State} (hm : s.mem.wf = true) (ht : s.tailLen.toNat ≤ 63)
    (h : exempt s.length = true) {k : Nat} (hk : k < 128) : s.padGen.padBuf k = 0x00 := by
  rw [padGen_padBuf hm ht hk, paddedTail_of_exempt h]; rfl

/-- Every byte of PADBUF, its length field found from the end of the last block (R158). -/
theorem padGen_padBuf_of_not_exempt {s : State} (hm : s.mem.wf = true) (ht : s.tailLen.toNat ≤ 63)
    (h : exempt s.length = false) {k : Nat} (hk : k < 128) : s.padGen.padBuf k =
      if k < s.tailLen.toNat then s.blk k
      else if k = s.tailLen.toNat then 0x80
      else if 64 * s.padGen.padBlks.toNat - 8 ≤ k ∧ k < 64 * s.padGen.padBlks.toNat then
        byteAt s.length (k - (64 * s.padGen.padBlks.toNat - 8))
      else 0x00 := by
  rw [padGen_padBuf hm ht hk]
  rcases Nat.lt_or_ge k s.tailLen.toNat with hlt | hge
  · rw [if_pos hlt, paddedTail_getD_tail h hlt]
  · have hend := padGen_end_of_not_exempt ht h
    rw [if_neg (by omega), paddedTail_getD_padding h hge, paddingBytes_getD]
    refine if_congr (by omega) rfl (if_congr (by omega) (congrArg (byteAt s.length) (by omega)) rfl)

/-! ## The commands -/

/-- Where PADGEN ends: PADBLKS and PADBUF written, the block index 0 (R108). -/
def State.afterPadGen (s : State) : State := s.padGen.withWork { s.work with j := 0 }

@[simp] theorem afterPadGen_h (s : State) : s.afterPadGen.h = s.h := rfl
@[simp] theorem afterPadGen_padBlks (s : State) : s.afterPadGen.padBlks = s.padGen.padBlks := rfl
@[simp] theorem afterPadGen_padBuf (s : State) : s.afterPadGen.padBuf = s.padGen.padBuf := rfl

theorem exec_pad_of_pass {s : State} (h : s.padChecksPass = true) :
    exec .pad s = .next (s.afterPadGen.complete codeOk) := execPad_pass h

/-- FINAL goes on where PADGEN ends, over as many blocks as PADBLKS says (R159). -/
theorem exec_final_of_pass {s : State} (h : s.padChecksPass = true) :
    exec .final s = .next ((s.afterPadGen.compressPadBlocks s.padGen.padBlks.toNat).complete codeOk) := by
  rw [padGen_padBlks ((padChecksPass_iff s).1 h).1]
  exact execFinal_pass h

theorem padChecksPass_eq_false_iff (s : State) : s.padChecksPass = false ↔
    63 < s.tailLen.toNat ∨ s.length.toNat % 8 ≠ 0 ∨ s.length.toNat / 8 % 64 ≠ s.tailLen.toNat := by
  rw [← Bool.not_eq_true, padChecksPass_iff]
  omega

/-- Settles O43: the generator's bytes, which the completion leaves as they are. -/
theorem padWritesThePaddedTail : Obligations.PadWritesThePaddedTail := by
  unfold Obligations.PadWritesThePaddedTail
  intro s hm ht h8 hq
  refine ⟨_, exec_pad_of_pass ((padChecksPass_iff s).2 ⟨ht, h8, hq⟩), rfl, fun _ ha => padGen_read_outside ht ha, ?_, ?_⟩
  · intro h
    have he := (exempt_iff s.length).2 h
    exact ⟨padGen_padBlks_of_exempt he, fun _ hk => padGen_padBuf_of_exempt hm ht he hk⟩
  · intro h
    have he := (exempt_eq_false_iff s.length).2 h
    exact ⟨padGen_padBlks_of_not_exempt ht he, fun _ hk => padGen_padBuf_of_not_exempt hm ht he hk⟩

/-- Settles O44: a check that holds makes either command a bare completion with code 2. -/
theorem padAndFinalRejectInconsistentTail : Obligations.PadAndFinalRejectInconsistentTail := by
  unfold Obligations.PadAndFinalRejectInconsistentTail
  intro i s hi h
  have hc := (padChecksPass_eq_false_iff s).2 h
  rcases hi with rfl | rfl
  · exact execPad_fail hc
  · exact execFinal_fail hc

/-- The chaining state after FINAL's 0, 1 or 2 blocks (R159). -/
theorem compressPadBlocks_afterPadGen_h {s : State} (ht : s.tailLen.toNat ≤ 63) :
    (s.afterPadGen.compressPadBlocks s.padGen.padBlks.toNat).h =
      if 0 < s.length.toNat ∧ s.length.toNat % 512 = 0 then s.h
      else if s.tailLen.toNat ≤ 55 then compress s.h (s.afterPadGen.padBlock 0)
      else compress (compress s.h (s.afterPadGen.padBlock 0)) (s.afterPadGen.padBlock 1) := by
  have h1 : (s.afterPadGen.compressPadBlocks 1).h = compress s.h (s.afterPadGen.padBlock 0) :=
    compressPadBlocks_h_succ s.afterPadGen 0
  cases he : exempt s.length with
  | true => rw [if_pos ((exempt_iff _).1 he), padGen_padBlks_of_exempt he]; exact afterPadGen_h s
  | false =>
    rw [if_neg ((exempt_eq_false_iff _).1 he), padGen_padBlks_of_not_exempt ht he]
    split
    · exact h1
    · exact (compressPadBlocks_h_succ s.afterPadGen 1).trans (by rw [h1])

/-- Blocks of PADBUF compressed before the completion change H and the hidden words of the completed state alone. -/
theorem compressPadBlocks_complete_frame (u : State) (q : Nat) (c : Code) : (u.compressPadBlocks q).complete c =
    ((u.complete c).withH (u.compressPadBlocks q).h).withWork (u.compressPadBlocks q).work := by
  conv_lhs => rw [compressPadBlocks_frame]
  rfl

/-- Settles O45: FINAL is the compression of PADBUF's blocks in the state PAD completes from. -/
theorem finalCompressesThePaddedTail : Obligations.FinalCompressesThePaddedTail := by
  unfold Obligations.FinalCompressesThePaddedTail
  intro s ht h8 hq
  have hc := (padChecksPass_iff s).2 ⟨ht, h8, hq⟩
  exact ⟨_, _, exec_pad_of_pass hc, exec_final_of_pass hc, compressPadBlocks_complete_frame _ _ _,
    compressPadBlocks_afterPadGen_h ht⟩

/-! ## The glue padding (R161) -/

theorem exec_pad_or_final_of_pass {i : Instr} {s : State} (hi : i = .pad ∨ i = .final) (h : s.padChecksPass = true) :
    ∃ t, exec i s = .next t ∧ t.padBlks = s.padGen.padBlks ∧ t.padBuf = s.padGen.padBuf := by
  rcases hi with rfl | rfl
  · exact ⟨_, exec_pad_of_pass h, rfl, rfl⟩
  · exact ⟨_, exec_final_of_pass h, by simp [compressPadBlocks_complete_frame], by simp [compressPadBlocks_complete_frame]⟩

theorem padGen_padBlks_congr {s u : State} (hl : s.length = u.length) (hu : u.tailLen = s.tailLen)
    (ht : s.tailLen.toNat ≤ 63) : s.padGen.padBlks = u.padGen.padBlks := by
  apply BitVec.eq_of_toNat_eq
  rw [padGen_padBlks ht, padGen_padBlks (hu ▸ ht), paddedTail_length ht, paddedTail_length (hu ▸ ht), hl, hu]

/-- PADBUF from TAILLEN on is the padding, which is made from TAILLEN and LENGTH alone. -/
theorem padGen_padBuf_padding {s : State} (hm : s.mem.wf = true) (ht : s.tailLen.toNat ≤ 63) (h : exempt s.length = false)
    {k : Nat} (hk : k < 128) (hge : s.tailLen.toNat ≤ k) :
    s.padGen.padBuf k = (paddingBytes s.tailLen.toNat s.length).getD (k - s.tailLen.toNat) 0 := by
  rw [padGen_padBuf hm ht hk, paddedTail_getD_padding h hge]

/-- Settles O47: equal LENGTHs give the same padding after the tail, and an exempt LENGTH gives no block. -/
theorem gluePaddingDependsOnLengthOnly : Obligations.GluePaddingDependsOnLengthOnly := by
  unfold Obligations.GluePaddingDependsOnLengthOnly
  intro i s u hi hms hmu hl ht h8 hq hu
  have hut : u.tailLen.toNat ≤ 63 := hu ▸ ht
  obtain ⟨t, het, htq, htb⟩ := exec_pad_or_final_of_pass hi ((padChecksPass_iff s).2 ⟨ht, h8, hq⟩)
  obtain ⟨r, her, hrq, hrb⟩ := exec_pad_or_final_of_pass hi ((padChecksPass_iff u).2 ⟨hut, hl ▸ h8, by rw [hu, ← hl, hq]⟩)
  refine ⟨t, r, het, her, by rw [htq, hrq, padGen_padBlks_congr hl hu ht], ?_, ?_⟩
  · intro k hge hk
    rw [htq] at hk
    have hk128 : k < 128 := by
      have := (paddedTail_length_eq_blocks ht).2
      omega
    have he : exempt s.length = false := Bool.eq_false_iff.2 fun he => by
      rw [padGen_padBlks_of_exempt he] at hk
      exact Nat.not_lt_zero _ hk
    rw [htb, hrb, padGen_padBuf_padding hms ht he hk128 hge,
      padGen_padBuf_padding hmu hut (hl ▸ he) hk128 (hu ▸ hge), hl, hu]
  · exact fun h => htq.trans (padGen_padBlks_of_exempt ((exempt_iff _).2 h))

/-! ## PAD followed by COMPRESS of each block (R160) -/

/-- In `g` the first `n` blocks of `p`'s PADBUF have been compressed into `p`'s chaining state, and PADBLKS and PADBUF are
still those of `p`. -/
structure CompressedPadBlocks (p g : State) (n : Nat) : Prop where
  wf : g.mem.wf = true
  h : g.h = (p.compressPadBlocks n).h
  padBlks : g.padBlks = p.padBlks
  padBuf : g.padBuf = p.padBuf

theorem exec_compress (s : State) : exec .compress s =
    .next (((s.withH (compress s.h s.blk)).withWork (s.work.afterBlock s.h s.blk)).complete codeOk) := execCompress_eq s

/-- COMPRESS on a block copied into BLK compresses that block of PADBUF. -/
theorem compress_copyPadBlock {g : State} (hm : g.mem.wf = true) (j : Nat) :
    compress (g.copyPadBlock j).h (g.copyPadBlock j).blk = compress g.h (g.padBlock j) :=
  compress_congr _ fun _ hk => copyPadBlock_blk hm j hk

theorem padBlock_congr {g p : State} (h : g.padBuf = p.padBuf) (j : Nat) : g.padBlock j = p.padBlock j :=
  funext fun k => congrFun h (64 * j + k)

theorem CompressedPadBlocks.succ {p g t : State} {n : Nat} (hg : CompressedPadBlocks p g n)
    (ht : exec .compress (g.copyPadBlock n) = .next t) : CompressedPadBlocks p t (n + 1) := by
  rw [exec_compress, compress_copyPadBlock hg.wf] at ht
  obtain rfl := Host.Outcome.next.inj ht
  refine ⟨?_, ?_, ?_, ?_⟩
  · rw [complete_mem, withWork_mem, withH_mem, copyPadBlock_mem]
    exact Memory.writeRun_wf hg.wf _ _
  · rw [complete_h, withWork_h, withH_h, compressPadBlocks_h_succ, hg.h, padBlock_congr hg.padBuf]
  · rw [complete_padBlks, withWork_padBlks, withH_padBlks, copyPadBlock_padBlks, hg.padBlks]
  · rw [complete_padBuf, withWork_padBuf, withH_padBuf, ← hg.padBuf]
    exact funext fun k => copyPadBlock_padBuf g n k

theorem compressedPadBlocks_of_run {p : State} {f : Nat → State} {q : Nat} (hm : p.mem.wf = true) (h0 : f 0 = p)
    (hf : ∀ j, j < q → exec .compress ((f j).copyPadBlock j) = .next (f (j + 1))) :
    ∀ n, n ≤ q → CompressedPadBlocks p (f n) n
  | 0, _ => by rw [h0]; exact ⟨hm, rfl, rfl, rfl⟩
  | n + 1, hn => (compressedPadBlocks_of_run hm h0 hf n (by omega)).succ (hf n hn)

/-- The chaining state after PADBUF's blocks is not affected by a completion before them. -/
theorem compressPadBlocks_complete_h (u : State) (c : Code) (n : Nat) :
    ((u.complete c).compressPadBlocks n).h = (u.compressPadBlocks n).h := by
  induction n with
  | zero => rfl
  | succ n ih => rw [compressPadBlocks_h_succ, compressPadBlocks_h_succ, ih, complete_padBlock]

/-- Settles O46: by induction on the blocks, COMPRESS of each is FINAL's compression of it. -/
theorem finalEqualsPadThenCompress : Obligations.FinalEqualsPadThenCompress := by
  unfold Obligations.FinalEqualsPadThenCompress
  intro s p f hm ht h8 hq hp h0 hf
  have hc := (padChecksPass_iff s).2 ⟨ht, h8, hq⟩
  obtain rfl := Host.Outcome.next.inj ((exec_pad_of_pass hc).symm.trans hp)
  have hrun := compressedPadBlocks_of_run (p := s.afterPadGen.complete codeOk) (padGen_wf hm) h0 hf _ le_rfl
  refine ⟨_, exec_final_of_pass hc, ?_, ?_, fun k _ => ?_⟩
  · rw [hrun.h, compressPadBlocks_complete_h, complete_h, complete_padBlks, afterPadGen_padBlks]
  · rw [hrun.padBlks]; simp [compressPadBlocks_complete_frame]
  · rw [hrun.padBuf]; simp [compressPadBlocks_complete_frame]

end Sys2Proof.Machine
end

section
/-! The compression datapath and COMPRESS (43_compression.md R182 to R187): the order in which a group reads the message
words, the rotation, the mixing functions bit by bit, and the 64 steps behind COMPRESS; O36 to O39 from them. -/

namespace Sys2Proof.Machine

/-! ## The message-word index (R183) -/

theorem msgIndex_group_zero {i : Nat} (h : i / 16 = 0) : (msgIndex i).val = i % 16 := by
  simp [msgIndex, h]

theorem msgIndex_group_one {i : Nat} (h : i / 16 = 1) : (msgIndex i).val = (5 * i + 1) % 16 := by
  simp [msgIndex, h]

theorem msgIndex_group_two {i : Nat} (h : i / 16 = 2) : (msgIndex i).val = (3 * i + 5) % 16 := by
  simp [msgIndex, h]

theorem msgIndex_group_three {i : Nat} (h : i / 16 = 3) : (msgIndex i).val = 7 * i % 16 := by
  simp [msgIndex, h]

theorem msgIndex_val {i : Nat} (h : i < 64) : (msgIndex i).val =
    if i < 16 then i else if i < 32 then (5 * i + 1) % 16 else if i < 48 then (3 * i + 5) % 16 else 7 * i % 16 := by
  split_ifs
  · rw [msgIndex_group_zero (by omega), Nat.mod_eq_of_lt ‹_›]
  · exact msgIndex_group_one (by omega)
  · exact msgIndex_group_two (by omega)
  · exact msgIndex_group_three (by omega)

/-- Within a group no two steps read the same word: the factors 1, 5, 3 and 7 are odd, so invertible modulo 16. -/
theorem msgIndex_inj_of_group_eq {i j : Nat} (hi : i < 64) (hg : i / 16 = j / 16) (h : msgIndex i = msgIndex j) :
    i = j := by
  have hv := congrArg Fin.val h
  obtain h0 | h1 | h2 | h3 : i / 16 = 0 ∨ i / 16 = 1 ∨ i / 16 = 2 ∨ i / 16 = 3 := by omega
  · rw [msgIndex_group_zero h0, msgIndex_group_zero (hg ▸ h0)] at hv; omega
  · rw [msgIndex_group_one h1, msgIndex_group_one (hg ▸ h1)] at hv; omega
  · rw [msgIndex_group_two h2, msgIndex_group_two (hg ▸ h2)] at hv; omega
  · rw [msgIndex_group_three h3, msgIndex_group_three (hg ▸ h3)] at hv; omega

theorem msgIndex_group_nodup {g : Nat} (hg : g < 4) : ((List.range 16).map (fun j => msgIndex (16 * g + j))).Nodup := by
  refine List.nodup_range.map_on fun i hi j hj h => ?_
  rw [List.mem_range] at hi hj
  have := msgIndex_inj_of_group_eq (by omega) (by omega) h
  omega

/-- Settles O36: the formulas are those of the four groups, and an odd factor permutes the sixteen words. -/
theorem messageIndexSequence : Obligations.MessageIndexSequence := by
  unfold Obligations.MessageIndexSequence
  exact ⟨fun _ => msgIndex_val, by decide, fun _ => msgIndex_group_nodup⟩

/-! ## The rotation (R184) -/

theorem rotl32_eq_rotateLeft (x : Word) {n : Nat} (h : n < 32) : rotl32 x n = x.rotateLeft n := by
  rw [rotl32, BitVec.rotateLeft_def, Nat.mod_eq_of_lt h]

/-- Bit `b` moves to bit `b + n`, counted round the word. -/
theorem getLsbD_rotl32 (x : Word) {n b : Nat} (hn : n < 32) (hb : b < 32) :
    (rotl32 x n).getLsbD ((b + n) % 32) = x.getLsbD b := by
  rw [rotl32_eq_rotateLeft x hn, BitVec.getLsbD_rotateLeft, Nat.mod_eq_of_lt hn]
  by_cases h : (b + n) % 32 < n
  · rw [decide_eq_true h, cond_true, show 32 - n + (b + n) % 32 = b by omega]
  · rw [decide_eq_false h, cond_false, show (b + n) % 32 - n = b by omega,
      decide_eq_true (Nat.mod_lt _ (by decide)), Bool.true_and]

theorem rotRow_length (g : Nat) : (rotRow g).length = 4 := by
  unfold rotRow; split <;> rfl

theorem rotRow_bounds (g : Nat) : ∀ r ∈ rotRow g, 4 ≤ r ∧ r ≤ 23 := by
  unfold rotRow; split <;> decide

theorem rotAmount_mem_rotRow (i : Nat) : rotAmount i ∈ rotRow (i / 16) := by
  have hlt : i % 4 < (rotRow (i / 16)).length := by rw [rotRow_length]; omega
  rw [rotAmount, List.getD_eq_getElem _ _ hlt]
  exact List.getElem_mem hlt

/-- Settles O37: `rotl32` is the library's rotation, and an amount is an entry of its group's row. -/
theorem rotationMovesBitsRound : Obligations.RotationMovesBitsRound := by
  unfold Obligations.RotationMovesBitsRound
  refine ⟨fun _ _ _ _ => rfl, fun x n b _ hn hb => getLsbD_rotl32 x (by omega) hb, fun i _ => ?_⟩
  exact rotRow_bounds _ _ (rotAmount_mem_rotRow i)

/-! ## The mixing functions (R182) -/

section
variable (b c d : Word) {n : Nat}

theorem getLsbD_mix_zero (h : n < 32) :
    (mix 0 b c d).getLsbD n = if b.getLsbD n then c.getLsbD n else d.getLsbD n := by
  simp only [mix, BitVec.getLsbD_or, BitVec.getLsbD_and, BitVec.getLsbD_not, h, decide_true, Bool.true_and]
  cases b.getLsbD n <;> simp

/-- Group 1 is group 0 with the words turned round: `d` selects between `b` and `c`. -/
theorem mix_one_eq_mix_zero : mix 1 b c d = mix 0 d b c := rfl

theorem getLsbD_mix_two : (mix 2 b c d).getLsbD n = ((b.getLsbD n != c.getLsbD n) != d.getLsbD n) := by
  simp [mix]

theorem getLsbD_mix_three (h : n < 32) :
    (mix 3 b c d).getLsbD n = (c.getLsbD n != (b.getLsbD n || !d.getLsbD n)) := by
  simp [mix, h]

end

/-- Settles O38, group by group, group 1 being group 0's selection. -/
theorem mixingFunctionsBitwise : Obligations.MixingFunctionsBitwise := by
  unfold Obligations.MixingFunctionsBitwise
  intro b c d n h
  refine ⟨getLsbD_mix_zero b c d h, ?_, getLsbD_mix_two b c d, getLsbD_mix_three b c d h⟩
  rw [mix_one_eq_mix_zero]
  exact getLsbD_mix_zero d b c h

/-! ## COMPRESS (R185 to R187) -/

/-- The sixteen words of a block are determined by their bytes. -/
theorem eq_blockWords {w : Words} {x : Nat → Byte}
    (h : ∀ k : Fin 16, w.get k = le32 (x (4 * k)) (x (4 * k + 1)) (x (4 * k + 2)) (x (4 * k + 3))) :
    w = blockWords x := by
  apply Vector.ext
  intro k hk
  rw [blockWords, Vector.getElem_ofFn]
  exact h ⟨k, hk⟩

/-- A sequence of working words that takes step `i` from each `v i` with `i < m` is `rounds`, up to `m`. -/
theorem eq_rounds_of_steps {w : Words} {v : Nat → Quad} {m : Nat}
    (h : ∀ i, i < m → v (i + 1) = roundStep i (v i) w) {n : Nat} (hn : n ≤ m) : v n = rounds w (v 0) n := by
  induction n with
  | zero => rw [rounds_zero]
  | succ n ih => rw [h n hn, ih (Nat.le_of_succ_le hn), rounds_succ]

theorem complete_codeOk (s : State) : s.complete codeOk =
    { s with pend := none, phase := .idle, status := ⟨false, true, s.status.bv, 0⟩ } := rfl

/-- Settles O39: the words are BLK's and the steps are `rounds`, by induction on the number of steps. -/
theorem compressRunsSixtyFourSteps : Obligations.CompressRunsSixtyFourSteps := by
  unfold Obligations.CompressRunsSixtyFourSteps
  intro s w v hw h0 hv
  obtain rfl := eq_blockWords hw
  have hrounds : v 64 = rounds (blockWords s.blk) s.h 64 := h0 ▸ eq_rounds_of_steps hv le_rfl
  have hcompress : compress s.h s.blk = quadAdd s.h (v 64) := by rw [compress, ← hrounds]
  refine ⟨s.work.afterBlock s.h s.blk, ?_⟩
  rw [exec_compress, hcompress, complete_codeOk]
  rfl

end Sys2Proof.Machine
end

section
/-! The function extend (44_procedures.md R230 to R236): its payload after the base and its forged digest come from the base's
length, and a digest decodes to the state its hash ended in, from which the extension goes on; O58 and O60. -/

namespace Sys2Proof.Machine

/-! ## The base, by its length -/

/-- What padding appends is made from the length alone (R155). -/
theorem pad_eq_append (b : List Byte) : pad b = b ++ forgePadding [] (BitVec.ofNat 64 (8 * b.length)) := by
  rw [← forgePadding_append, List.append_nil, pad]

theorem extendPayload_drop (b ext : List Byte) :
    (extendPayload b ext).drop b.length = forgePadding [] (BitVec.ofNat 64 (8 * b.length)) ++ ext := by
  rw [extendPayload, pad_eq_append, List.append_assoc, List.drop_left]

section
variable {b u : List Byte} (h : b.length = u.length) (ext : List Byte)
include h

theorem extendPayload_drop_congr : (extendPayload b ext).drop b.length = (extendPayload u ext).drop u.length := by
  rw [extendPayload_drop, extendPayload_drop, h]

/-- One base's glue padding and extension, put after another base of its length. -/
theorem append_extendPayload_drop : u ++ (extendPayload b ext).drop b.length = extendPayload u ext := by
  rw [extendPayload_drop_congr h, extendPayload_drop, ← List.append_assoc, ← pad_eq_append, extendPayload]

theorem extendBits_congr : extendBits b ext = extendBits u ext := by
  simp only [extendBits, extendPayload, pad_eq_append, List.length_append, h]

end

/-- Settles O60: the base enters the forged digest through the payload's bit length alone. -/
theorem extendDependsOnBaseLengthOnly : Obligations.ExtendDependsOnBaseLengthOnly := by
  unfold Obligations.ExtendDependsOnBaseLengthOnly
  refine fun b u digest ext h => ⟨?_, extendPayload_drop_congr h ext⟩
  simp only [extendFunction, Option.map_map, Function.comp_def, extendBits_congr h]

/-! ## The digest, decoded -/

theorem extendFunction_of_some {base digest ext : List Byte} {g : Quad}
    (h : stateFromDigest digest.length (blockByte digest) = some g) : extendFunction base digest ext =
      some (hexOfBytes (extendPayload base ext), hexOut (compressAll g (forgePadding ext (extendBits base ext)))) := by
  rw [extendFunction, h, Option.map_some]

theorem isHex_hexOutChar (h : Quad) (k : Nat) : isHex (hexOutChar h k) = true := by
  obtain ⟨j, rfl | rfl⟩ := k.even_or_odd'
  · rw [hexOutChar_even]; exact (hexVal_hexChars _).1
  · rw [hexOutChar_odd]; exact (hexVal_hexChars _).2.1

/-- Decoding a state's hexadecimal form gives the state (R124, R231). -/
theorem stateFromDigest_hexOut (h : Quad) : stateFromDigest (hexOut h).length (blockByte (hexOut h)) = some h := by
  have hchar : ∀ k, k < 32 → blockByte (hexOut h) k = hexOutChar h k := fun k hk => by simp [blockByte, hexOut, hk]
  rw [hexOut_length, stateFromDigest_congr hchar, stateFromDigest_of_hex fun k _ => isHex_hexOutChar h k]
  refine congrArg some (quad_ext_of_digest fun j hj => ?_)
  rw [digestByte_quadOfBytes _ j hj, byteOfHex_hexOutChar]

/-- The hash of a padded message with an extension goes on from the message's hash, the padded message being whole blocks. -/
theorem hashState_extendPayload {m : List Byte} (h : m.length < 2 ^ 61) (ext : List Byte) :
    hashState (extendPayload m ext) = compressAll (hashState m) (forgePadding ext (extendBits m ext)) := by
  have hpad : pad (extendPayload m ext) = pad m ++ forgePadding ext (extendBits m ext) := forgePadding_append _ _ _
  rw [hashState, hpad, compressAll_append _ _ (pad_length_mod h), hashState]

/-- Settles O58: the secret followed by the payload's rest is the secret's own payload. -/
theorem lengthExtensionForgesTheHash : Obligations.LengthExtensionForgesTheHash := by
  unfold Obligations.LengthExtensionForgesTheHash
  intro secret base ext hlen hmax
  rw [hashFunction, extendFunction_of_some (stateFromDigest_hexOut _), extendBits_congr hlen,
    ← hashState_extendPayload (by omega), ← append_extendPayload_drop hlen]
  rfl

end Sys2Proof.Machine
end

section
/-! FINAL on a message's tail (44_procedures.md R223): it compresses the padded tail into H, and the whole blocks before it
make that the hash; O56. -/

namespace Sys2Proof.Machine

/-- The tail by its bytes in BLK. -/
theorem tail_eq_of_blk {s : State} {l : List Byte} (hl : s.tailLen.toNat = l.length)
    (hb : ∀ k, k < l.length → s.blk k = l.getD k 0) : s.tail = l := by
  rw [State.tail, hl]
  exact (List.map_congr_left fun k hk => hb k (List.mem_range.1 hk)).trans (map_range_getD rfl)

/-- FINAL compresses the padding of its tail (R159). -/
theorem exec_final_compressAll {s : State} (hm : s.mem.wf = true) (hc : s.padChecksPass = true) :
    ∃ t, exec .final s = .next t ∧ t.h = compressAll s.h (forgePadding s.tail s.length) ∧ t.status.busy = false := by
  obtain ⟨ht, _, hq⟩ := (padChecksPass_iff s).1 hc
  refine ⟨_, exec_final_of_pass hc, ?_, rfl⟩
  rw [complete_h, padGen_padBlks ht, ← paddedTail_eq_forgePadding hq]
  exact compressPadBlocks_all hm ht _

/-- The whole blocks, then the padded tail: the padded message (R155, R222). -/
theorem compressAll_headOf_tailOf (g : Quad) (x : List Byte) (n : Length) :
    compressAll (compressAll g (headOf x)) (forgePadding (tailOf x) n) = compressAll g (forgePadding x n) := by
  rw [← compressAll_append _ _ (by rw [headOf_length, Nat.mul_mod_right]), ← forgePadding_append, headOf_append_tailOf]

/-- Settles O56: the operands are consistent, and HEXOUT reads the H that FINAL leaves. -/
theorem finalCompletesTheHash : Obligations.FinalCompletesTheHash := by
  unfold Obligations.FinalCompletesTheHash
  intro s m hm _ ht hl hblk hh
  have htail : s.tail = tailOf m := by
    rw [← tailOf_length] at ht hblk
    exact tail_eq_of_blk ht hblk
  have hlen : s.length = BitVec.ofNat 64 (8 * m.length) := by rw [← hl, BitVec.ofNat_toNat, BitVec.setWidth_eq]
  obtain ⟨t, hx, hth, hbusy⟩ := exec_final_compressAll hm ((padChecksPass_iff s).2 ⟨by omega, by omega, by omega⟩)
  have hstate : t.h = hashState m := by rw [hth, hh, htail, hlen, compressAll_headOf_tailOf, hashState, pad]
  refine ⟨t, hx, hstate, fun k hk => ?_⟩
  rw [hashFunction, ← hstate]
  exact (readByte_hexOut hbusy hk).trans (by simp [hexOut, hk])

end Sys2Proof.Machine
end

section
/-! Procedures on the machine (44_procedures.md R220 to R224): a part of one ends, under every schedule without a reset, in an
idle core from which the next runs, having seen no violation; hash is one such part, and digestOf's reads change nothing of the
core. O57 from them. -/

namespace Sys2Proof.Machine

/-! ## Parts that end in an idle core -/

/-- The core a procedure starts from: idle, its buffers canonical, no violation seen, no reset to come (R220, R239). -/
structure IdleCore (s : State) : Prop where
  wf : s.mem.wf = true
  pend : s.pend = none
  busy : s.status.busy = false
  bv : s.status.bv = false
  noReset : Turn.reset ∉ s.sched

/-- The part `p` of a procedure, run from `s`, ends in the idle core `t` and sees no violation. -/
structure PartEnds (s : State) (p : List HostStmt) (t : State) : Prop where
  run : runProgram s p = .next t
  ended : t.ended = true
  idle : IdleCore t
  unseen : programSeesViolation s p = false

/-- What a procedure goes on with after such a part. -/
theorem PartEnds.afterPart {α : Type} {s t : State} {p : List HostStmt} (h : PartEnds s p t)
    (f : State → Host.Outcome (State × ProcResult α) Fault Refusal) : afterPart (runProgram s p) f = f t :=
  afterPart_of_ended h.run h.ended f

section
variable {s : State} (hs : IdleCore s)
include hs

theorem IdleCore.ready_loadProgram (p : List HostOp) : Ready (({ s with sched := [] } : State).loadProgram p) p :=
  Machine.ready_loadProgram hs.pend hs.busy hs.bv hs.wf p

/-- What a part reaches with nothing scheduled it ends in, up to the turns left, under the turns scheduled. -/
theorem IdleCore.partEnds_of_reach {t : State} {p : List HostStmt} {k : Nat} (hw : hostProgramWf p = true)
    (hq : pollsAfterCommands (p.flatMap expand) = true)
    (hr : Reach k (({ s with sched := [] } : State).loadProgram (p.flatMap expand)) t) (ht : Ready t []) :
    ∃ ts, PartEnds s p { t with sched := ts } := by
  obtain ⟨ts, hts, hrun⟩ := runProgram_of_reach hs.pend hs.busy hs.noReset hw hq hr ht
  exact ⟨ts, hrun, (ended_iff _).2 ⟨ht.prog, ht.pend⟩, ⟨ht.wf, ht.pend, ht.busy, ht.bv, hts⟩,
    programSeesViolation_eq_false hs.pend hs.busy hs.bv hs.noReset hq⟩

/-! ## hash -/

theorem hashProgram_ends {m : List Byte} (hm : m.length < 2 ^ 61) : ∃ t, PartEnds s (hashProgram m) t ∧
    t.h = hashState m ∧ t.host.got = hashFunction m ∧ t.status = ⟨false, true, false, 0⟩ := by
  have hready := hs.ready_loadProgram ((hashProgram m).flatMap expand)
  rw [hashProgram_eq, List.flatMap_append] at hready
  obtain ⟨v, r1, hv, hvh, hvg⟩ := reach_init hready
  obtain ⟨k, t, r2, ht, hth, htg, hst, -⟩ := reach_continue (by omega) (by omega) (by omega) hv
  have hstate : t.h = hashState m := by rw [hth, hvh, hashState, pad]
  have hw : hostProgramWf (hashProgram m) = true := by
    rw [hashProgram_eq, hostProgramWf, List.all_append]
    exact continueProgram_wf (by omega)
  have hr := Reach.trans r1 r2
  rw [← List.flatMap_append, ← hashProgram_eq] at hr
  obtain ⟨ts, he⟩ := hs.partEnds_of_reach hw (pollsAfterCommands_hash m) hr ht
  exact ⟨_, he, hstate, by rw [hashFunction, ← hstate]; exact htg.trans (by rw [hvg]; rfl), hst⟩

theorem procHash_eq {c : Config.Params} {m : List Byte} (hc : c.wf) (hm : m.length ≤ c.maxMsgBytes) :
    ∃ t, procHash c m s = .next (t, .value (hashFunction m)) ∧ t.h = hashState m ∧ t.status = ⟨false, true, false, 0⟩ := by
  obtain ⟨t, he, hh, hg, hst⟩ := hashProgram_ends hs (Nat.lt_of_le_of_lt hm hc)
  refine ⟨t, ?_, hh, hst⟩
  rw [procHash, if_pos hm, he.afterPart, he.unseen, hg]
  rfl

end

/-! ## digestOf -/

/-- Reads of an idle core with nothing scheduled, whatever BV and the buffers hold, change the host alone (R57, R224). -/
theorem reach_reads {p : List HostOp} (l : List Addr) {s : State} (hprog : s.host.prog = l.map HostOp.rd ++ p)
    (hp : s.pend = none) (hb : s.status.busy = false) (hsched : s.sched = []) :
    ∃ g : HostAgent, Reach l.length s { s with host := g } ∧ g.prog = p ∧ g.got = s.host.got ++ l.map s.readByte ∧
      g.stopped = s.host.stopped := by
  induction l generalizing s with
  | nil => exact ⟨s.host, Reach.refl s, hprog, by simp, rfl⟩
  | cons a l ih =>
    have hturn : s.hostTurn = { s with host := { s.host with
        prog := l.map HostOp.rd ++ p, got := s.host.got ++ [s.readByte a] } } := by
      simp only [State.hostTurn, hprog, List.map_cons, List.cons_append, State.hostRead, afterRead_idle hb]
    have hstep := Reach.step (.inl (by simp [hprog])) ((host_step hsched hp).trans (congrArg _ hturn))
    obtain ⟨g, hrest, hgp, hgg, hgs⟩ := ih (s := { s with host := { s.host with
        prog := l.map HostOp.rd ++ p, got := s.host.got ++ [s.readByte a] } }) rfl hp hb hsched
    refine ⟨g, ?_, hgp, ?_, hgs⟩
    · rw [List.length_cons, Nat.add_comm]
      exact Reach.trans hstep hrest
    · rw [hgg, List.map_congr_left fun b _ => readByte_host _ b, List.append_assoc]
      rfl

/-- A run of reads, on an idle core under every schedule without a reset, gives the bytes there and changes nothing. -/
theorem runProgram_readRun {s : State} {p : List HostStmt} {base n : Nat} (hp : s.pend = none)
    (hb : s.status.busy = false) (hr : Turn.reset ∉ s.sched) (hw : hostProgramWf p = true)
    (hops : p.flatMap expand = readRun base n) :
    ∃ t, runProgram s p = .next t ∧ t.ended = true ∧ t = { s with host := t.host, sched := t.sched } ∧
      t.host.got = (List.range n).map (fun k => s.readByte (addrAt base k)) := by
  have hrd : readRun base n = ((List.range n).map (addrAt base)).map HostOp.rd ++ [] := by simp [readRun]
  have hq : pollsAfterCommands (readRun base n) = true := by
    simpa [pollsAfterCommands] using pollsAfterCommands_readRun base n []
  obtain ⟨g, hreach, hprog, hgot, hstop⟩ :=
    reach_reads _ (s := ({ s with sched := [] } : State).loadProgram (readRun base n)) hrd hp hb rfl
  have hended : ({ s with host := g, sched := [] } : State).ended = true := (ended_iff _).2 ⟨hprog, hp⟩
  obtain ⟨ts, -, hrun⟩ := runProgram_onSchedule hp hb hr (hops ▸ assemble_of_wf hw) hq
    ((hreach 0).trans (runToEnd_of_ended hended 0)) hended
  rw [show ({ s with host := g, sched := [] } : State).host.stopped = none from hstop] at hrun
  refine ⟨_, hrun, (ended_iff _).2 ⟨hprog, hp⟩, rfl, ?_⟩
  rw [hgot, List.map_map]
  exact List.map_congr_left fun k _ => readByte_host _ _

/-- Settles O57: hash is its one part, and each form of digestOf is a run of reads. -/
theorem hashProgramReadsTheDigest : Obligations.HashProgramReadsTheDigest := by
  unfold Obligations.HashProgramReadsTheDigest
  refine ⟨fun c m s hc hm hwf hp hb hv hr => procHash_eq ⟨hwf, hp, hb, hv, hr⟩ hc hm, fun s hp hb hr => ?_⟩
  obtain ⟨t, htrun, htend, ht, htgot⟩ := runProgram_readRun (p := [.rdHex]) hp hb hr rfl (List.append_nil _)
  obtain ⟨u, hurun, huend, hu, hugot⟩ := runProgram_readRun (p := [.rdState]) hp hb hr rfl (List.append_nil _)
  refine ⟨t, u, ?_, ht, ?_, hu⟩
  · rw [procDigestHex, afterPart_of_ended htrun htend, htgot, readHexOut_eq_hexOut hb]
  · rw [procDigestBytes, afterPart_of_ended hurun huend, hugot, readState_eq_digestBytes hb]

end Sys2Proof.Machine
end

section
/-! The procedure extend on the machine (44_procedures.md R230 to R235): resume, pad and continue, each from the idle core the
part before leaves. O59 from them. -/

namespace Sys2Proof.Machine

/-! ## What it accepts -/

theorem resumeProgram_wf (d : List Byte) : hostProgramWf (resumeProgram d) = decide (d.length ≤ 255) := by
  simp [hostProgramWf, resumeProgram, HostStmt.wf, Instr.wf]

theorem gluePadProgram_wf {b : List Byte} (hb : b.length < 2 ^ 61) : hostProgramWf (gluePadProgram b) = true := by
  simp only [hostProgramWf, gluePadProgram, List.all_cons, List.all_nil, HostStmt.wf, Instr.wf, tailOf_length,
    Bool.and_true, Bool.and_eq_true, decide_eq_true_eq]
  omega

theorem extendAccepts_iff (c : Config.Params) (base ext : List Byte) : extendAccepts c base ext = true ↔
    base.length + 64 + ext.length ≤ c.maxMsgBytes ∧ (extendPayload base ext).length < 2 ^ 61 := by simp [extendAccepts]

/-! ## Its parts -/

section
variable {s : State} (hs : IdleCore s)
include hs

theorem resumeProgram_ends {d : List Byte} (hd : d.length ≤ 255) : ∃ t, PartEnds s (resumeProgram d) t ∧
    (∀ g, stateFromDigest d.length (blockByte d) = some g → errField t.host.polled = codeOk ∧ t.h = g) ∧
    (stateFromDigest d.length (blockByte d) = none → errField t.host.polled = codeInvalidDigestFormat) := by
  obtain ⟨k, t, c, hr, ht, hst, hpolled, hcode⟩ := reach_resume hd (hs.ready_loadProgram _)
  obtain ⟨ts, he⟩ := hs.partEnds_of_reach ((resumeProgram_wf d).trans (decide_eq_true hd)) (pollsAfterCommands_resume d) hr ht
  have herr : errField t.host.polled = c := by rw [hpolled, errField_toByte, hst]
  refine ⟨_, he, fun g hg => ?_, fun hn => ?_⟩
  · rw [hg] at hcode
    exact ⟨herr.trans hcode.1, hcode.2⟩
  · rw [hn] at hcode
    exact herr.trans hcode

theorem gluePadProgram_ends {b : List Byte} (hb : b.length < 2 ^ 61) : ∃ t, PartEnds s (gluePadProgram b) t ∧
    t.h = s.h ∧ headOf b ++ padBytesRead t = pad b := by
  obtain ⟨k, t, hr, ht, hh, hread, -, -⟩ := reach_gluePad hb rfl (hs.ready_loadProgram _)
  obtain ⟨ts, he⟩ := hs.partEnds_of_reach (gluePadProgram_wf hb) (pollsAfterCommands_gluePad b) hr ht
  exact ⟨_, he, hh, (congrArg (headOf b ++ ·) hread).trans (pad_eq_headOf b)⟩

theorem continueProgram_ends {x : List Byte} {n : Nat} (hn : n < 2 ^ 61) (hx : n % 64 = x.length % 64) :
    ∃ t, PartEnds s (continueProgram x (8 * n)) t ∧
      t.host.got = hexOut (compressAll s.h (forgePadding x (BitVec.ofNat 64 (8 * n)))) ∧
      t.status = ⟨false, true, false, 0⟩ := by
  obtain ⟨k, t, hr, ht, hh, hgot, hst, -⟩ :=
    reach_continue (by omega) (by omega) (by omega) (hs.ready_loadProgram ((continueProgram x (8 * n)).flatMap expand))
  obtain ⟨ts, he⟩ := hs.partEnds_of_reach (continueProgram_wf (by omega)) (pollsAfterCommands_continue x _) hr ht
  rw [hh] at hgot
  exact ⟨_, he, hgot, hst⟩

/-! ## The whole -/

/-- On a digest that decodes, the three parts run to their ends and give the function's payload and forged digest. -/
theorem procExtend_eq_extendFunction {c : Config.Params} {base digest ext : List Byte} {g : Quad}
    (hacc : extendAccepts c base ext = true) (hc : c.wf) (hd : digest.length ≤ 255)
    (hg : stateFromDigest digest.length (blockByte digest) = some g) :
    ∃ t r, extendFunction base digest ext = some r ∧ procExtend c base digest ext s = .next (t, .value r) ∧
      t.status = ⟨false, true, false, 0⟩ := by
  obtain ⟨hmax, hlen⟩ := (extendAccepts_iff c base ext).1 hacc
  have hbase : base.length < 2 ^ 61 := by have := show c.maxMsgBytes < 2 ^ 61 from hc; omega
  have hmod : (extendPayload base ext).length % 64 = ext.length % 64 := by
    have := pad_length_mod hbase
    rw [extendPayload, List.length_append]
    omega
  obtain ⟨t1, he1, hok, -⟩ := resumeProgram_ends hs hd
  obtain ⟨herr, hh1⟩ := hok g hg
  obtain ⟨t2, he2, hh2, hpad⟩ := gluePadProgram_ends he1.idle hbase
  have hpayload : headOf base ++ padBytesRead t2 ++ ext = extendPayload base ext := by rw [hpad, extendPayload]
  obtain ⟨t3, he3, hgot, hst⟩ := continueProgram_ends he2.idle hlen hmod
  refine ⟨t3, _, extendFunction_of_some hg, ?_, hst⟩
  rw [procExtend, if_pos hacc, he1.afterPart, herr, if_neg (by decide), he2.afterPart, hpayload]
  refine (he3.afterPart _).trans ?_
  rw [he1.unseen, he2.unseen, he3.unseen, hgot, hh2, hh1]
  rfl

/-- On a digest that does not, the STATUS read after LDHEX stops it (R231). -/
theorem procExtend_eq_stopped {c : Config.Params} {base digest ext : List Byte} (hacc : extendAccepts c base ext = true)
    (hd : digest.length ≤ 255) (hg : stateFromDigest digest.length (blockByte digest) = none) :
    procExtend c base digest ext s = .fault (.programStopped codeInvalidDigestFormat) := by
  obtain ⟨t, he, -, herr⟩ := resumeProgram_ends hs hd
  rw [procExtend, if_pos hacc, he.afterPart, if_pos (herr hg)]

end

/-- On a string WRHEX cannot write, the first part is no program (R86, log 17). -/
theorem procExtend_eq_illFormed {c : Config.Params} {base digest ext : List Byte} (hacc : extendAccepts c base ext = true)
    (hd : 255 < digest.length) (s : State) : procExtend c base digest ext s = .refused .illFormedProgram := by
  have hw : hostProgramWf (resumeProgram digest) = false := (resumeProgram_wf digest).trans (decide_eq_false (by omega))
  have hrun : runProgram s (resumeProgram digest) = .refused .illFormedProgram := by
    rw [runProgram, assemble, hw]
    rfl
  rw [procExtend, if_pos hacc, hrun, afterPart]

/-- Settles O59: the digest string decides between the function's result, the stop and the ill-formed line, and the lengths
decide whether the procedure runs at all. -/
theorem extendProgramComputesExtend : Obligations.ExtendProgramComputesExtend := by
  unfold Obligations.ExtendProgramComputesExtend
  intro c base digest ext s hc hm hp hb hv hr
  have hs : IdleCore s := ⟨hm, hp, hb, hv, hr⟩
  refine ⟨fun hlen => ?_, fun hlen => if_neg fun hacc => hlen ((extendAccepts_iff c base ext).1 hacc)⟩
  have hacc := (extendAccepts_iff c base ext).2 hlen
  refine ⟨fun hd hhex => ?_, fun hd hbad => procExtend_eq_stopped hs hacc hd (stateFromDigest_of_malformed hbad),
    fun hd => procExtend_eq_illFormed hacc hd s⟩
  have hg := stateFromDigest_of_hex hhex
  rw [← hd] at hg
  obtain ⟨t, ⟨payload, forged⟩, hfun, hproc, hst⟩ := procExtend_eq_extendFunction hs hacc hc (by omega) hg
  exact ⟨t, payload, forged, hfun, hproc, hst⟩

end Sys2Proof.Machine
end

section
/-! Errors are precise (60_exceptions.md R253): of the ways a command completes, only the bare completion, which writes
STATUS alone, carries a non-zero code. -/

namespace Sys2Proof.Machine

/-- A byte that fails returns no writes but its code (R253): every completion with other writes has code 0. -/
theorem completion_of_outcomeCode_ne_ok {s : State} {op : Byte} (h : s.outcomeCode op ≠ codeOk) :
    s.completion op = .next (s.complete (s.outcomeCode op)) := by
  rcases completion_cases s op with hbare | ⟨hok, -⟩ | ⟨hok, -⟩
  · exact hbare
  · exact absurd hok h
  · exact absurd hok h

/-- Settles O11: the code in STATUS is the outcome code, and a failing outcome is a bare completion. -/
theorem failedCommandWritesOnlyStatus : Obligations.FailedCommandWritesOnlyStatus := by
  unfold Obligations.FailedCommandWritesOnlyStatus
  intro op s
  obtain ⟨t, ht, hst, -⟩ := completion_status s op
  refine ⟨t, ht, fun herr => ?_⟩
  have hcode : t.status.err = s.outcomeCode op := by rw [hst, status_complete_err]
  have hfail := completion_of_outcomeCode_ne_ok (hcode ▸ herr)
  rw [hcode, Host.Outcome.next.inj (ht.symm.trans hfail), complete_eq]

end Sys2Proof.Machine
end

section
/-! Reset and hazards (70_reset_and_hazards.md R281, R282, R285, R289): what reset leaves, what no completion writes, and
what a host that waits for BUSY = 0 never meets. -/

namespace Sys2Proof.Machine

/-! ## Reset -/

@[simp] theorem reset_mem_read (a : Nat) : State.reset.mem.read a = 0x00 := rfl

/-- Settles O48: the buffers of reset are the empty memory, and every register is read off `State.reset`. -/
theorem resetValuesOfTheSpec : Obligations.ResetValuesOfTheSpec := by
  unfold Obligations.ResetValuesOfTheSpec
  exact ⟨rfl, fun k _ => reset_mem_read (blkBase + k), fun k _ => reset_mem_read (hexInBase + k),
    fun k _ => reset_mem_read (padBufBase + k), rfl, rfl, rfl, rfl, rfl, rfl, rfl⟩

/-- Settles O49: the scheduled turn is a hard reset of the state before, and that keeps the host and the rest of the
schedule alone. -/
theorem resetAbandonsTheCommand : Obligations.ResetAbandonsTheCommand := by
  unfold Obligations.ResetAbandonsTheCommand
  intro s ts hs
  refine ⟨({ s with sched := ts } : State).hardReset, step_of_cons hs, rfl, fun a => ?_,
    rfl, rfl, rfl, rfl, rfl, rfl, rfl, rfl, rfl⟩
  rw [hardReset_mem, reset_mem_read]

/-- Settles O50: the base case beside O51's step. -/
theorem resetMeetsTheInvariant : Obligations.ResetMeetsTheInvariant := reset_inv

/-! ## What no completion writes -/

/-- The registers, and the counter outside the core, that every way to complete leaves alone; of the buffers see
`onlyPadAndFinalWritePadBuf`. -/
theorem completion_register_frame {s t : State} {op : Byte} (hc : s.completion op = .next t) :
    t.tailLen = s.tailLen ∧ t.length = s.length ∧ t.hexLen = s.hexLen ∧ t.draws = s.draws := by
  rcases completion_cases s op with e | ⟨_, _, g, k, e⟩ | ⟨_, _, ⟨_, k, e⟩ | ⟨_, g, k, e⟩⟩ <;>
    cases hc.symm.trans e <;> exact ⟨rfl, rfl, rfl, rfl⟩

/-- Settles O12: a completion reaches no buffer but PADBUF, and BLK and HEXIN lie below it in the window. -/
theorem commandsKeepTheirOperands : Obligations.CommandsKeepTheirOperands := by
  unfold Obligations.CommandsKeepTheirOperands
  intro op s
  obtain ⟨t, ht, hmem, -⟩ := onlyPadAndFinalWritePadBuf op s
  obtain ⟨htail, hlen, hhex, -⟩ := completion_register_frame ht
  refine ⟨t, ht, fun k hk => hmem (blkBase + k) (.inl ?_), htail, hlen, fun k hk => hmem (hexInBase + k) (.inl ?_), hhex⟩
  · rw [blkBase]; omega
  · rw [hexInBase]; omega

/-! ## A host that keeps the hazard rule -/

/-- R285's rule, as a fact about the transaction the host makes next: while BUSY is 1 it is a read or a write of STATUS. -/
theorem hostTxn_status_of_hostKeepsHazard {s : State} (h : s.hostKeepsHazard = true) (hb : s.status.busy = true)
    {x : BusTxn} (hx : s.hostTxn = some x) : x = .read addrStatus ∨ ∃ v, x = .write addrStatus v := by
  simp only [State.hostKeepsHazard, hb, Bool.not_true, Bool.false_or] at h
  cases hprog : s.host.prog with
  | nil => simp [State.hostTxn, hprog] at hx
  | cons op p =>
    simp only [State.hostTxn, hprog] at h hx
    cases op <;> cases hx
    case wr.refl a v => exact .inr ⟨v, congrArg (BusTxn.write · v) ((regionOf_status_iff a).1 (of_decide_eq_true h))⟩
    case rd.refl a => exact .inl (congrArg BusTxn.read ((regionOf_status_iff a).1 (of_decide_eq_true h)))
    case wait.refl => exact .inl rfl
    case waitOk.refl => exact .inl rfl
    case rdPad.refl => exact absurd h Bool.false_ne_true

theorem afterRead_of_not_free {s : State} {a : Addr} (h : s.readsFree a = false) : s.afterRead a = s := by
  rw [State.afterRead, h]; rfl

/-- The draw counter moves with a free read alone (R59). -/
theorem hostTurn_draws {s : State} (h : ∀ a, s.hostTxn = some (.read a) → s.readsFree a = false) :
    s.hostTurn.draws = s.draws := by
  cases hprog : s.host.prog with
  | nil => rw [hostTurn_of_nil hprog]
  | cons op p =>
    simp only [State.hostTxn, hprog] at h
    cases op with
    | wr a v =>
      obtain ⟨-, -, hdraws, -⟩ := busWrite_frame s a v
      rw [hostTurn_wr hprog, withProg_draws, hdraws]
    | rd a => rw [hostTurn_rd hprog, hostRead_eq, afterRead_of_not_free (h a rfl)]
    | wait => rw [hostTurn_wait hprog, hostWait_eq hprog]
    | waitOk => rw [hostTurn_waitOk hprog, hostWaitOk_eq]
    | rdPad => rw [hostTurn_rdPad hprog, hostRead_eq, afterRead_of_not_free (h addrPadBlks rfl)]

/-- A host that keeps R285's rule never moves it: an idle core draws nothing, and of a busy one it reads STATUS alone. -/
theorem hostTurn_draws_of_hostKeepsHazard {s : State} (h : s.hostKeepsHazard = true) : s.hostTurn.draws = s.draws := by
  refine hostTurn_draws fun a ha => ?_
  cases hb : s.status.busy with
  | false => rw [State.readsFree, hb, Bool.false_and]
  | true =>
    rcases hostTxn_status_of_hostKeepsHazard h hb ha with e | ⟨v, e⟩
    · cases e; exact readsFree_addrStatus s
    · cases e

/-- Under R285's rule no turn moves the draw counter: reset and the core leave it alone (log 3, log 9), and so does the host. -/
theorem step_draws_of_hostKeepsHazard {s t : State} (h : s.hostKeepsHazard = true) (hstep : step s = .next t) :
    t.draws = s.draws := by
  have hn := nextTurn_state s
  generalize s.nextTurn.2.sched = ts at hn
  rcases step_cases hstep with ⟨_, e⟩ | ⟨_, e⟩ | ⟨_, _, e⟩ | ⟨_, op, _, hc⟩
  · rw [e, hardReset_draws, hn]
  · rw [e, hn]
    exact hostTurn_draws_of_hostKeepsHazard (s := { s with sched := ts }) h
  · rw [e, hn]
  · obtain ⟨-, -, -, hdraws⟩ := completion_register_frame hc
    rw [hdraws, hn]

/-- BV is set by a write of a busy core outside STATUS alone (`bvIsStickyAndSetByBusyWrites`), which R285 forbids. -/
theorem step_bv_of_hostKeepsHazard {s t : State} (h : s.hostKeepsHazard = true) (h0 : s.status.bv = false)
    (hstep : step s = .next t) : t.status.bv = false := by
  refine Bool.eq_false_iff.2 fun h1 => ?_
  obtain ⟨-, hset, -⟩ := bvIsStickyAndSetByBusyWrites
  obtain ⟨-, hb, a, v, p, hprog, ha⟩ := hset s t hstep h0 h1
  have htxn : s.hostTxn = some (.write a v) := by rw [State.hostTxn, hprog]
  rcases hostTxn_status_of_hostKeepsHazard h hb htxn with e | ⟨w, e⟩
  · cases e
  · cases e; exact ha rfl

/-- Settles O53: BV by what can set it, the draws turn by turn. -/
theorem hazardKeepingHostMeetsNoHazard : Obligations.HazardKeepingHostMeetsNoHazard := by
  unfold Obligations.HazardKeepingHostMeetsNoHazard
  exact fun s t h h0 hstep => ⟨step_bv_of_hostKeepsHazard h h0 hstep, step_draws_of_hostKeepsHazard h hstep⟩

end Sys2Proof.Machine
end
